-- ==== Sys2Proof/Word.lean ====
section
/-! DEFINITION. The machine's words, and the closed sets of names the spec gives: registers and mnemonics. -/

namespace Sys2Proof

/-- A register, memory or instruction word: a raw 32-bit pattern (R11, `bits32`). -/
abbrev Word := BitVec 32

/-- One byte of Memory (R37). -/
abbrev Byte := BitVec 8

/-- The sixteen operand registers, in the order of their numbers 0 to 15 (R20). -/
inductive Reg where
  | ax | bx | cx | dx | ex | fx | gx | hx
  | sp | bp | si | di
  | cs | ds | ss | es
deriving DecidableEq, Repr

/-- The 40 mnemonics of the closed instruction set, in the order of R104. -/
inductive Mnemonic where
  | addw | subw | mul | inc | dec | neg
  | and | or | xor | not | shl | shr
  | movi | movw | lodi | lodw | stri | strw | push | pop | xcgh
  | cmpw | jmp | call | ret | je | jne | jgt | jge | jlt | jle | js | jco
  | halt
  | inn | out | insi | insw | outi | outw
deriving DecidableEq, Repr

end Sys2Proof
end

