-- ==== Sys2Proof/Config.lean ====
section
/-! DEFINITION. What an implementation fixes (R10) and the free value the spec leaves open (R162). -/

namespace Sys2Proof.Config

/-- The smallest legal `TOTAL_SIZE`, 64 KiB (R6). -/
def minTotalSize : Nat := 65536

/-- The largest legal `TOTAL_SIZE`, 8 MiB (R6). -/
def maxTotalSize : Nat := 8388608

/-- The default size of the general-purpose stack segment (R71). -/
def defaultStackSize : Nat := 4096

/-- The parameters of one machine that its steps read and never write (R10).
They stand in `State` because the step takes a state and nothing else (logs 1 and 2). -/
structure Params where
  /-- `TOTAL_SIZE`, the bytes of Memory (R6). -/
  totalSize : Nat
  /-- `CALL_STACK_CAPACITY`: `none` is unbounded (R41, D25); see `capacityLegal`. -/
  callStackCapacity : Option Nat
deriving DecidableEq, Repr

/-- `CALL_STACK_CAPACITY` is in its range: a positive number or unbounded (R10, R41). -/
abbrev Params.capacityLegal (p : Params) : Prop := p.callStackCapacity ≠ some 0

/-- The float operations that can produce a NaN: the first argument of `nan_result` (R163 to R167). -/
inductive FloatOp where
  | addw | subw | mul | inc | dec
deriving DecidableEq, Repr

/-- A binary32 NaN pattern: a sign and a fraction that is not zero, held as the fraction less one (R11). -/
structure NanPattern where
  negative : Bool
  fractionLessOne : Fin 8388607
deriving DecidableEq, Repr, Inhabited

/-- `nan_result(op, a, b)`: which NaN pattern an operation produces. A FREE VALUE: R162 and D16 allow any NaN pattern
and no source fixes one, so nothing can be proved of it but that it is a NaN pattern (log 3). -/
opaque nanResult : FloatOp → Word → Word → NanPattern

end Sys2Proof.Config
end

