-- ==== Sys2Proof/Machine/Float.lean ====
section
/-! DEFINITION. IEEE-754 binary32 on bit patterns: the view `f(v)`, rounding, add, subtract, multiply and compare
(R11, R162, R231). Finite values are counted in units of 2^-149, the least positive subnormal: in these units
every finite binary32 value is an integer. -/

namespace Sys2Proof.Machine

/-- `f(v)` (R11): what a 32-bit pattern means as a float. A finite value is its sign and its magnitude in units of 2^-149,
so that the two zeros stay apart. -/
inductive FloatVal where
  | nan
  | inf (negative : Bool)
  | fin (negative : Bool) (units : Nat)
deriving DecidableEq, Repr

/-- The magnitude, in units of 2^-149, of the finite pattern with biased exponent `e` and fraction `f` (R11). -/
def floatUnits (e f : Nat) : Nat := if e = 0 then f else (2 ^ 23 + f) * 2 ^ (e - 1)

/-- Bit 31: the sign. -/
def floatNegative (v : Word) : Bool := v.getLsbD 31

/-- Bits 30:23: the biased exponent. -/
def floatExponent (v : Word) : Nat := (v.extractLsb' 23 8).toNat

/-- Bits 22:0: the fraction. -/
def floatFraction (v : Word) : Nat := (v.extractLsb' 0 23).toNat

/-- `f(v)` (R11). -/
def floatVal (v : Word) : FloatVal :=
  if floatExponent v = 255 then (if floatFraction v = 0 then .inf (floatNegative v) else .nan)
  else .fin (floatNegative v) (floatUnits (floatExponent v) (floatFraction v))

/-- "is a NaN": exponent 0xFF and a fraction that is not zero (R11). -/
def isNaN (v : Word) : Bool := floatExponent v == 255 && floatFraction v != 0

/-- A finite value with its sign, in units of 2^-149. -/
def signedUnits (negative : Bool) (units : Nat) : Int := if negative then -(units : Int) else units

/-- The pattern with this sign and these 31 bits of exponent and fraction. -/
def packFloat (negative : Bool) (magnitude : Nat) : Word :=
  BitVec.ofNat 32 ((if negative then 2 ^ 31 else 0) + magnitude)

/-- The 31 bits of an infinity. -/
def infMagnitude : Nat := 0x7F800000

/-- The 31 bits of the binary32 magnitude nearest to `num / den` units of 2^-149, ties to even; an infinity where it
overflows (R162). Below 2^24 units neighbouring values lie 1 unit apart; from `2^(23+e)` to `2^(24+e)` units they lie
`2^e` apart, and the pattern of `m * 2^e` units, `2^23 ≤ m < 2^24`, is `e * 2^23 + m`. -/
def roundMagnitude (num den : Nat) : Nat :=
  let q := num / den
  let e := if q < 2 ^ 24 then 0 else Nat.log2 q - 23
  let ulp := den * 2 ^ e
  let m := num / ulp
  let rest := num % ulp
  let up := decide (ulp < 2 * rest) || (2 * rest == ulp && m % 2 == 1)
  min infMagnitude (e * 2 ^ 23 + (if up then m + 1 else m))

/-- The pattern of `nan_result(op, a, b)` (R162): the free value as 32 bits (log 3). -/
def nanResultWord (op : Config.FloatOp) (a b : Word) : Word :=
  let p := Config.nanResult op a b
  packFloat p.negative (infMagnitude + (p.fractionLessOne.val + 1))

/-- The sum of two float values, `none` where it is a NaN (R162). A sum that is exactly zero is `-0` only where both
operands are negative zeros, and `+0` otherwise. -/
def floatSum : FloatVal → FloatVal → Option Word
  | .nan, _ => none
  | _, .nan => none
  | .inf n, .inf n' => if n = n' then some (packFloat n infMagnitude) else none
  | .inf n, .fin _ _ => some (packFloat n infMagnitude)
  | .fin _ _, .inf n => some (packFloat n infMagnitude)
  | .fin n u, .fin n' u' =>
    let x := signedUnits n u + signedUnits n' u'
    if x = 0 then some (packFloat (n && n') 0)
    else some (packFloat (decide (x < 0)) (roundMagnitude x.natAbs 1))

/-- The value with the other sign. -/
def floatOpposite : FloatVal → FloatVal
  | .nan => .nan
  | .inf n => .inf (!n)
  | .fin n u => .fin (!n) u

/-- The product of two float values, `none` where it is a NaN (R162): the sign is the exclusive-or, also for zeros. -/
def floatProduct : FloatVal → FloatVal → Option Word
  | .nan, _ => none
  | _, .nan => none
  | .inf n, .inf n' => some (packFloat (n != n') infMagnitude)
  | .inf n, .fin n' u => if u = 0 then none else some (packFloat (n != n') infMagnitude)
  | .fin n u, .inf n' => if u = 0 then none else some (packFloat (n != n') infMagnitude)
  | .fin n u, .fin n' u' => some (packFloat (n != n') (roundMagnitude (u * u') (2 ^ 149)))

/-- `bitsf(fadd(f(a), f(b)))`, or `nan_result(op, a, b)` (R162). -/
def floatAdd (op : Config.FloatOp) (a b : Word) : Word :=
  (floatSum (floatVal a) (floatVal b)).getD (nanResultWord op a b)

/-- `bitsf(fsub(f(a), f(b)))`, or `nan_result(op, a, b)` (R162): the sum with the opposite of the second operand. -/
def floatSub (op : Config.FloatOp) (a b : Word) : Word :=
  (floatSum (floatVal a) (floatOpposite (floatVal b))).getD (nanResultWord op a b)

/-- `bitsf(fmul(f(a), f(b)))`, or `nan_result(op, a, b)` (R162). -/
def floatMul (op : Config.FloatOp) (a b : Word) : Word :=
  (floatProduct (floatVal a) (floatVal b)).getD (nanResultWord op a b)

/-- The pattern of the float 1.0 (R166). -/
def floatOne : Word := 0x3F800000

/-- IEEE-754 equality: `+0 = -0`, `+inf = +inf`, nothing equals a NaN (R231). -/
def floatEq : FloatVal → FloatVal → Bool
  | .inf n, .inf n' => n == n'
  | .fin n u, .fin n' u' => decide (signedUnits n u = signedUnits n' u')
  | _, _ => false

/-- IEEE-754 less-than, false where an operand is a NaN (R231). -/
def floatLt : FloatVal → FloatVal → Bool
  | .inf n, .inf n' => n && !n'
  | .inf n, .fin _ _ => n
  | .fin _ _, .inf n => !n
  | .fin n u, .fin n' u' => decide (signedUnits n u < signedUnits n' u')
  | _, _ => false

end Sys2Proof.Machine
end

