-- ==== Sys2Proof/Syntax.lean ====
section
/-! DEFINITION. The instructions: one constructor per row of spec/opcode_table.json (mnemonic and operand form, R104).

An immediate is the 32-bit value the spec's abstract instruction carries (`ImmInt(v)`, `ImmFlt(v)`, R114), an address the
zero-extended 32-bit address decode hands to execute (R120). Which of them a word can encode is `Instr.wf` (WellFormed). -/

namespace Sys2Proof

inductive Instr where
  /-- ADDW `ra, rb`, R163. -/
  | addwReg (ra : Reg) (rb : Reg)
  /-- ADDW `ra, imm (integer: src = sext_32(pay,20))`, R163. -/
  | addwImmInt (ra : Reg) (v : Word)
  /-- ADDW `ra, imm (float-high: src = pay << 12)`, R163. -/
  | addwImmFlt (ra : Reg) (v : Word)
  /-- SUBW `ra, rb`, R164. -/
  | subwReg (ra : Reg) (rb : Reg)
  /-- SUBW `ra, imm (integer: src = sext_32(pay,20))`, R164. -/
  | subwImmInt (ra : Reg) (v : Word)
  /-- SUBW `ra, imm (float-high: src = pay << 12)`, R164. -/
  | subwImmFlt (ra : Reg) (v : Word)
  /-- MUL `ra, rb`, R165. -/
  | mulReg (ra : Reg) (rb : Reg)
  /-- MUL `ra, imm (integer: src = sext_32(pay,20))`, R165. -/
  | mulImmInt (ra : Reg) (v : Word)
  /-- MUL `ra, imm (float-high: src = pay << 12)`, R165. -/
  | mulImmFlt (ra : Reg) (v : Word)
  /-- INC `ra`, R166. -/
  | incReg (ra : Reg)
  /-- DEC `ra`, R167. -/
  | decReg (ra : Reg)
  /-- NEG `ra`, R168. -/
  | negReg (ra : Reg)
  /-- AND `ra, rb`, R182. -/
  | andReg (ra : Reg) (rb : Reg)
  /-- AND `ra, imm (integer: src = sext_32(pay,20))`, R182. -/
  | andImmInt (ra : Reg) (v : Word)
  /-- AND `ra, imm (float-high: src = pay << 12)`, R182. -/
  | andImmFlt (ra : Reg) (v : Word)
  /-- OR `ra, rb`, R183. -/
  | orReg (ra : Reg) (rb : Reg)
  /-- OR `ra, imm (integer: src = sext_32(pay,20))`, R183. -/
  | orImmInt (ra : Reg) (v : Word)
  /-- OR `ra, imm (float-high: src = pay << 12)`, R183. -/
  | orImmFlt (ra : Reg) (v : Word)
  /-- XOR `ra, rb`, R184. -/
  | xorReg (ra : Reg) (rb : Reg)
  /-- XOR `ra, imm (integer: src = sext_32(pay,20))`, R184. -/
  | xorImmInt (ra : Reg) (v : Word)
  /-- XOR `ra, imm (float-high: src = pay << 12)`, R184. -/
  | xorImmFlt (ra : Reg) (v : Word)
  /-- NOT `ra`, R185. -/
  | notReg (ra : Reg)
  /-- SHL `ra, rb`, R186. -/
  | shlReg (ra : Reg) (rb : Reg)
  /-- SHL `ra, imm (integer: src = sext_32(pay,20))`, R186. -/
  | shlImmInt (ra : Reg) (v : Word)
  /-- SHL `ra, imm (float-high: src = pay << 12)`, R186. -/
  | shlImmFlt (ra : Reg) (v : Word)
  /-- SHR `ra, rb`, R187. -/
  | shrReg (ra : Reg) (rb : Reg)
  /-- SHR `ra, imm (integer: src = sext_32(pay,20))`, R187. -/
  | shrImmInt (ra : Reg) (v : Word)
  /-- SHR `ra, imm (float-high: src = pay << 12)`, R187. -/
  | shrImmFlt (ra : Reg) (v : Word)
  /-- MOVI `ra, imm (integer: src = sext_32(pay,20))`, R201. -/
  | moviImmInt (ra : Reg) (v : Word)
  /-- MOVI `ra, imm (float-high: src = pay << 12)`, R201. -/
  | moviImmFlt (ra : Reg) (v : Word)
  /-- MOVW `ra, rb`, R202. -/
  | movwReg (ra : Reg) (rb : Reg)
  /-- LODI `ra, imm (integer: src = sext_32(pay,20))`, R203. -/
  | lodiImmInt (ra : Reg) (v : Word)
  /-- LODI `ra, imm (float-high: src = pay << 12)`, R203. -/
  | lodiImmFlt (ra : Reg) (v : Word)
  /-- LODW `rg, [addr]`, R204. -/
  | lodwRegAddr (rg : Reg) (a : Word)
  /-- STRI `ra, imm (integer: src = sext_32(pay,20))`, R205. -/
  | striImmInt (ra : Reg) (v : Word)
  /-- STRI `ra, imm (float-high: src = pay << 12)`, R205. -/
  | striImmFlt (ra : Reg) (v : Word)
  /-- STRW `[addr], rg`, R206. -/
  | strwRegAddr (a : Word) (rg : Reg)
  /-- PUSH `rb`, R207. -/
  | pushReg (rb : Reg)
  /-- PUSH `imm (integer: src = sext_32(pay,20))`, R207. -/
  | pushImmInt (v : Word)
  /-- PUSH `imm (float-high: src = pay << 12)`, R207. -/
  | pushImmFlt (v : Word)
  /-- POP `ra`, R208. -/
  | popReg (ra : Reg)
  /-- XCGH `ra, rb`, R209. -/
  | xcghReg (ra : Reg) (rb : Reg)
  /-- CMPW `ra, rb`, R231. -/
  | cmpwReg (ra : Reg) (rb : Reg)
  /-- CMPW `ra, imm (integer: src = sext_32(pay,20))`, R231. -/
  | cmpwImmInt (ra : Reg) (v : Word)
  /-- CMPW `ra, imm (float-high: src = pay << 12)`, R231. -/
  | cmpwImmFlt (ra : Reg) (v : Word)
  /-- JMP `addr`, R232. -/
  | jmpAddr (a : Word)
  /-- CALL `addr`, R233. -/
  | callAddr (a : Word)
  /-- RET `no operand`, R234. -/
  | retNone
  /-- JE `addr`, R236. -/
  | jeAddr (a : Word)
  /-- JNE `addr`, R237. -/
  | jneAddr (a : Word)
  /-- JGT `addr`, R238. -/
  | jgtAddr (a : Word)
  /-- JGE `addr`, R239. -/
  | jgeAddr (a : Word)
  /-- JLT `addr`, R240. -/
  | jltAddr (a : Word)
  /-- JLE `addr`, R241. -/
  | jleAddr (a : Word)
  /-- JS `addr`, R242. -/
  | jsAddr (a : Word)
  /-- JCO `addr`, R243. -/
  | jcoAddr (a : Word)
  /-- HALT `no operand`, R260. -/
  | haltNone
  /-- IN `ra`, R267. -/
  | inReg (ra : Reg)
  /-- OUT `rb`, R268. -/
  | outReg (rb : Reg)
  /-- OUT `imm (integer: src = sext_32(pay,20))`, R268. -/
  | outImmInt (v : Word)
  /-- OUT `imm (float-high: src = pay << 12)`, R268. -/
  | outImmFlt (v : Word)
  /-- INSI `[addr]`, R269. -/
  | insiAddr (a : Word)
  /-- INSW `ra`, R270. -/
  | inswReg (ra : Reg)
  /-- OUTI `[addr]`, R271. -/
  | outiAddr (a : Word)
  /-- OUTW `ra`, R272. -/
  | outwReg (ra : Reg)
deriving DecidableEq, Repr

/-- The mnemonic of a row (R104). -/
def Instr.mnemonic : Instr → Mnemonic
  | .addwReg _ _ => .addw
  | .addwImmInt _ _ => .addw
  | .addwImmFlt _ _ => .addw
  | .subwReg _ _ => .subw
  | .subwImmInt _ _ => .subw
  | .subwImmFlt _ _ => .subw
  | .mulReg _ _ => .mul
  | .mulImmInt _ _ => .mul
  | .mulImmFlt _ _ => .mul
  | .incReg _ => .inc
  | .decReg _ => .dec
  | .negReg _ => .neg
  | .andReg _ _ => .and
  | .andImmInt _ _ => .and
  | .andImmFlt _ _ => .and
  | .orReg _ _ => .or
  | .orImmInt _ _ => .or
  | .orImmFlt _ _ => .or
  | .xorReg _ _ => .xor
  | .xorImmInt _ _ => .xor
  | .xorImmFlt _ _ => .xor
  | .notReg _ => .not
  | .shlReg _ _ => .shl
  | .shlImmInt _ _ => .shl
  | .shlImmFlt _ _ => .shl
  | .shrReg _ _ => .shr
  | .shrImmInt _ _ => .shr
  | .shrImmFlt _ _ => .shr
  | .moviImmInt _ _ => .movi
  | .moviImmFlt _ _ => .movi
  | .movwReg _ _ => .movw
  | .lodiImmInt _ _ => .lodi
  | .lodiImmFlt _ _ => .lodi
  | .lodwRegAddr _ _ => .lodw
  | .striImmInt _ _ => .stri
  | .striImmFlt _ _ => .stri
  | .strwRegAddr _ _ => .strw
  | .pushReg _ => .push
  | .pushImmInt _ => .push
  | .pushImmFlt _ => .push
  | .popReg _ => .pop
  | .xcghReg _ _ => .xcgh
  | .cmpwReg _ _ => .cmpw
  | .cmpwImmInt _ _ => .cmpw
  | .cmpwImmFlt _ _ => .cmpw
  | .jmpAddr _ => .jmp
  | .callAddr _ => .call
  | .retNone => .ret
  | .jeAddr _ => .je
  | .jneAddr _ => .jne
  | .jgtAddr _ => .jgt
  | .jgeAddr _ => .jge
  | .jltAddr _ => .jlt
  | .jleAddr _ => .jle
  | .jsAddr _ => .js
  | .jcoAddr _ => .jco
  | .haltNone => .halt
  | .inReg _ => .inn
  | .outReg _ => .out
  | .outImmInt _ => .out
  | .outImmFlt _ => .out
  | .insiAddr _ => .insi
  | .inswReg _ => .insw
  | .outiAddr _ => .outi
  | .outwReg _ => .outw

end Sys2Proof
end

