-- ==== Sys2Proof/WellFormed.lean ====
section
/-! DEFINITION. Which instructions a 32-bit word can carry: the constraints of R114 and R112 ("representable"). -/

namespace Sys2Proof

/-- `ImmInt(v)` needs bits 31:19 of `v` all equal (R112). -/
def immIntRepresentable (v : Word) : Bool :=
  v.extractLsb' 19 13 == 0 || v.extractLsb' 19 13 == 0x1FFF#13

/-- `ImmFlt(v)` needs bits 11:0 of `v` zero (R112). -/
def immFltRepresentable (v : Word) : Bool :=
  v.extractLsb' 0 12 == 0

/-- `Addr(a)` needs `a < 2^23` (R114). -/
def addrFits (a : Word) : Bool :=
  a.extractLsb' 23 9 == 0

/-- The register field of LODW and STRW names AX to HX only (R24, R114). -/
def Reg.isGeneral : Reg → Bool
  | .ax | .bx | .cx | .dx | .ex | .fx | .gx | .hx => true
  | .sp | .bp | .si | .di | .cs | .ds | .ss | .es => false

/-- The abstract instructions of R114, those `encode` is defined on (R115). -/
def Instr.wf : Instr → Bool
  | .addwReg _ _ => true
  | .addwImmInt _ v => immIntRepresentable v
  | .addwImmFlt _ v => immFltRepresentable v
  | .subwReg _ _ => true
  | .subwImmInt _ v => immIntRepresentable v
  | .subwImmFlt _ v => immFltRepresentable v
  | .mulReg _ _ => true
  | .mulImmInt _ v => immIntRepresentable v
  | .mulImmFlt _ v => immFltRepresentable v
  | .incReg _ => true
  | .decReg _ => true
  | .negReg _ => true
  | .andReg _ _ => true
  | .andImmInt _ v => immIntRepresentable v
  | .andImmFlt _ v => immFltRepresentable v
  | .orReg _ _ => true
  | .orImmInt _ v => immIntRepresentable v
  | .orImmFlt _ v => immFltRepresentable v
  | .xorReg _ _ => true
  | .xorImmInt _ v => immIntRepresentable v
  | .xorImmFlt _ v => immFltRepresentable v
  | .notReg _ => true
  | .shlReg _ _ => true
  | .shlImmInt _ v => immIntRepresentable v
  | .shlImmFlt _ v => immFltRepresentable v
  | .shrReg _ _ => true
  | .shrImmInt _ v => immIntRepresentable v
  | .shrImmFlt _ v => immFltRepresentable v
  | .moviImmInt _ v => immIntRepresentable v
  | .moviImmFlt _ v => immFltRepresentable v
  | .movwReg _ _ => true
  | .lodiImmInt _ v => immIntRepresentable v
  | .lodiImmFlt _ v => immFltRepresentable v
  | .lodwRegAddr rg a => rg.isGeneral && addrFits a
  | .striImmInt _ v => immIntRepresentable v
  | .striImmFlt _ v => immFltRepresentable v
  | .strwRegAddr a rg => rg.isGeneral && addrFits a
  | .pushReg _ => true
  | .pushImmInt v => immIntRepresentable v
  | .pushImmFlt v => immFltRepresentable v
  | .popReg _ => true
  | .xcghReg _ _ => true
  | .cmpwReg _ _ => true
  | .cmpwImmInt _ v => immIntRepresentable v
  | .cmpwImmFlt _ v => immFltRepresentable v
  | .jmpAddr a => addrFits a
  | .callAddr a => addrFits a
  | .retNone => true
  | .jeAddr a => addrFits a
  | .jneAddr a => addrFits a
  | .jgtAddr a => addrFits a
  | .jgeAddr a => addrFits a
  | .jltAddr a => addrFits a
  | .jleAddr a => addrFits a
  | .jsAddr a => addrFits a
  | .jcoAddr a => addrFits a
  | .haltNone => true
  | .inReg _ => true
  | .outReg _ => true
  | .outImmInt v => immIntRepresentable v
  | .outImmFlt v => immFltRepresentable v
  | .insiAddr a => addrFits a
  | .inswReg _ => true
  | .outiAddr a => addrFits a
  | .outwReg _ => true

end Sys2Proof
end

