-- ==== Sys2Proof/Decode.lean ====
section
/-! DEFINITION. The machine word: opcode map (R104), fields (R103), `decode` (R116) and `encode` (R115), and the decoder the host asks. -/

namespace Sys2Proof

/-! ## Fields of a word (R103) -/

/-- Register numbers (R20). -/
def Reg.num : Reg → BitVec 4
  | .ax => 0#4
  | .bx => 1#4
  | .cx => 2#4
  | .dx => 3#4
  | .ex => 4#4
  | .fx => 5#4
  | .gx => 6#4
  | .hx => 7#4
  | .sp => 8#4
  | .bp => 9#4
  | .si => 10#4
  | .di => 11#4
  | .cs => 12#4
  | .ds => 13#4
  | .ss => 14#4
  | .es => 15#4

/-- The register a 4-bit field names: every value names one (R26). -/
def Reg.ofNum (n : BitVec 4) : Reg :=
  match n.toNat with
  | 0 => .ax
  | 1 => .bx
  | 2 => .cx
  | 3 => .dx
  | 4 => .ex
  | 5 => .fx
  | 6 => .gx
  | 7 => .hx
  | 8 => .sp
  | 9 => .bp
  | 10 => .si
  | 11 => .di
  | 12 => .cs
  | 13 => .ds
  | 14 => .ss
  | _ => .es

/-- `opcode`, bits 31:26. -/
def wordOpcode (w : Word) : BitVec 6 := w.extractLsb' 26 6

/-- `ra`, bits 25:22. -/
def wordRa (w : Word) : Reg := Reg.ofNum (w.extractLsb' 22 4)

/-- `rg`, bits 25:23: AX to HX. -/
def wordRg (w : Word) : Reg := Reg.ofNum (0#1 ++ w.extractLsb' 23 3)

/-- `sk`, bits 21:20. -/
def wordSk (w : Word) : BitVec 2 := w.extractLsb' 20 2

/-- `pay`, bits 19:0. -/
def wordPay (w : Word) : BitVec 20 := w.extractLsb' 0 20

/-- `rb`, bits 3:0. -/
def wordRb (w : Word) : Reg := Reg.ofNum (w.extractLsb' 0 4)

/-- `addr`, bits 22:0, zero-extended (R109, R113). -/
def wordAddr (w : Word) : Word := 0#9 ++ w.extractLsb' 0 23

/-- The value of an integer immediate: bits 31:20 copy bit 19 (R110, `sk` 01). -/
def immIntOfPay (p : BitVec 20) : Word := p.signExtend 32

/-- The value of a float-high immediate: the low 12 bits are zero (R110, `sk` 10). -/
def immFltOfPay (p : BitVec 20) : Word := p ++ 0#12

/-! ## The opcode map (R104) -/

/-- The opcode number of each mnemonic. -/
def Mnemonic.opcode : Mnemonic → BitVec 6
  | .addw => 0x01#6
  | .subw => 0x02#6
  | .mul => 0x03#6
  | .inc => 0x04#6
  | .dec => 0x05#6
  | .neg => 0x06#6
  | .and => 0x08#6
  | .or => 0x09#6
  | .xor => 0x0A#6
  | .not => 0x0B#6
  | .shl => 0x0C#6
  | .shr => 0x0D#6
  | .movi => 0x10#6
  | .movw => 0x11#6
  | .lodi => 0x12#6
  | .lodw => 0x13#6
  | .stri => 0x14#6
  | .strw => 0x15#6
  | .push => 0x16#6
  | .pop => 0x17#6
  | .xcgh => 0x18#6
  | .cmpw => 0x20#6
  | .jmp => 0x21#6
  | .call => 0x22#6
  | .ret => 0x23#6
  | .je => 0x24#6
  | .jne => 0x25#6
  | .jgt => 0x26#6
  | .jge => 0x27#6
  | .jlt => 0x28#6
  | .jle => 0x29#6
  | .js => 0x2A#6
  | .jco => 0x2B#6
  | .halt => 0x30#6
  | .inn => 0x38#6
  | .out => 0x39#6
  | .insi => 0x3A#6
  | .insw => 0x3B#6
  | .outi => 0x3C#6
  | .outw => 0x3D#6

/-- The mnemonic of an opcode, none for the 24 unassigned values. -/
def Mnemonic.ofOpcode (op : BitVec 6) : Option Mnemonic :=
  match op.toNat with
  | 0x01 => some .addw
  | 0x02 => some .subw
  | 0x03 => some .mul
  | 0x04 => some .inc
  | 0x05 => some .dec
  | 0x06 => some .neg
  | 0x08 => some .and
  | 0x09 => some .or
  | 0x0A => some .xor
  | 0x0B => some .not
  | 0x0C => some .shl
  | 0x0D => some .shr
  | 0x10 => some .movi
  | 0x11 => some .movw
  | 0x12 => some .lodi
  | 0x13 => some .lodw
  | 0x14 => some .stri
  | 0x15 => some .strw
  | 0x16 => some .push
  | 0x17 => some .pop
  | 0x18 => some .xcgh
  | 0x20 => some .cmpw
  | 0x21 => some .jmp
  | 0x22 => some .call
  | 0x23 => some .ret
  | 0x24 => some .je
  | 0x25 => some .jne
  | 0x26 => some .jgt
  | 0x27 => some .jge
  | 0x28 => some .jlt
  | 0x29 => some .jle
  | 0x2A => some .js
  | 0x2B => some .jco
  | 0x30 => some .halt
  | 0x38 => some .inn
  | 0x39 => some .out
  | 0x3A => some .insi
  | 0x3B => some .insw
  | 0x3C => some .outi
  | 0x3D => some .outw
  | _ => none

/-! ## Decode (R116) -/

/-- Why a word is illegal: the four cases of R118, and a byte string shorter than a word. -/
inductive DecodeError where
  /-- The opcode is one of the 24 unassigned values (R118 case 1). -/
  | unknownOpcode
  /-- A must-be-zero bit of the format is 1 (R118 case 2). -/
  | mustBeZero
  /-- `sk` is 11 (R118 case 3). -/
  | reservedSourceKind
  /-- `sk` is not allowed for the opcode (R118 case 4, R111). -/
  | sourceKindNotAllowed
  /-- Fewer than four bytes were given: no word at all (R101). -/
  | truncated
deriving DecidableEq, Repr

/-- Format N: bits 25:0 must be zero (R105). -/
def decodeN (w : Word) (i : Instr) : Except DecodeError Instr :=
  if w.extractLsb' 0 26 = 0 then .ok i else .error .mustBeZero

/-- Format R: bits 21:0 must be zero (R106). -/
def decodeR (w : Word) (mk : Reg → Instr) : Except DecodeError Instr :=
  if w.extractLsb' 0 22 = 0 then .ok (mk (wordRa w)) else .error .mustBeZero

/-- `DecodeSource` (R116): the source kinds an opcode allows are those whose constructor is given (R111). -/
def decodeSource (w : Word) (onReg : Option (Reg → Instr)) (onInt onFlt : Option (Word → Instr)) :
    Except DecodeError Instr :=
  match (wordSk w).toNat with
  | 0 =>
    match onReg with
    | none => .error .sourceKindNotAllowed
    | some mk => if w.extractLsb' 4 16 = 0 then .ok (mk (wordRb w)) else .error .mustBeZero
  | 1 =>
    match onInt with
    | none => .error .sourceKindNotAllowed
    | some mk => .ok (mk (immIntOfPay (wordPay w)))
  | 2 =>
    match onFlt with
    | none => .error .sourceKindNotAllowed
    | some mk => .ok (mk (immFltOfPay (wordPay w)))
  | _ => .error .reservedSourceKind

/-- Format S: bits 25:22 must be zero (R108). -/
def decodeS (w : Word) (onReg : Option (Reg → Instr)) (onInt onFlt : Option (Word → Instr)) :
    Except DecodeError Instr :=
  if w.extractLsb' 22 4 = 0 then decodeSource w onReg onInt onFlt else .error .mustBeZero

/-- Format A: bits 25:23 must be zero (R109). -/
def decodeA (w : Word) (mk : Word → Instr) : Except DecodeError Instr :=
  if w.extractLsb' 23 3 = 0 then .ok (mk (wordAddr w)) else .error .mustBeZero

/-- `decode(w)`, total on 32-bit words (R116): the format is that of the mnemonic (R104). -/
def decodeWord (w : Word) : Except DecodeError Instr :=
  match Mnemonic.ofOpcode (wordOpcode w) with
  | none => .error .unknownOpcode
  | some .addw => decodeSource w (some (.addwReg (wordRa w))) (some (.addwImmInt (wordRa w))) (some (.addwImmFlt (wordRa w)))
  | some .subw => decodeSource w (some (.subwReg (wordRa w))) (some (.subwImmInt (wordRa w))) (some (.subwImmFlt (wordRa w)))
  | some .mul => decodeSource w (some (.mulReg (wordRa w))) (some (.mulImmInt (wordRa w))) (some (.mulImmFlt (wordRa w)))
  | some .inc => decodeR w .incReg
  | some .dec => decodeR w .decReg
  | some .neg => decodeR w .negReg
  | some .and => decodeSource w (some (.andReg (wordRa w))) (some (.andImmInt (wordRa w))) (some (.andImmFlt (wordRa w)))
  | some .or => decodeSource w (some (.orReg (wordRa w))) (some (.orImmInt (wordRa w))) (some (.orImmFlt (wordRa w)))
  | some .xor => decodeSource w (some (.xorReg (wordRa w))) (some (.xorImmInt (wordRa w))) (some (.xorImmFlt (wordRa w)))
  | some .not => decodeR w .notReg
  | some .shl => decodeSource w (some (.shlReg (wordRa w))) (some (.shlImmInt (wordRa w))) (some (.shlImmFlt (wordRa w)))
  | some .shr => decodeSource w (some (.shrReg (wordRa w))) (some (.shrImmInt (wordRa w))) (some (.shrImmFlt (wordRa w)))
  | some .movi => decodeSource w none (some (.moviImmInt (wordRa w))) (some (.moviImmFlt (wordRa w)))
  | some .movw => decodeSource w (some (.movwReg (wordRa w))) none none
  | some .lodi => decodeSource w none (some (.lodiImmInt (wordRa w))) (some (.lodiImmFlt (wordRa w)))
  | some .lodw => .ok (.lodwRegAddr (wordRg w) (wordAddr w))
  | some .stri => decodeSource w none (some (.striImmInt (wordRa w))) (some (.striImmFlt (wordRa w)))
  | some .strw => .ok (.strwRegAddr (wordAddr w) (wordRg w))
  | some .push => decodeS w (some .pushReg) (some .pushImmInt) (some .pushImmFlt)
  | some .pop => decodeR w .popReg
  | some .xcgh => decodeSource w (some (.xcghReg (wordRa w))) none none
  | some .cmpw => decodeSource w (some (.cmpwReg (wordRa w))) (some (.cmpwImmInt (wordRa w))) (some (.cmpwImmFlt (wordRa w)))
  | some .jmp => decodeA w .jmpAddr
  | some .call => decodeA w .callAddr
  | some .ret => decodeN w .retNone
  | some .je => decodeA w .jeAddr
  | some .jne => decodeA w .jneAddr
  | some .jgt => decodeA w .jgtAddr
  | some .jge => decodeA w .jgeAddr
  | some .jlt => decodeA w .jltAddr
  | some .jle => decodeA w .jleAddr
  | some .js => decodeA w .jsAddr
  | some .jco => decodeA w .jcoAddr
  | some .halt => decodeN w .haltNone
  | some .inn => decodeR w .inReg
  | some .out => decodeS w (some .outReg) (some .outImmInt) (some .outImmFlt)
  | some .insi => decodeA w .insiAddr
  | some .insw => decodeR w .inswReg
  | some .outi => decodeA w .outiAddr
  | some .outw => decodeR w .outwReg

/-- The word of four bytes, the lowest address first (R61). -/
def wordOfBytes4 (b0 b1 b2 b3 : Byte) : Word := b3 ++ b2 ++ b1 ++ b0

/-- The decoder on any bytes: the instruction at their start and the bytes after it, or the reason there is none. -/
def decode : List Byte → Except DecodeError (Instr × List Byte)
  | b0 :: b1 :: b2 :: b3 :: rest =>
    match decodeWord (wordOfBytes4 b0 b1 b2 b3) with
    | .ok i => .ok (i, rest)
    | .error e => .error e
  | _ => .error .truncated

/-! ## Encode (R115) -/

/-- Format N (R105). -/
def encodeN (m : Mnemonic) : Word := m.opcode ++ 0#26

/-- Format R (R106). -/
def encodeR (m : Mnemonic) (ra : Reg) : Word := m.opcode ++ ra.num ++ 0#22

/-- The low 22 bits of formats RS and S: `Reg(r)` as `sk` 00, `pay` = r. -/
def encodeSrcReg (rb : Reg) : BitVec 22 := 0#2 ++ 0#16 ++ rb.num

/-- `ImmInt(v)` as `sk` 01, `pay` = v[19:0]. -/
def encodeSrcInt (v : Word) : BitVec 22 := 1#2 ++ v.extractLsb' 0 20

/-- `ImmFlt(v)` as `sk` 10, `pay` = v[31:12]. -/
def encodeSrcFlt (v : Word) : BitVec 22 := 2#2 ++ v.extractLsb' 12 20

/-- Format RS (R107). -/
def encodeRS (m : Mnemonic) (ra : Reg) (src : BitVec 22) : Word := m.opcode ++ ra.num ++ src

/-- Format S: bits 25:22 zero (R108). -/
def encodeS (m : Mnemonic) (src : BitVec 22) : Word := m.opcode ++ 0#4 ++ src

/-- Format A: bits 25:23 zero (R109). -/
def encodeA (m : Mnemonic) (a : Word) : Word := m.opcode ++ 0#3 ++ a.extractLsb' 0 23

/-- Format RA: the register in bits 25:23 (R109). -/
def encodeRA (m : Mnemonic) (rg : Reg) (a : Word) : Word :=
  m.opcode ++ rg.num.extractLsb' 0 3 ++ a.extractLsb' 0 23

/-- `encode(i)` (R115): the word of a well-formed instruction. -/
def encode : Instr → Word
  | .addwReg ra rb => encodeRS .addw ra (encodeSrcReg rb)
  | .addwImmInt ra v => encodeRS .addw ra (encodeSrcInt v)
  | .addwImmFlt ra v => encodeRS .addw ra (encodeSrcFlt v)
  | .subwReg ra rb => encodeRS .subw ra (encodeSrcReg rb)
  | .subwImmInt ra v => encodeRS .subw ra (encodeSrcInt v)
  | .subwImmFlt ra v => encodeRS .subw ra (encodeSrcFlt v)
  | .mulReg ra rb => encodeRS .mul ra (encodeSrcReg rb)
  | .mulImmInt ra v => encodeRS .mul ra (encodeSrcInt v)
  | .mulImmFlt ra v => encodeRS .mul ra (encodeSrcFlt v)
  | .incReg ra => encodeR .inc ra
  | .decReg ra => encodeR .dec ra
  | .negReg ra => encodeR .neg ra
  | .andReg ra rb => encodeRS .and ra (encodeSrcReg rb)
  | .andImmInt ra v => encodeRS .and ra (encodeSrcInt v)
  | .andImmFlt ra v => encodeRS .and ra (encodeSrcFlt v)
  | .orReg ra rb => encodeRS .or ra (encodeSrcReg rb)
  | .orImmInt ra v => encodeRS .or ra (encodeSrcInt v)
  | .orImmFlt ra v => encodeRS .or ra (encodeSrcFlt v)
  | .xorReg ra rb => encodeRS .xor ra (encodeSrcReg rb)
  | .xorImmInt ra v => encodeRS .xor ra (encodeSrcInt v)
  | .xorImmFlt ra v => encodeRS .xor ra (encodeSrcFlt v)
  | .notReg ra => encodeR .not ra
  | .shlReg ra rb => encodeRS .shl ra (encodeSrcReg rb)
  | .shlImmInt ra v => encodeRS .shl ra (encodeSrcInt v)
  | .shlImmFlt ra v => encodeRS .shl ra (encodeSrcFlt v)
  | .shrReg ra rb => encodeRS .shr ra (encodeSrcReg rb)
  | .shrImmInt ra v => encodeRS .shr ra (encodeSrcInt v)
  | .shrImmFlt ra v => encodeRS .shr ra (encodeSrcFlt v)
  | .moviImmInt ra v => encodeRS .movi ra (encodeSrcInt v)
  | .moviImmFlt ra v => encodeRS .movi ra (encodeSrcFlt v)
  | .movwReg ra rb => encodeRS .movw ra (encodeSrcReg rb)
  | .lodiImmInt ra v => encodeRS .lodi ra (encodeSrcInt v)
  | .lodiImmFlt ra v => encodeRS .lodi ra (encodeSrcFlt v)
  | .lodwRegAddr rg a => encodeRA .lodw rg a
  | .striImmInt ra v => encodeRS .stri ra (encodeSrcInt v)
  | .striImmFlt ra v => encodeRS .stri ra (encodeSrcFlt v)
  | .strwRegAddr a rg => encodeRA .strw rg a
  | .pushReg rb => encodeS .push (encodeSrcReg rb)
  | .pushImmInt v => encodeS .push (encodeSrcInt v)
  | .pushImmFlt v => encodeS .push (encodeSrcFlt v)
  | .popReg ra => encodeR .pop ra
  | .xcghReg ra rb => encodeRS .xcgh ra (encodeSrcReg rb)
  | .cmpwReg ra rb => encodeRS .cmpw ra (encodeSrcReg rb)
  | .cmpwImmInt ra v => encodeRS .cmpw ra (encodeSrcInt v)
  | .cmpwImmFlt ra v => encodeRS .cmpw ra (encodeSrcFlt v)
  | .jmpAddr a => encodeA .jmp a
  | .callAddr a => encodeA .call a
  | .retNone => encodeN .ret
  | .jeAddr a => encodeA .je a
  | .jneAddr a => encodeA .jne a
  | .jgtAddr a => encodeA .jgt a
  | .jgeAddr a => encodeA .jge a
  | .jltAddr a => encodeA .jlt a
  | .jleAddr a => encodeA .jle a
  | .jsAddr a => encodeA .js a
  | .jcoAddr a => encodeA .jco a
  | .haltNone => encodeN .halt
  | .inReg ra => encodeR .inn ra
  | .outReg rb => encodeS .out (encodeSrcReg rb)
  | .outImmInt v => encodeS .out (encodeSrcInt v)
  | .outImmFlt v => encodeS .out (encodeSrcFlt v)
  | .insiAddr a => encodeA .insi a
  | .inswReg ra => encodeR .insw ra
  | .outiAddr a => encodeA .outi a
  | .outwReg ra => encodeR .outw ra

/-- The four bytes of a word, the lowest address first (R61). -/
def bytesOfWord4 (w : Word) : List Byte :=
  [w.extractLsb' 0 8, w.extractLsb' 8 8, w.extractLsb' 16 8, w.extractLsb' 24 8]

/-! ## The host's question -/

/-- The instruction the decoder reads from a table row's word `w` of `nbits` bits; every bit above `nbits` is 0. -/
def tableWord (nbits w : Nat) : Word := BitVec.ofNat 32 (w % 2 ^ nbits)

/-- See `tableWord`: the bytes are laid out as Memory holds them and given to `decode`. -/
def decodeTableWord (nbits w : Nat) : Option Instr :=
  match decode (bytesOfWord4 (tableWord nbits w)) with
  | .ok (i, _) => some i
  | .error _ => none

end Sys2Proof
end

