-- ==== Sys2Proof/Machine/State.lean ====
section
/-! DEFINITION. All the state of the machine (10_state.md), as plain data, and its value after reset. -/

namespace Sys2Proof.Machine

/-- The sixteen operand registers of the Register File (R20); PC and FLAGS stand in `State`. -/
structure RegFile where
  ax : Word
  bx : Word
  cx : Word
  dx : Word
  ex : Word
  fx : Word
  gx : Word
  hx : Word
  sp : Word
  bp : Word
  si : Word
  di : Word
  cs : Word
  ds : Word
  ss : Word
  es : Word
deriving DecidableEq, Repr

/-- `reset()` "zeroes all slots" (R25, R45). -/
def RegFile.zero : RegFile :=
  { ax := 0, bx := 0, cx := 0, dx := 0, ex := 0, fx := 0, gx := 0, hx := 0
    sp := 0, bp := 0, si := 0, di := 0, cs := 0, ds := 0, ss := 0, es := 0 }

/-- The Segment Layout held by the Memory (R36, R70). `data_start` always equals `stack_start` and `stack_end` is
derived, so both are computed from these three. -/
structure SegmentLayout where
  textStart : Nat
  stackStart : Nat
  stackSize : Nat
deriving DecidableEq, Repr

/-- The run state (R33). Only `ready`, `halted` and `faulted` are seen between cycles (D34). -/
inductive RunState where
  | ready | fetching | decoding | executing | halted | faulted
deriving DecidableEq, Repr

/-- The fault code (R34). -/
inductive FaultCode where
  | none | invalidInstruction | addressOutOfBounds | stackUnderflow | stackOverflow
deriving DecidableEq, Repr

/-- The I/O channel as the pair R265 allows: the byte sequences still to be delivered, one for each `read()`, and the
byte sequences written so far, oldest first. It is the model's representation of the oracle (log 4). -/
structure Channel where
  input : List (List Byte)
  output : List (List Byte)
deriving DecidableEq, Repr

/-- The state of the machine. A step reads and writes this and nothing else; `params` is read only. -/
structure State where
  /-- AX to ES (R20). -/
  regs : RegFile
  /-- The program counter (R27). -/
  pc : Word
  /-- The FLAGS register: Z, S, CO in bits 0, 1, 2 (R29). -/
  flags : Word
  /-- `TOTAL_SIZE` and `CALL_STACK_CAPACITY` (R10). -/
  params : Config.Params
  /-- The Segment Layout (R36). -/
  layout : SegmentLayout
  /-- Memory: the bytes that are not 0, addresses rising (R37, R60); see `Memory.wf`. -/
  mem : List Host.Cell
  /-- The entry of the Instruction Queue (R38). -/
  queue : Option Word
  /-- The Call Stack, the last address pushed at the head (R41). -/
  callStack : List Word
  /-- The run state (R33). -/
  runState : RunState
  /-- The last fault code (R34). -/
  faultCode : FaultCode
  /-- The I/O channel (R265). -/
  channel : Channel
deriving DecidableEq, Repr

/-- Where the MODEL stops with a fault. The machine's own four faults are not here: the spec describes the state they
leave, so they are next states with run state `faulted` (R345). -/
inductive Fault where
  /-- Raised by `step` alone, for a state whose run state is Fetching, Decoding or Executing: a cycle starts only from
  Ready (R140), and no such state is seen between cycles (R33, D34). Safe (log 7). -/
  | notAtBoundary
deriving DecidableEq, Repr

/-- Where the MODEL refuses an instruction. -/
inductive Refusal where
  /-- Raised by an arm of `exec` whose instruction has no meaning yet. Safe. No arm raises it now. -/
  | notModelled (mnemonic : String)
deriving DecidableEq, Repr

/-- The default layout of a Memory of `totalSize` bytes (R71). -/
def SegmentLayout.default (totalSize : Nat) : SegmentLayout :=
  { textStart := 0, stackStart := totalSize - Config.defaultStackSize, stackSize := Config.defaultStackSize }

/-- The column "After construction" of R45, for a legal `TOTAL_SIZE`. -/
def State.constructed (params : Config.Params) : State :=
  { regs := RegFile.zero
    pc := 0
    flags := 0
    params := params
    layout := SegmentLayout.default params.totalSize
    mem := []
    queue := none
    callStack := []
    runState := .ready
    faultCode := .none
    channel := { input := [], output := [] } }

/-- The machine right after reset: freshly constructed with the default parameters of R10, a 64 KiB Memory and an
unbounded Call Stack (logs 1 and 2), no program loaded (R371) and nothing on the channel (log 4). -/
def State.reset : State :=
  State.constructed { totalSize := 65536, callStackCapacity := none }

end Sys2Proof.Machine
end

