-- ==== Sys2Proof/Machine/Ops.lean ====
section
/-! DEFINITION. The named operations over registers, Memory, the queue, the Call Stack, the channel and the PC, and taking
a fault. Every meaning is written over these. -/

namespace Sys2Proof.Machine

/-- What a step or an instruction answers. -/
abbrev Result := Host.Outcome State Fault Refusal

/-! ## Registers (R25) -/

/-- `read(name)`. -/
def RegFile.read (f : RegFile) : Reg → Word
  | .ax => f.ax | .bx => f.bx | .cx => f.cx | .dx => f.dx
  | .ex => f.ex | .fx => f.fx | .gx => f.gx | .hx => f.hx
  | .sp => f.sp | .bp => f.bp | .si => f.si | .di => f.di
  | .cs => f.cs | .ds => f.ds | .ss => f.ss | .es => f.es

/-- `write(name, bits32)`: "Writes always succeed." -/
def RegFile.write (f : RegFile) (r : Reg) (v : Word) : RegFile :=
  match r with
  | .ax => { f with ax := v } | .bx => { f with bx := v }
  | .cx => { f with cx := v } | .dx => { f with dx := v }
  | .ex => { f with ex := v } | .fx => { f with fx := v }
  | .gx => { f with gx := v } | .hx => { f with hx := v }
  | .sp => { f with sp := v } | .bp => { f with bp := v }
  | .si => { f with si := v } | .di => { f with di := v }
  | .cs => { f with cs := v } | .ds => { f with ds := v }
  | .ss => { f with ss := v } | .es => { f with es := v }

/-- `x[r]`. -/
def State.reg (s : State) (r : Reg) : Word := s.regs.read r

/-- `x[r] <- v`. -/
def State.setReg (s : State) (r : Reg) (v : Word) : State := { s with regs := s.regs.write r v }

/-- `writeFlags()`: all of FLAGS (R32). -/
def State.setFlags (s : State) (v : Word) : State := { s with flags := v }

/-! ## Memory (R60 to R66) -/

/-- What an unlisted address reads as: Memory is zero-filled at construction and at load (R45, D26). -/
def Memory.unlisted : Byte := 0

/-- The one canonical form of Memory: addresses strictly rising, no entry that an unlisted address reads as. -/
abbrev Memory.wf (m : List Host.Cell) : Prop :=
  m.Pairwise (fun c d => c.1 < d.1) ∧ ∀ c ∈ m, c.2 ≠ Memory.unlisted

/-- `Mem[a]`. -/
def Memory.read : List Host.Cell → Nat → Byte
  | [], _ => Memory.unlisted
  | (k, b) :: m, a => if a < k then Memory.unlisted else if a = k then b else Memory.read m a

/-- `Mem[a] <- b`, keeping the canonical form. -/
def Memory.write : List Host.Cell → Nat → Byte → List Host.Cell
  | [], a, b => if b = Memory.unlisted then [] else [(a, b)]
  | (k, c) :: m, a, b =>
    if a < k then (if b = Memory.unlisted then (k, c) :: m else (a, b) :: (k, c) :: m)
    else if a = k then (if b = Memory.unlisted then m else (a, b) :: m)
    else (k, c) :: Memory.write m a b

/-- The `n` bytes at `a`, ascending. -/
def Memory.readBytes (m : List Host.Cell) (a : Nat) : Nat → List Byte
  | 0 => []
  | n + 1 => Memory.read m a :: Memory.readBytes m (a + 1) n

/-- Consecutive bytes stored at `a`, ascending. -/
def Memory.writeBytes (m : List Host.Cell) (a : Nat) : List Byte → List Host.Cell
  | [] => m
  | b :: bs => Memory.writeBytes (Memory.write m a b) (a + 1) bs

/-- The little-endian value of a byte sequence, zero-extended to 32 bits (R61, R63). -/
def wordOfBytes : List Byte → Word
  | [] => 0
  | b :: bs => b.setWidth 32 ||| (wordOfBytes bs <<< 8)

/-- The low `8 n` bits of a word as `n` bytes, the least significant first (R61, R64). -/
def bytesOfWord (v : Word) : Nat → List Byte
  | 0 => []
  | n + 1 => v.setWidth 8 :: bytesOfWord (v >>> 8) n

/-- `Mem[a]` of the machine. -/
def State.byteAt (s : State) (a : Nat) : Byte := Memory.read s.mem a

/-- The bound check of R65: on integers, no wrap. -/
abbrev State.inRange (s : State) (a n : Nat) : Prop := a + n ≤ s.params.totalSize

/-- `MemRead(addr, n)` (R63): none where it raises `AddressOutOfBounds`. -/
def State.memRead (s : State) (addr n : Nat) : Option Word :=
  if s.inRange addr n then some (wordOfBytes (Memory.readBytes s.mem addr n)) else none

/-- All of Memory at once. -/
def State.setMem (s : State) (m : List Host.Cell) : State := { s with mem := m }

/-- A byte run stored at `addr`, bound-checked before any byte is touched (R65, R66, R76). -/
def State.memWriteBytes (s : State) (addr : Nat) (bs : List Byte) : Option State :=
  if s.inRange addr bs.length then some (s.setMem (Memory.writeBytes s.mem addr bs)) else none

/-- `MemWrite(addr, n, v)` (R64): none where it raises `AddressOutOfBounds`, and then no byte is written (R66). -/
def State.memWrite (s : State) (addr n : Nat) (v : Word) : Option State :=
  s.memWriteBytes addr (bytesOfWord v n)

/-- The distance from `a` to the least address at or after it that holds 0x00, looking at `fuel` bytes (R271). -/
def Memory.stringLength (m : List Host.Cell) (a : Nat) : Nat → Option Nat
  | 0 => none
  | fuel + 1 =>
    if Memory.read m a = 0 then some 0
    else (Memory.stringLength m (a + 1) fuel).map (fun n => n + 1)

/-! ## The Segment Layout (R70 to R73) -/

/-- `stack_end = stack_start + stack_size` (R36). -/
def SegmentLayout.stackEnd (l : SegmentLayout) : Nat := l.stackStart + l.stackSize

/-- `data_start = stack_start`, the exclusive upper end of the data segment (R36, R72). -/
def SegmentLayout.dataStart (l : SegmentLayout) : Nat := l.stackStart

/-- Whether the four bytes at `a` lie wholly in `[stack_start, stack_end)` (R207, R208). -/
abbrev SegmentLayout.inStack (l : SegmentLayout) (a : Int) : Prop :=
  (l.stackStart : Int) ≤ a ∧ a + 4 ≤ (l.stackEnd : Int)

/-- `LayoutValid` (R73), on integers. -/
abbrev layoutValid (totalSize textStart textLen stackStart stackSize dataLen : Int) : Prop :=
  let t0 := textStart
  let t1 := textStart + max textLen 1
  let s0 := stackStart
  let s1 := stackStart + stackSize
  let d1 := stackStart
  let d0 := stackStart - dataLen
  (0 ≤ t0 ∧ t1 ≤ totalSize ∧ 0 ≤ d0 ∧ 0 ≤ s0 ∧ s1 ≤ totalSize) ∧
    (t1 ≤ s0 ∨ s1 ≤ t0) ∧ (t1 ≤ d0 ∨ d1 ≤ t0)

/-! ## PC and queue (R145, R147) -/

/-- The default advance: `PC + 4` modulo 2^32 (R28). -/
def State.advance (s : State) : State := { s with pc := s.pc + 4 }

/-- A redirection of PC: the default advance is suppressed and the queue flushed (R145, R147). -/
def State.redirect (s : State) (target : Word) : State := { s with pc := target, queue := none }

/-! ## The Call Stack (R41) -/

/-- `CallPush(a)`. -/
def State.callPush (s : State) (a : Word) : State := { s with callStack := a :: s.callStack }

/-- `CallPop()` leaves this state; the address is the head of the Call Stack. -/
def State.callDrop (s : State) : State := { s with callStack := s.callStack.tail }

/-- Whether the Call Stack holds `CALL_STACK_CAPACITY` addresses, so that one more would exceed it (R41, R233; log 9). -/
def State.callStackFull (s : State) : Bool :=
  match s.params.callStackCapacity with
  | none => false
  | some c => decide (c ≤ s.callStack.length)

/-! ## The channel (R265) -/

/-- What `ChanRead()` returns: the head of the input list, the empty sequence when it is exhausted. -/
def State.chanHead (s : State) : List Byte := s.channel.input.headD []

/-- The state after `ChanRead()`: the head of the input list is gone. -/
def State.chanDrop (s : State) : State := { s with channel := { s.channel with input := s.channel.input.tail } }

/-- `ChanWrite(bs)`. -/
def State.chanWrite (s : State) (bs : List Byte) : State :=
  { s with channel := { s.channel with output := s.channel.output ++ [bs] } }

/-! ## Ending a run (R150, R345) -/

/-- The run state Halted (R260). -/
def State.halt (s : State) : State := { s with runState := .halted }

/-- The state a fault leaves (R345): run state and fault code, and nothing else. PC keeps the address of the faulting
instruction. There is no handler and no return: only `hostReset` and `hostLoad` leave Faulted (R342, R347). -/
def State.enterFault (s : State) (c : FaultCode) : State := { s with runState := .faulted, faultCode := c }

/-- `raise <Fault>`, the one operation that takes a fault. -/
def raiseFault (c : FaultCode) (s : State) : Result := .next (s.enterFault c)

/-- The numbers of the fault codes (R34). -/
def FaultCode.number : FaultCode → Nat
  | .none => 0
  | .invalidInstruction => 1
  | .addressOutOfBounds => 2
  | .stackUnderflow => 3
  | .stackOverflow => 4

/-! ## Fetch (R141) -/

/-- `MemRead(PC, 4)`: none where the fetch raises `AddressOutOfBounds` (R142). -/
def State.fetchWord (s : State) : Option Word := s.memRead s.pc.toNat 4

/-- The queue entry is set to the fetched word (R141). -/
def State.setQueue (s : State) (w : Word) : State := { s with queue := some w }

/-- The bytes of a word stored at PC, where the next fetch reads (R61). -/
def State.storeAtPc (s : State) (w : Word) : State :=
  s.setMem (Memory.writeBytes s.mem s.pc.toNat (bytesOfWord4 w))

end Sys2Proof.Machine
end

