-- ==== Sys2Proof/Machine/Flags.lean ====
section
/-! DEFINITION. The FLAGS register (R29), every flag computation (R161, R181, R231) and the eight conditions (R235). -/

namespace Sys2Proof.Machine

/-- The FLAGS word with these three flags: Z in bit 0, S in bit 1, CO in bit 2, bits 31:3 zero (R29). -/
def flagsWord (z s co : Bool) : Word :=
  BitVec.ofNat 32 ((if z then 1 else 0) + (if s then 2 else 0) + (if co then 4 else 0))

/-- Z, bit 0. -/
def flagZ (fl : Word) : Bool := fl.getLsbD 0

/-- S, bit 1. -/
def flagS (fl : Word) : Bool := fl.getLsbD 1

/-- CO, bit 2. -/
def flagCO (fl : Word) : Bool := fl.getLsbD 2

/-- `FloatFlags(r)` (R161): zero of either sign; less than zero; a NaN. -/
def floatFlags (r : Word) : Word :=
  flagsWord (r == 0x00000000#32 || r == 0x80000000#32)
    (r.getLsbD 31 && !isNaN r && r != 0x80000000#32) (isNaN r)

/-- `BitFlags(r, c)` (R181). -/
def bitFlags (r : Word) (c : Bool) : Word := flagsWord (r == 0) (r.getLsbD 31) c

/-- The flags of CMPW (R231): equal; less; unordered. The comparison decides, not the difference (C3). -/
def compareFlags (a b : Word) : Word :=
  flagsWord (floatEq (floatVal a) (floatVal b)) (floatLt (floatVal a) (floatVal b)) (isNaN a || isNaN b)

/-! ## Conditions (R235) -/

/-- JE: Z = 1. -/
def condE (fl : Word) : Bool := flagZ fl

/-- JNE: Z = 0. -/
def condNE (fl : Word) : Bool := !flagZ fl

/-- JGT: Z = 0 and S = 0 and CO = 0 (C2). -/
def condGT (fl : Word) : Bool := !flagZ fl && !flagS fl && !flagCO fl

/-- JGE: S = 0 and CO = 0. -/
def condGE (fl : Word) : Bool := !flagS fl && !flagCO fl

/-- JLT: S = 1. -/
def condLT (fl : Word) : Bool := flagS fl

/-- JLE: S = 1 or Z = 1. -/
def condLE (fl : Word) : Bool := flagS fl || flagZ fl

/-- JS: S = 1. -/
def condS (fl : Word) : Bool := flagS fl

/-- JCO: CO = 1. -/
def condCO (fl : Word) : Bool := flagCO fl

end Sys2Proof.Machine
end

