-- ==== Sys2Proof/Machine/Operands.lean ====
section
/-! DEFINITION. Every operand form (R110, R113, R114, R120): the abstract operands, the value an instruction uses, and the
abstract instruction of each row. -/

namespace Sys2Proof.Machine

/-- An operand of an abstract instruction (R114). -/
inductive Operand where
  | reg (r : Reg)
  | immInt (v : Word)
  | immFlt (v : Word)
  | addr (a : Word)
deriving DecidableEq, Repr

/-- The value of an operand: a register's raw bits in the state before the instruction, an immediate's 32-bit value whatever its
kind, an address (R110, R120). -/
def Operand.value (s : State) : Operand → Word
  | .reg r => s.reg r
  | .immInt v => v
  | .immFlt v => v
  | .addr a => a

/-! ## Operand lists (R104, R111, R114)

Operands stand in assembly order, the destination first. -/

/-- Format RS with any source. -/
def regSourceForms (onReg : Reg → Reg → Instr) (onInt onFlt : Reg → Word → Instr) : List Operand → Option Instr
  | [.reg ra, .reg rb] => some (onReg ra rb)
  | [.reg ra, .immInt v] => some (onInt ra v)
  | [.reg ra, .immFlt v] => some (onFlt ra v)
  | _ => none

/-- Format RS with an immediate source. -/
def regImmediateForms (onInt onFlt : Reg → Word → Instr) : List Operand → Option Instr
  | [.reg ra, .immInt v] => some (onInt ra v)
  | [.reg ra, .immFlt v] => some (onFlt ra v)
  | _ => none

/-- Format RS with a register source. -/
def regRegForm (mk : Reg → Reg → Instr) : List Operand → Option Instr
  | [.reg ra, .reg rb] => some (mk ra rb)
  | _ => none

/-- Format S. -/
def sourceForms (onReg : Reg → Instr) (onInt onFlt : Word → Instr) : List Operand → Option Instr
  | [.reg rb] => some (onReg rb)
  | [.immInt v] => some (onInt v)
  | [.immFlt v] => some (onFlt v)
  | _ => none

/-- Format R. -/
def regForm (mk : Reg → Instr) : List Operand → Option Instr
  | [.reg ra] => some (mk ra)
  | _ => none

/-- Format A. -/
def addrForm (mk : Word → Instr) : List Operand → Option Instr
  | [.addr a] => some (mk a)
  | _ => none

/-- Format RA with the register first. -/
def regAddrForm (mk : Reg → Word → Instr) : List Operand → Option Instr
  | [.reg rg, .addr a] => some (mk rg a)
  | _ => none

/-- Format RA with the address first. -/
def addrRegForm (mk : Word → Reg → Instr) : List Operand → Option Instr
  | [.addr a, .reg rg] => some (mk a rg)
  | _ => none

/-- Format N. -/
def noOperandForm (i : Instr) : List Operand → Option Instr
  | [] => some i
  | _ => none

/-- The row of a mnemonic and an operand list, none where the mnemonic has no such form (R104, R111). -/
def instrOfOperands : Mnemonic → List Operand → Option Instr
  | .addw => regSourceForms .addwReg .addwImmInt .addwImmFlt
  | .subw => regSourceForms .subwReg .subwImmInt .subwImmFlt
  | .mul => regSourceForms .mulReg .mulImmInt .mulImmFlt
  | .inc => regForm .incReg
  | .dec => regForm .decReg
  | .neg => regForm .negReg
  | .and => regSourceForms .andReg .andImmInt .andImmFlt
  | .or => regSourceForms .orReg .orImmInt .orImmFlt
  | .xor => regSourceForms .xorReg .xorImmInt .xorImmFlt
  | .not => regForm .notReg
  | .shl => regSourceForms .shlReg .shlImmInt .shlImmFlt
  | .shr => regSourceForms .shrReg .shrImmInt .shrImmFlt
  | .movi => regImmediateForms .moviImmInt .moviImmFlt
  | .movw => regRegForm .movwReg
  | .lodi => regImmediateForms .lodiImmInt .lodiImmFlt
  | .lodw => regAddrForm .lodwRegAddr
  | .stri => regImmediateForms .striImmInt .striImmFlt
  | .strw => addrRegForm .strwRegAddr
  | .push => sourceForms .pushReg .pushImmInt .pushImmFlt
  | .pop => regForm .popReg
  | .xcgh => regRegForm .xcghReg
  | .cmpw => regSourceForms .cmpwReg .cmpwImmInt .cmpwImmFlt
  | .jmp => addrForm .jmpAddr
  | .call => addrForm .callAddr
  | .ret => noOperandForm .retNone
  | .je => addrForm .jeAddr
  | .jne => addrForm .jneAddr
  | .jgt => addrForm .jgtAddr
  | .jge => addrForm .jgeAddr
  | .jlt => addrForm .jltAddr
  | .jle => addrForm .jleAddr
  | .js => addrForm .jsAddr
  | .jco => addrForm .jcoAddr
  | .halt => noOperandForm .haltNone
  | .inn => regForm .inReg
  | .out => sourceForms .outReg .outImmInt .outImmFlt
  | .insi => addrForm .insiAddr
  | .insw => regForm .inswReg
  | .outi => addrForm .outiAddr
  | .outw => regForm .outwReg

end Sys2Proof.Machine
end

