-- ==== Sys2Proof/Machine/Arithmetic.lean ====
section
/-! DEFINITION. Arithmetic instructions (41_arithmetic.md): operands viewed as IEEE-754 binary32 (R160). -/

namespace Sys2Proof.Machine

/-- `x[ra] <- r; FloatFlags(r)`, then the default advance (R161). -/
def finishFloat (ra : Reg) (r : Word) (s : State) : Result :=
  .next (((s.setReg ra r).setFlags (floatFlags r)).advance)

/-- ADDW (R163): `x[ra] <- x[ra] + src`. -/
def addw (ra : Reg) (src : Operand) (s : State) : Result :=
  finishFloat ra (floatAdd .addw (s.reg ra) (src.value s)) s

/-- ADDW `ra, rb` (R163). -/
def execAddwReg (ra : Reg) (rb : Reg) (s : State) : Result := addw ra (.reg rb) s

/-- ADDW `ra, imm (integer: src = sext_32(pay,20))` (R163). -/
def execAddwImmInt (ra : Reg) (v : Word) (s : State) : Result := addw ra (.immInt v) s

/-- ADDW `ra, imm (float-high: src = pay << 12)` (R163). -/
def execAddwImmFlt (ra : Reg) (v : Word) (s : State) : Result := addw ra (.immFlt v) s

/-- SUBW (R164): `x[ra] <- x[ra] - src`. -/
def subw (ra : Reg) (src : Operand) (s : State) : Result :=
  finishFloat ra (floatSub .subw (s.reg ra) (src.value s)) s

/-- SUBW `ra, rb` (R164). -/
def execSubwReg (ra : Reg) (rb : Reg) (s : State) : Result := subw ra (.reg rb) s

/-- SUBW `ra, imm (integer: src = sext_32(pay,20))` (R164). -/
def execSubwImmInt (ra : Reg) (v : Word) (s : State) : Result := subw ra (.immInt v) s

/-- SUBW `ra, imm (float-high: src = pay << 12)` (R164). -/
def execSubwImmFlt (ra : Reg) (v : Word) (s : State) : Result := subw ra (.immFlt v) s

/-- MUL (R165): `x[ra] <- x[ra] * src`. -/
def mul (ra : Reg) (src : Operand) (s : State) : Result :=
  finishFloat ra (floatMul .mul (s.reg ra) (src.value s)) s

/-- MUL `ra, rb` (R165). -/
def execMulReg (ra : Reg) (rb : Reg) (s : State) : Result := mul ra (.reg rb) s

/-- MUL `ra, imm (integer: src = sext_32(pay,20))` (R165). -/
def execMulImmInt (ra : Reg) (v : Word) (s : State) : Result := mul ra (.immInt v) s

/-- MUL `ra, imm (float-high: src = pay << 12)` (R165). -/
def execMulImmFlt (ra : Reg) (v : Word) (s : State) : Result := mul ra (.immFlt v) s

/-- INC `ra` (R166): adds the float 1.0. -/
def execIncReg (ra : Reg) (s : State) : Result :=
  finishFloat ra (floatAdd .inc (s.reg ra) floatOne) s

/-- DEC `ra` (R167): subtracts the float 1.0. -/
def execDecReg (ra : Reg) (s : State) : Result :=
  finishFloat ra (floatSub .dec (s.reg ra) floatOne) s

/-- NEG `ra` (R168): flips the sign bit, of a NaN too. -/
def execNegReg (ra : Reg) (s : State) : Result :=
  finishFloat ra (s.reg ra ^^^ 0x80000000) s

end Sys2Proof.Machine
end

