-- ==== Sys2Proof/Machine/Bitwise.lean ====
section
/-! DEFINITION. Bitwise instructions (42_bitwise.md): operands viewed as unsigned 32-bit integers (R180). -/

namespace Sys2Proof.Machine

/-- `x[ra] <- r; BitFlags(r, c)`, then the default advance (R181). -/
def finishBits (ra : Reg) (r : Word) (c : Bool) (s : State) : Result :=
  .next (((s.setReg ra r).setFlags (bitFlags r c)).advance)

/-- AND (R182). -/
def andBits (ra : Reg) (src : Operand) (s : State) : Result :=
  finishBits ra (s.reg ra &&& src.value s) false s

/-- AND `ra, rb` (R182). -/
def execAndReg (ra : Reg) (rb : Reg) (s : State) : Result := andBits ra (.reg rb) s

/-- AND `ra, imm (integer: src = sext_32(pay,20))` (R182). -/
def execAndImmInt (ra : Reg) (v : Word) (s : State) : Result := andBits ra (.immInt v) s

/-- AND `ra, imm (float-high: src = pay << 12)` (R182). -/
def execAndImmFlt (ra : Reg) (v : Word) (s : State) : Result := andBits ra (.immFlt v) s

/-- OR (R183). -/
def orBits (ra : Reg) (src : Operand) (s : State) : Result :=
  finishBits ra (s.reg ra ||| src.value s) false s

/-- OR `ra, rb` (R183). -/
def execOrReg (ra : Reg) (rb : Reg) (s : State) : Result := orBits ra (.reg rb) s

/-- OR `ra, imm (integer: src = sext_32(pay,20))` (R183). -/
def execOrImmInt (ra : Reg) (v : Word) (s : State) : Result := orBits ra (.immInt v) s

/-- OR `ra, imm (float-high: src = pay << 12)` (R183). -/
def execOrImmFlt (ra : Reg) (v : Word) (s : State) : Result := orBits ra (.immFlt v) s

/-- XOR (R184). -/
def xorBits (ra : Reg) (src : Operand) (s : State) : Result :=
  finishBits ra (s.reg ra ^^^ src.value s) false s

/-- XOR `ra, rb` (R184). -/
def execXorReg (ra : Reg) (rb : Reg) (s : State) : Result := xorBits ra (.reg rb) s

/-- XOR `ra, imm (integer: src = sext_32(pay,20))` (R184). -/
def execXorImmInt (ra : Reg) (v : Word) (s : State) : Result := xorBits ra (.immInt v) s

/-- XOR `ra, imm (float-high: src = pay << 12)` (R184). -/
def execXorImmFlt (ra : Reg) (v : Word) (s : State) : Result := xorBits ra (.immFlt v) s

/-- NOT `ra` (R185). -/
def execNotReg (ra : Reg) (s : State) : Result :=
  finishBits ra (s.reg ra ^^^ 0xFFFFFFFF) false s

/-- The shift amount "masked to [0,31]" (R180): the low five bits of the source. -/
def shiftAmount (src : Word) : Nat := (src.extractLsb' 0 5).toNat

/-- The last bit a left shift by `n` moves out of bit 31, and 0 where `n = 0` (R186). -/
def carryLeft (a : Word) (n : Nat) : Bool := if n = 0 then false else a.getLsbD (32 - n)

/-- The last bit a right shift by `n` moves out of bit 0, and 0 where `n = 0` (R187). -/
def carryRight (a : Word) (n : Nat) : Bool := if n = 0 then false else a.getLsbD (n - 1)

/-- SHL (R186): zeros enter at bit 0. -/
def shl (ra : Reg) (src : Operand) (s : State) : Result :=
  let n := shiftAmount (src.value s)
  finishBits ra (s.reg ra <<< n) (carryLeft (s.reg ra) n) s

/-- SHL `ra, rb` (R186). -/
def execShlReg (ra : Reg) (rb : Reg) (s : State) : Result := shl ra (.reg rb) s

/-- SHL `ra, imm (integer: src = sext_32(pay,20))` (R186). -/
def execShlImmInt (ra : Reg) (v : Word) (s : State) : Result := shl ra (.immInt v) s

/-- SHL `ra, imm (float-high: src = pay << 12)` (R186). -/
def execShlImmFlt (ra : Reg) (v : Word) (s : State) : Result := shl ra (.immFlt v) s

/-- SHR (R187): a logical shift, zeros enter at bit 31. -/
def shr (ra : Reg) (src : Operand) (s : State) : Result :=
  let n := shiftAmount (src.value s)
  finishBits ra (s.reg ra >>> n) (carryRight (s.reg ra) n) s

/-- SHR `ra, rb` (R187). -/
def execShrReg (ra : Reg) (rb : Reg) (s : State) : Result := shr ra (.reg rb) s

/-- SHR `ra, imm (integer: src = sext_32(pay,20))` (R187). -/
def execShrImmInt (ra : Reg) (v : Word) (s : State) : Result := shr ra (.immInt v) s

/-- SHR `ra, imm (float-high: src = pay << 12)` (R187). -/
def execShrImmFlt (ra : Reg) (v : Word) (s : State) : Result := shr ra (.immFlt v) s

end Sys2Proof.Machine
end

