-- ==== Sys2Proof/Machine/Control.lean ====
section
/-! DEFINITION. Compare and control-flow instructions (44_control.md). Targets are absolute and not checked when the jump executes (R230). -/

namespace Sys2Proof.Machine

/-- CMPW (R231): flags of the IEEE-754 comparison; no register is written. -/
def cmpw (ra : Reg) (src : Operand) (s : State) : Result :=
  .next ((s.setFlags (compareFlags (s.reg ra) (src.value s))).advance)

/-- CMPW `ra, rb` (R231). -/
def execCmpwReg (ra : Reg) (rb : Reg) (s : State) : Result := cmpw ra (.reg rb) s

/-- CMPW `ra, imm (integer: src = sext_32(pay,20))` (R231). -/
def execCmpwImmInt (ra : Reg) (v : Word) (s : State) : Result := cmpw ra (.immInt v) s

/-- CMPW `ra, imm (float-high: src = pay << 12)` (R231). -/
def execCmpwImmFlt (ra : Reg) (v : Word) (s : State) : Result := cmpw ra (.immFlt v) s

/-- JMP `addr` (R232). -/
def execJmpAddr (a : Word) (s : State) : Result := .next (s.redirect a)

/-- CALL `addr` (R233): the address of the next instruction goes on the Call Stack. -/
def execCallAddr (a : Word) (s : State) : Result :=
  if s.callStackFull then raiseFault .stackOverflow s
  else .next ((s.callPush (s.pc + 4)).redirect a)

/-- RET (R234): the popped address is not checked. -/
def execRetNone (s : State) : Result :=
  match s.callStack with
  | [] => raiseFault .stackUnderflow s
  | a :: _ => .next (s.callDrop.redirect a)

/-- A conditional jump (R235): taken, PC and the queue; not taken, the default advance. -/
def jumpIf (taken : Bool) (a : Word) (s : State) : Result := .next (if taken then s.redirect a else s.advance)

/-- JE `addr` (R236). -/
def execJeAddr (a : Word) (s : State) : Result := jumpIf (condE s.flags) a s

/-- JNE `addr` (R237). -/
def execJneAddr (a : Word) (s : State) : Result := jumpIf (condNE s.flags) a s

/-- JGT `addr` (R238). -/
def execJgtAddr (a : Word) (s : State) : Result := jumpIf (condGT s.flags) a s

/-- JGE `addr` (R239). -/
def execJgeAddr (a : Word) (s : State) : Result := jumpIf (condGE s.flags) a s

/-- JLT `addr` (R240). -/
def execJltAddr (a : Word) (s : State) : Result := jumpIf (condLT s.flags) a s

/-- JLE `addr` (R241). -/
def execJleAddr (a : Word) (s : State) : Result := jumpIf (condLE s.flags) a s

/-- JS `addr` (R242). -/
def execJsAddr (a : Word) (s : State) : Result := jumpIf (condS s.flags) a s

/-- JCO `addr` (R243). -/
def execJcoAddr (a : Word) (s : State) : Result := jumpIf (condCO s.flags) a s

end Sys2Proof.Machine
end

