-- ==== Sys2Proof/Machine/InputOutput.lean ====
section
/-! DEFINITION. I/O instructions (46_io.md): words and null-terminated strings over the channel (R265, R266). -/

namespace Sys2Proof.Machine

/-- The word of a byte sequence (R267): its first four bytes, little-endian, zero-padded. -/
def channelWord (bs : List Byte) : Word := wordOfBytes (bs.take 4)

/-- IN `ra` (R267): one `read()`; bytes beyond the fourth are discarded, end of input gives 0. -/
def execInReg (ra : Reg) (s : State) : Result :=
  .next ((s.chanDrop.setReg ra (channelWord s.chanHead)).advance)

/-- OUT (R268): one `write` of four bytes, little-endian. -/
def out (src : Operand) (s : State) : Result :=
  .next ((s.chanWrite (bytesOfWord (src.value s) 4)).advance)

/-- OUT `rb` (R268). -/
def execOutReg (rb : Reg) (s : State) : Result := out (.reg rb) s

/-- OUT `imm (integer: src = sext_32(pay,20))` (R268). -/
def execOutImmInt (v : Word) (s : State) : Result := out (.immInt v) s

/-- OUT `imm (float-high: src = pay << 12)` (R268). -/
def execOutImmFlt (v : Word) (s : State) : Result := out (.immFlt v) s

/-- The bytes before the first 0x00, or all of them (R269). -/
def stringPart (bs : List Byte) : List Byte := bs.takeWhile (fun b => b != 0)

/-- `StringIn(a)` (R269): one `read()`; the string and its terminator are stored, or nothing is and the bytes are gone (R274). -/
def stringIn (a : Nat) (s : State) : Result :=
  let t := s.chanDrop
  match t.memWriteBytes a (stringPart s.chanHead ++ [0]) with
  | none => raiseFault .addressOutOfBounds t
  | some u => .next u.advance

/-- INSI `[addr]` (R269). -/
def execInsiAddr (a : Word) (s : State) : Result := stringIn a.toNat s

/-- INSW `ra` (R270): `ra` is only read. -/
def execInswReg (ra : Reg) (s : State) : Result := stringIn (s.reg ra).toNat s

/-- `StringOut(a)` (R271): the whole string is found first and written with one `write`, its terminator not sent. -/
def stringOut (a : Nat) (s : State) : Result :=
  match Memory.stringLength s.mem a (s.params.totalSize - a) with
  | none => raiseFault .addressOutOfBounds s
  | some n => .next ((s.chanWrite (Memory.readBytes s.mem a n)).advance)

/-- OUTI `[addr]` (R271). -/
def execOutiAddr (a : Word) (s : State) : Result := stringOut a.toNat s

/-- OUTW `ra` (R272): `ra` is only read. -/
def execOutwReg (ra : Reg) (s : State) : Result := stringOut (s.reg ra).toNat s

end Sys2Proof.Machine
end

