-- ==== Sys2Proof/Machine/Moves.lean ====
section
/-! DEFINITION. Move instructions (43_moves.md): raw 32-bit patterns, no flag read or written (R200). -/

namespace Sys2Proof.Machine

/-- `x[ra] <- v`, then the default advance. -/
def finishMove (ra : Reg) (v : Word) (s : State) : Result := .next ((s.setReg ra v).advance)

/-- `MemWrite(addr, 4, v)`, then the default advance; `AddressOutOfBounds` where it raises (R64). -/
def finishStore (addr : Nat) (v : Word) (s : State) : Result :=
  match s.memWrite addr 4 v with
  | none => raiseFault .addressOutOfBounds s
  | some t => .next t.advance

/-- MOVI (R201): the immediate's raw bits. -/
def movi (ra : Reg) (imm : Operand) (s : State) : Result := finishMove ra (imm.value s) s

/-- MOVI `ra, imm (integer: src = sext_32(pay,20))` (R201). -/
def execMoviImmInt (ra : Reg) (v : Word) (s : State) : Result := movi ra (.immInt v) s

/-- MOVI `ra, imm (float-high: src = pay << 12)` (R201). -/
def execMoviImmFlt (ra : Reg) (v : Word) (s : State) : Result := movi ra (.immFlt v) s

/-- MOVW `ra, rb` (R202). -/
def execMovwReg (ra rb : Reg) (s : State) : Result := finishMove ra (s.reg rb) s

/-- LODI (R203): the semantics of MOVI under its own opcode. -/
def lodi (ra : Reg) (imm : Operand) (s : State) : Result := finishMove ra (imm.value s) s

/-- LODI `ra, imm (integer: src = sext_32(pay,20))` (R203). -/
def execLodiImmInt (ra : Reg) (v : Word) (s : State) : Result := lodi ra (.immInt v) s

/-- LODI `ra, imm (float-high: src = pay << 12)` (R203). -/
def execLodiImmFlt (ra : Reg) (v : Word) (s : State) : Result := lodi ra (.immFlt v) s

/-- LODW `rg, [addr]` (R204). -/
def execLodwRegAddr (rg : Reg) (a : Word) (s : State) : Result :=
  match s.memRead a.toNat 4 with
  | none => raiseFault .addressOutOfBounds s
  | some v => finishMove rg v s

/-- STRI (R205): the immediate to the word whose address `ra` holds; `ra` is only read. -/
def stri (ra : Reg) (imm : Operand) (s : State) : Result := finishStore (s.reg ra).toNat (imm.value s) s

/-- STRI `ra, imm (integer: src = sext_32(pay,20))` (R205). -/
def execStriImmInt (ra : Reg) (v : Word) (s : State) : Result := stri ra (.immInt v) s

/-- STRI `ra, imm (float-high: src = pay << 12)` (R205). -/
def execStriImmFlt (ra : Reg) (v : Word) (s : State) : Result := stri ra (.immFlt v) s

/-- STRW `[addr], rg` (R206). -/
def execStrwRegAddr (a : Word) (rg : Reg) (s : State) : Result := finishStore a.toNat (s.reg rg) s

/-- PUSH (R207): the value is read before SP changes; the checks are on integers. `MemWrite` cannot fail in a state whose
stack segment lies inside Memory; it is kept with its own fault (log 10). -/
def push (src : Operand) (s : State) : Result :=
  let v := src.value s
  let sp := (s.reg .sp).toNat
  if s.layout.inStack ((sp : Int) - 4) then
    match s.memWrite (sp - 4) 4 v with
    | none => raiseFault .addressOutOfBounds s
    | some t => .next ((t.setReg .sp (s.reg .sp - 4)).advance)
  else raiseFault .stackOverflow s

/-- PUSH `rb` (R207). -/
def execPushReg (rb : Reg) (s : State) : Result := push (.reg rb) s

/-- PUSH `imm (integer: src = sext_32(pay,20))` (R207). -/
def execPushImmInt (v : Word) (s : State) : Result := push (.immInt v) s

/-- PUSH `imm (float-high: src = pay << 12)` (R207). -/
def execPushImmFlt (v : Word) (s : State) : Result := push (.immFlt v) s

/-- POP `ra` (R208): SP is advanced first and `ra` written last, so POP SP leaves the popped value in SP. -/
def execPopReg (ra : Reg) (s : State) : Result :=
  let sp := (s.reg .sp).toNat
  if s.layout.inStack (sp : Int) then
    match s.memRead sp 4 with
    | none => raiseFault .addressOutOfBounds s
    | some v => finishMove ra v (s.setReg .sp (s.reg .sp + 4))
  else raiseFault .stackUnderflow s

/-- XCGH `ra, rb` (R209): both reads before both writes. -/
def execXcghReg (ra rb : Reg) (s : State) : Result :=
  let a := s.reg ra
  let b := s.reg rb
  .next (((s.setReg ra b).setReg rb a).advance)

end Sys2Proof.Machine
end

