-- ==== Sys2Proof/Machine/System.lean ====
section
/-! DEFINITION. System instructions (45_system.md): HALT alone. -/

namespace Sys2Proof.Machine

/-- HALT (R260): run state Halted; the default advance applies (R145, D21). -/
def execHaltNone (s : State) : Result := .next (s.halt.advance)

end Sys2Proof.Machine
end

