-- ==== Sys2Proof/Machine/Dispatch.lean ====
section
/-! DEFINITION. The dispatch (R144): one arm per row of spec/opcode_table.json. -/

namespace Sys2Proof.Machine

def exec (i : Instr) (s : State) : Host.Outcome State Fault Refusal :=
  match i with
  | .addwReg ra rb => Sys2Proof.Machine.execAddwReg ra rb s
  | .addwImmInt ra v => Sys2Proof.Machine.execAddwImmInt ra v s
  | .addwImmFlt ra v => Sys2Proof.Machine.execAddwImmFlt ra v s
  | .subwReg ra rb => Sys2Proof.Machine.execSubwReg ra rb s
  | .subwImmInt ra v => Sys2Proof.Machine.execSubwImmInt ra v s
  | .subwImmFlt ra v => Sys2Proof.Machine.execSubwImmFlt ra v s
  | .mulReg ra rb => Sys2Proof.Machine.execMulReg ra rb s
  | .mulImmInt ra v => Sys2Proof.Machine.execMulImmInt ra v s
  | .mulImmFlt ra v => Sys2Proof.Machine.execMulImmFlt ra v s
  | .incReg ra => Sys2Proof.Machine.execIncReg ra s
  | .decReg ra => Sys2Proof.Machine.execDecReg ra s
  | .negReg ra => Sys2Proof.Machine.execNegReg ra s
  | .andReg ra rb => Sys2Proof.Machine.execAndReg ra rb s
  | .andImmInt ra v => Sys2Proof.Machine.execAndImmInt ra v s
  | .andImmFlt ra v => Sys2Proof.Machine.execAndImmFlt ra v s
  | .orReg ra rb => Sys2Proof.Machine.execOrReg ra rb s
  | .orImmInt ra v => Sys2Proof.Machine.execOrImmInt ra v s
  | .orImmFlt ra v => Sys2Proof.Machine.execOrImmFlt ra v s
  | .xorReg ra rb => Sys2Proof.Machine.execXorReg ra rb s
  | .xorImmInt ra v => Sys2Proof.Machine.execXorImmInt ra v s
  | .xorImmFlt ra v => Sys2Proof.Machine.execXorImmFlt ra v s
  | .notReg ra => Sys2Proof.Machine.execNotReg ra s
  | .shlReg ra rb => Sys2Proof.Machine.execShlReg ra rb s
  | .shlImmInt ra v => Sys2Proof.Machine.execShlImmInt ra v s
  | .shlImmFlt ra v => Sys2Proof.Machine.execShlImmFlt ra v s
  | .shrReg ra rb => Sys2Proof.Machine.execShrReg ra rb s
  | .shrImmInt ra v => Sys2Proof.Machine.execShrImmInt ra v s
  | .shrImmFlt ra v => Sys2Proof.Machine.execShrImmFlt ra v s
  | .moviImmInt ra v => Sys2Proof.Machine.execMoviImmInt ra v s
  | .moviImmFlt ra v => Sys2Proof.Machine.execMoviImmFlt ra v s
  | .movwReg ra rb => Sys2Proof.Machine.execMovwReg ra rb s
  | .lodiImmInt ra v => Sys2Proof.Machine.execLodiImmInt ra v s
  | .lodiImmFlt ra v => Sys2Proof.Machine.execLodiImmFlt ra v s
  | .lodwRegAddr rg a => Sys2Proof.Machine.execLodwRegAddr rg a s
  | .striImmInt ra v => Sys2Proof.Machine.execStriImmInt ra v s
  | .striImmFlt ra v => Sys2Proof.Machine.execStriImmFlt ra v s
  | .strwRegAddr a rg => Sys2Proof.Machine.execStrwRegAddr a rg s
  | .pushReg rb => Sys2Proof.Machine.execPushReg rb s
  | .pushImmInt v => Sys2Proof.Machine.execPushImmInt v s
  | .pushImmFlt v => Sys2Proof.Machine.execPushImmFlt v s
  | .popReg ra => Sys2Proof.Machine.execPopReg ra s
  | .xcghReg ra rb => Sys2Proof.Machine.execXcghReg ra rb s
  | .cmpwReg ra rb => Sys2Proof.Machine.execCmpwReg ra rb s
  | .cmpwImmInt ra v => Sys2Proof.Machine.execCmpwImmInt ra v s
  | .cmpwImmFlt ra v => Sys2Proof.Machine.execCmpwImmFlt ra v s
  | .jmpAddr a => Sys2Proof.Machine.execJmpAddr a s
  | .callAddr a => Sys2Proof.Machine.execCallAddr a s
  | .retNone => Sys2Proof.Machine.execRetNone s
  | .jeAddr a => Sys2Proof.Machine.execJeAddr a s
  | .jneAddr a => Sys2Proof.Machine.execJneAddr a s
  | .jgtAddr a => Sys2Proof.Machine.execJgtAddr a s
  | .jgeAddr a => Sys2Proof.Machine.execJgeAddr a s
  | .jltAddr a => Sys2Proof.Machine.execJltAddr a s
  | .jleAddr a => Sys2Proof.Machine.execJleAddr a s
  | .jsAddr a => Sys2Proof.Machine.execJsAddr a s
  | .jcoAddr a => Sys2Proof.Machine.execJcoAddr a s
  | .haltNone => Sys2Proof.Machine.execHaltNone s
  | .inReg ra => Sys2Proof.Machine.execInReg ra s
  | .outReg rb => Sys2Proof.Machine.execOutReg rb s
  | .outImmInt v => Sys2Proof.Machine.execOutImmInt v s
  | .outImmFlt v => Sys2Proof.Machine.execOutImmFlt v s
  | .insiAddr a => Sys2Proof.Machine.execInsiAddr a s
  | .inswReg ra => Sys2Proof.Machine.execInswReg ra s
  | .outiAddr a => Sys2Proof.Machine.execOutiAddr a s
  | .outwReg ra => Sys2Proof.Machine.execOutwReg ra s

end Sys2Proof.Machine
end

