-- ==== Sys2Proof/Machine/Step.lean ====
section
/-! DEFINITION. One step: the fetch, decode and execute of R148. -/

namespace Sys2Proof.Machine

/-- Decode and execute the fetched word, which is in the queue entry (R143, R144). -/
def stepWord (w : Word) (s : State) : Result :=
  match decodeWord w with
  | .error _ => raiseFault .invalidInstruction s
  | .ok i => exec i s

/-- `step(state)` (R148). Halted and Faulted are terminal: no cycle is performed (R153). -/
def step (s : State) : Host.Outcome State Fault Refusal :=
  match s.runState with
  | .halted | .faulted => .next s
  | .fetching | .decoding | .executing => .fault .notAtBoundary
  | .ready =>
    match s.fetchWord with
    | none => raiseFault .addressOutOfBounds s
    | some w => stepWord w (s.setQueue w)

/-- The state whose next step runs the instruction `w` of `nbits` bits: its word stored at PC, and the machine Ready with no
fault recorded, from which alone a cycle starts (R140; log 6). -/
def State.withFetchWord (s : State) (nbits w : Nat) : State :=
  { s.storeAtPc (tableWord nbits w) with runState := .ready, faultCode := .none }

end Sys2Proof.Machine
end

