-- ==== Sys2Proof/Machine/HostInterface.lean ====
section
/-! DEFINITION. What the host can do between steps: construct, reset, load, run, snapshot (70_reset_and_hazards.md). -/

namespace Sys2Proof.Machine

/-- Host-level refusals: not faults, and no state changes (R357). -/
inductive HostError where
  /-- `new(TOTAL_SIZE)` outside 64 KiB to 8 MiB (R6, R370). -/
  | sizeRange
  /-- A `CALL_STACK_CAPACITY` of 0, which R10's range leaves out. DESIGN CHOICE: the spec names no error for it (log 2). -/
  | capacityRange
  /-- `load` of an image whose layout does not fit the machine (R374). -/
  | segmentLayout
deriving DecidableEq, Repr

/-- The Machine Image (R318). -/
structure Image where
  textStart : Nat
  stackStart : Nat
  stackSize : Nat
  text : List Word
  data : List Byte
deriving DecidableEq, Repr

/-- `new(TOTAL_SIZE)` (R370): any byte count from 64 KiB to 8 MiB is accepted, both ends included (R6, D39), and any
`CALL_STACK_CAPACITY` in its range (R10). No machine exists with a parameter out of its range. -/
def hostNew (params : Config.Params) : Except HostError State :=
  if Config.minTotalSize ≤ params.totalSize ∧ params.totalSize ≤ Config.maxTotalSize then
    if params.capacityLegal then .ok (State.constructed params) else .error .capacityRange
  else .error .sizeRange

/-- `reset` (R373): registers, FLAGS, PC, Call Stack, queue, run state and fault code; Memory and the Segment Layout stay (C8),
and so does the channel (R274). -/
def hostReset (s : State) : State :=
  { s with
    regs := RegFile.zero
    flags := 0
    pc := BitVec.ofNat 32 s.layout.textStart
    callStack := []
    queue := none
    runState := .ready
    faultCode := .none }

/-- The text segment of an image as bytes: each word little-endian, in order (R374). -/
def Image.textBytes (img : Image) : List Byte := img.text.flatMap (fun w => bytesOfWord w 4)

/-- The byte form of an image (R318): its five fields in order, words little-endian. Each of the three numbers is one
32-bit word, a width R318 leaves open (log 16). -/
def Image.bytes (img : Image) : List Byte :=
  bytesOfWord (BitVec.ofNat 32 img.textStart) 4 ++ bytesOfWord (BitVec.ofNat 32 img.stackStart) 4 ++
    bytesOfWord (BitVec.ofNat 32 img.stackSize) 4 ++ img.textBytes ++ img.data

/-- Whether an image's layout is valid on a machine of `totalSize` bytes (R73, R374). -/
abbrev Image.fits (img : Image) (totalSize : Nat) : Prop :=
  layoutValid totalSize img.textStart (4 * img.text.length : Nat) img.stackStart img.stackSize img.data.length

/-- `load(image)` (R374): a layout that does not fit is refused and nothing changes; otherwise Memory is zero-filled, the layout
installed, text and data written (`loadImage`, R76), and the machine reset. With a valid layout `loadImage` cannot fail. -/
def hostLoad (s : State) (img : Image) : Except HostError State :=
  if img.fits s.params.totalSize then
    let cleared : State :=
      { s with
        mem := []
        layout := { textStart := img.textStart, stackStart := img.stackStart, stackSize := img.stackSize } }
    match cleared.memWriteBytes img.textStart img.textBytes with
    | none => .error .segmentLayout
    | some withText =>
      match withText.memWriteBytes (img.stackStart - img.data.length) img.data with
      | none => .error .segmentLayout
      | some loaded => .ok (hostReset loaded)
  else .error .segmentLayout

/-- Halted and Faulted are terminal for the loop (R151). -/
def State.terminal (s : State) : Bool := s.runState == .halted || s.runState == .faulted

/-- `run` (R152), with a stop request that is pending from the boundary after `cycles` cycles on (log 11): the loop ends at Halted,
at Faulted, or at that boundary. -/
def hostRun : Nat → State → Result
  | 0, s => .next s
  | cycles + 1, s =>
    if s.terminal then .next s
    else
      match step s with
      | .next t => hostRun cycles t
      | .fault r => .fault r
      | .refused r => .refused r

/-- A read-only snapshot (R377): the operand registers and PC, FLAGS, a range of Memory, the run state with the fault code. -/
structure Snapshot where
  regs : RegFile
  pc : Word
  flags : Word
  window : List Byte
  runState : RunState
  faultCode : FaultCode
deriving DecidableEq, Repr

/-- The snapshot of a state with the `len` bytes of Memory from `base` on (R377). -/
def State.snapshot (s : State) (base len : Nat) : Snapshot :=
  { regs := s.regs, pc := s.pc, flags := s.flags, window := Memory.readBytes s.mem base len
    runState := s.runState, faultCode := s.faultCode }

/-- `peek()`: the last fetched word without re-reading Memory, nothing when the entry is empty (R39). -/
def State.queuePeek (s : State) : Option Word := s.queue

/-- What the outside supplies to the channel between steps: byte sequences that later `read()` calls deliver (R265; log 4). -/
def State.supplyInput (s : State) (more : List (List Byte)) : State :=
  { s with channel := { s.channel with input := s.channel.input ++ more } }

end Sys2Proof.Machine
end

