-- ==== Sys2Proof/Machine/AsmText.lean ====
section
/-! DEFINITION. The Assembler's text: lines, comments, names and literals (R293 to R298). Text is a list of characters. -/

namespace Sys2Proof.Machine

/-- A piece of source text. -/
abbrev Text := List Char

/-! ## Characters -/

/-- LF (code 10) ends a line (R293). -/
def charLF : Char := Char.ofNat 10
/-- CR (code 13), dropped just before an LF (R293). -/
def charCR : Char := Char.ofNat 13
/-- TAB (code 9). -/
def charTab : Char := Char.ofNat 9
/-- The double quote (code 34). -/
def charQuote : Char := Char.ofNat 34
/-- The backslash (code 92). -/
def charBackslash : Char := Char.ofNat 92

/-- White space is space and tab (R293). -/
def isSpace (c : Char) : Bool := c == ' ' || c == charTab

/-- A decimal digit. -/
def isDigit (c : Char) : Bool := decide (48 ≤ c.toNat ∧ c.toNat ≤ 57)

/-- An ASCII letter. -/
def isLetter (c : Char) : Bool :=
  decide (65 ≤ c.toNat ∧ c.toNat ≤ 90) || decide (97 ≤ c.toNat ∧ c.toNat ≤ 122)

/-- What a label may start with (R294). -/
def isNameStart (c : Char) : Bool := isLetter c || c == '_'

/-- What a label may go on with (R294). -/
def isNameChar (c : Char) : Bool := isNameStart c || isDigit c

/-- The letter in upper case; any other character itself (R295). -/
def upperChar (c : Char) : Char :=
  if 97 ≤ c.toNat ∧ c.toNat ≤ 122 then Char.ofNat (c.toNat - 32) else c

/-! ## Lines (R293) -/

/-- The pieces of a text between occurrences of `c`: one more than there are occurrences. -/
def splitAt (c : Char) : Text → List Text
  | [] => [[]]
  | x :: xs =>
    if x = c then [] :: splitAt c xs
    else
      match splitAt c xs with
      | [] => [[x]]
      | l :: ls => (x :: l) :: ls

/-- A CR at the end of a line is dropped. -/
def dropCR : Text → Text
  | [] => []
  | [c] => if c = charCR then [] else [c]
  | c :: d :: cs => c :: dropCR (d :: cs)

/-- Every line but the last is followed by an LF, and loses a CR just before it. -/
def dropLineEnds : List Text → List Text
  | [] => []
  | [l] => [l]
  | l :: m :: ls => dropCR l :: dropLineEnds (m :: ls)

/-- The lines of a source, the first one numbered 1. -/
def sourceLines (src : Text) : List Text := dropLineEnds (splitAt charLF src)

/-- Where a character stands with respect to string literals. -/
inductive QuoteState where
  | outside | inside | escaped
deriving DecidableEq, Repr

/-- A line without its comment: a `;` that is not inside a string literal, and all after it (R293). A string literal that
is not closed runs to the end of the line (log 13). -/
def stripComment : QuoteState → Text → Text
  | _, [] => []
  | .outside, c :: cs =>
    if c = ';' then []
    else if c = charQuote then c :: stripComment .inside cs
    else c :: stripComment .outside cs
  | .inside, c :: cs =>
    if c = charBackslash then c :: stripComment .escaped cs
    else if c = charQuote then c :: stripComment .outside cs
    else c :: stripComment .inside cs
  | .escaped, c :: cs => c :: stripComment .inside cs

/-- A text without the white space at its two ends. -/
def trimText (t : Text) : Text := ((t.dropWhile isSpace).reverse.dropWhile isSpace).reverse

/-- The first token of a text, up to white space, and what follows it, trimmed (R294; log 12). -/
def splitToken (t : Text) : Text × Text :=
  (t.takeWhile (fun c => !isSpace c), trimText (t.dropWhile (fun c => !isSpace c)))

/-- The comma-separated pieces of an operand or argument text, trimmed; none for an empty text (R294). -/
def splitCommas (t : Text) : List Text :=
  if t = [] then [] else (splitAt ',' t).map trimText

/-! ## Names (R295, R302) -/

/-- The arithmetic mnemonics in upper case (R104). -/
def arithmeticNames : List (Text × Mnemonic) :=
  [("ADDW".toList, Mnemonic.addw), ("SUBW".toList, Mnemonic.subw), ("MUL".toList, Mnemonic.mul),
   ("INC".toList, Mnemonic.inc), ("DEC".toList, Mnemonic.dec), ("NEG".toList, Mnemonic.neg)]

/-- The bitwise mnemonics in upper case (R104). -/
def bitwiseNames : List (Text × Mnemonic) :=
  [("AND".toList, Mnemonic.and), ("OR".toList, Mnemonic.or), ("XOR".toList, Mnemonic.xor),
   ("NOT".toList, Mnemonic.not), ("SHL".toList, Mnemonic.shl), ("SHR".toList, Mnemonic.shr)]

/-- The move mnemonics in upper case (R104). -/
def moveNames : List (Text × Mnemonic) :=
  [("MOVI".toList, Mnemonic.movi), ("MOVW".toList, Mnemonic.movw), ("LODI".toList, Mnemonic.lodi),
   ("LODW".toList, Mnemonic.lodw), ("STRI".toList, Mnemonic.stri), ("STRW".toList, Mnemonic.strw),
   ("PUSH".toList, Mnemonic.push), ("POP".toList, Mnemonic.pop), ("XCGH".toList, Mnemonic.xcgh)]

/-- The compare and control-flow mnemonics in upper case (R104). -/
def controlNames : List (Text × Mnemonic) :=
  [("CMPW".toList, Mnemonic.cmpw), ("JMP".toList, Mnemonic.jmp), ("CALL".toList, Mnemonic.call),
   ("RET".toList, Mnemonic.ret), ("JE".toList, Mnemonic.je), ("JNE".toList, Mnemonic.jne),
   ("JGT".toList, Mnemonic.jgt), ("JGE".toList, Mnemonic.jge), ("JLT".toList, Mnemonic.jlt),
   ("JLE".toList, Mnemonic.jle), ("JS".toList, Mnemonic.js), ("JCO".toList, Mnemonic.jco)]

/-- The system and I/O mnemonics in upper case (R104). -/
def systemNames : List (Text × Mnemonic) :=
  [("HALT".toList, Mnemonic.halt), ("IN".toList, Mnemonic.inn), ("OUT".toList, Mnemonic.out),
   ("INSI".toList, Mnemonic.insi), ("INSW".toList, Mnemonic.insw), ("OUTI".toList, Mnemonic.outi),
   ("OUTW".toList, Mnemonic.outw)]

/-- The 40 mnemonics as the source spells them, in upper case (R104). -/
def mnemonicNames : List (Text × Mnemonic) :=
  arithmeticNames ++ bitwiseNames ++ moveNames ++ controlNames ++ systemNames

/-- The register names in upper case (R302). -/
def registerNames : List (Text × Reg) :=
  [("AX".toList, Reg.ax), ("BX".toList, Reg.bx), ("CX".toList, Reg.cx), ("DX".toList, Reg.dx),
   ("EX".toList, Reg.ex), ("FX".toList, Reg.fx), ("GX".toList, Reg.gx), ("HX".toList, Reg.hx),
   ("SP".toList, Reg.sp), ("BP".toList, Reg.bp), ("SI".toList, Reg.si), ("DI".toList, Reg.di),
   ("CS".toList, Reg.cs), ("DS".toList, Reg.ds), ("SS".toList, Reg.ss), ("ES".toList, Reg.es)]

/-- The value a table gives a name. -/
def lookupName {α : Type} (name : Text) : List (Text × α) → Option α
  | [] => none
  | (n, v) :: rest => if n = name then some v else lookupName name rest

/-- The mnemonic a token spells, in any letter case. -/
def parseMnemonic (t : Text) : Option Mnemonic := lookupName (t.map upperChar) mnemonicNames

/-- The register a token spells, in any letter case. -/
def parseRegister (t : Text) : Option Reg := lookupName (t.map upperChar) registerNames

/-- The shape of a label (R294). -/
def isIdentifier : Text → Bool
  | [] => false
  | c :: cs => isNameStart c && cs.all isNameChar

/-- Spelled like a register, `PC`, `FLAGS` or a mnemonic in any letter case: not a label (R295). -/
def isReservedName (t : Text) : Bool :=
  (parseRegister t).isSome || (parseMnemonic t).isSome ||
    t.map upperChar == "PC".toList || t.map upperChar == "FLAGS".toList

/-- A label name (R294, R295). -/
def isLabelName (t : Text) : Bool := isIdentifier t && !isReservedName t

/-! ## Literals (R296 to R298) -/

/-- The value of a digit in any base up to 16. -/
def digitValue (c : Char) : Nat :=
  if isDigit c then c.toNat - 48 else (upperChar c).toNat - 55

/-- A hexadecimal digit. -/
def isHexDigit (c : Char) : Bool :=
  isDigit c || decide (65 ≤ (upperChar c).toNat ∧ (upperChar c).toNat ≤ 70)

/-- A binary digit. -/
def isBinDigit (c : Char) : Bool := c == '0' || c == '1'

/-- The number that digits denote in a base, the first digit the most significant. -/
def digitsValue (base : Nat) (ds : Text) : Nat := ds.foldl (fun n c => n * base + digitValue c) 0

/-- Digits without a sign: decimal, hexadecimal after `0x`, binary after `0b` (R296). -/
def parseUnsigned : Text → Option Nat
  | [] => none
  | c :: cs =>
    match cs with
    | d :: ds =>
      if c = '0' ∧ upperChar d = 'X' then
        (if ds ≠ [] ∧ ds.all isHexDigit then some (digitsValue 16 ds) else none)
      else if c = '0' ∧ upperChar d = 'B' then
        (if ds ≠ [] ∧ ds.all isBinDigit then some (digitsValue 2 ds) else none)
      else if (c :: d :: ds).all isDigit then some (digitsValue 10 (c :: d :: ds))
      else none
    | [] => if isDigit c then some (digitValue c) else none

/-- An integer literal (R296): an optional `-`, digits, and a value from -2^31 to 2^32 - 1. -/
def parseInt (t : Text) : Option Int :=
  let value : Option Int :=
    match t with
    | '-' :: rest => (parseUnsigned rest).map (fun n => -(n : Int))
    | _ => (parseUnsigned t).map (fun n => (n : Int))
  match value with
  | none => none
  | some n => if -(2 ^ 31 : Int) ≤ n ∧ n ≤ (2 ^ 32 : Int) - 1 then some n else none

/-- The pattern of `digits / 10^places` with a sign: the nearest binary32, ties to even; none where it rounds to infinity (R297). -/
def floatOfDecimal (negative : Bool) (digits places : Nat) : Option Word :=
  let magnitude := roundMagnitude (digits * 2 ^ 149) (10 ^ places)
  if magnitude = infMagnitude then none else some (packFloat negative magnitude)

/-- A float literal without its sign: digits, a point, digits (R297). -/
def parseUnsignedFloat (negative : Bool) (t : Text) : Option Word :=
  match splitAt '.' t with
  | [whole, places] =>
    if whole ≠ [] ∧ places ≠ [] ∧ whole.all isDigit ∧ places.all isDigit then
      floatOfDecimal negative (digitsValue 10 (whole ++ places)) places.length
    else none
  | _ => none

/-- A float literal (R297). -/
def parseFloat (t : Text) : Option Word :=
  match t with
  | '-' :: rest => parseUnsignedFloat true rest
  | _ => parseUnsignedFloat false t

/-- The code an escape stands for (R298). -/
def escapeCode (c : Char) : Option Byte :=
  if c = 'n' then some 10
  else if c = 't' then some 9
  else if c = '0' then some 0
  else if c = charBackslash then some 92
  else if c = charQuote then some 34
  else none

/-- The bytes of a string literal after its opening quote, up to the closing quote, which ends the text (R298). The
second argument says whether the character before was a backslash. -/
def parseStringBody : Text → Bool → Option (List Byte)
  | [], _ => none
  | c :: cs, true =>
    match escapeCode c with
    | none => none
    | some b => (parseStringBody cs false).map (fun bs => b :: bs)
  | c :: cs, false =>
    if c = charQuote then (if cs = [] then some [] else none)
    else if c = charBackslash then parseStringBody cs true
    else if 32 ≤ c.toNat ∧ c.toNat ≤ 126 then
      (parseStringBody cs false).map (fun bs => BitVec.ofNat 8 c.toNat :: bs)
    else none

/-- A string literal (R298). -/
def parseString : Text → Option (List Byte)
  | [] => none
  | c :: cs => if c = charQuote then parseStringBody cs false else none

end Sys2Proof.Machine
end

