-- ==== Sys2Proof/Machine/AsmOperands.lean ====
section
/-! DEFINITION. The Operand Resolver at assembly time: shapes (R299), signatures (R306), resolution (R303 to R305, R307). -/

namespace Sys2Proof.Machine

/-- The five assembly errors (R320). -/
inductive AsmErrorKind where
  | duplicateDirective
  | segmentLayoutError
  | undefinedSymbol
  | invalidOperandSyntax
  | invalidDirectiveValue
deriving DecidableEq, Repr

/-- The shape classes of an operand text (R299); anything else is `InvalidOperandSyntax`. -/
inductive OperandShape where
  | reg (r : Reg)
  | int (n : Int)
  | flt (p : Word)
  | bracketNum (n : Int)
  | bareLabel (l : Text)
  | bracketLabel (l : Text)
deriving DecidableEq, Repr

/-- What stands between `[` and `]`, trimmed (R299; log 14). -/
def bracketed : Text → Option Text
  | [] => none
  | c :: cs =>
    if c = '[' then
      match cs.reverse with
      | d :: ds => if d = ']' then some (trimText ds.reverse) else none
      | [] => none
    else none

/-- The class of an operand by its shape alone (R299). -/
def classifyOperand (t : Text) : Option OperandShape :=
  match bracketed t with
  | some inner =>
    match parseInt inner with
    | some n => some (.bracketNum n)
    | none => if isLabelName inner then some (.bracketLabel inner) else none
  | none =>
    match parseRegister t with
    | some r => some (.reg r)
    | none =>
      match parseInt t with
      | some n => some (.int n)
      | none =>
        match parseFloat t with
        | some p => some (.flt p)
        | none => if isLabelName t then some (.bareLabel t) else none

/-- The operand classes of the signatures (R306). -/
inductive OperandClass where
  | src | imm | adr | reg | greg
deriving DecidableEq, Repr

/-- The signature of each mnemonic (R306). -/
def signatureOf : Mnemonic → List OperandClass
  | .addw | .subw | .mul | .and | .or | .xor | .shl | .shr | .cmpw => [.reg, .src]
  | .movi | .lodi | .stri => [.reg, .imm]
  | .movw | .xcgh => [.reg, .reg]
  | .inc | .dec | .neg | .not | .pop | .inn | .insw | .outw => [.reg]
  | .push | .out => [.src]
  | .jmp | .call | .je | .jne | .jgt | .jge | .jlt | .jle | .js | .jco | .insi | .outi => [.adr]
  | .lodw => [.greg, .adr]
  | .strw => [.adr, .greg]
  | .ret | .halt => []

/-- Which shapes a class accepts (R304 to R306). -/
def OperandClass.accepts : OperandClass → OperandShape → Bool
  | .src, .reg _ | .src, .int _ | .src, .flt _ | .src, .bareLabel _ => true
  | .imm, .int _ | .imm, .flt _ | .imm, .bareLabel _ => true
  | .adr, .bracketNum _ | .adr, .bareLabel _ | .adr, .bracketLabel _ => true
  | .reg, .reg _ => true
  | .greg, .reg r => r.isGeneral
  | _, _ => false

/-- Whether the operand list matches the signature in count and classes (R306). -/
def matchesSignature : List OperandClass → List OperandShape → Bool
  | [], [] => true
  | c :: cs, o :: os => c.accepts o && matchesSignature cs os
  | _, _ => false

/-- The Symbol Table: label name to absolute address (R317). -/
abbrev SymbolTable := List (Text × Nat)

/-- The label an operand refers to, if it does. -/
def OperandShape.label : OperandShape → Option Text
  | .bareLabel l | .bracketLabel l => some l
  | .reg _ | .int _ | .flt _ | .bracketNum _ => none

/-- Whether every label operand is in the table (R319). -/
def labelsDefined (symbols : SymbolTable) (os : List OperandShape) : Bool :=
  os.all (fun o =>
    match o.label with
    | none => true
    | some l => (lookupName l symbols).isSome)

/-- An address operand must satisfy `0 ≤ a < 2^23` (R305). -/
def resolveAddress (a : Int) : Option Operand :=
  if 0 ≤ a ∧ a < 2 ^ 23 then some (.addr (BitVec.ofInt 32 a)) else none

/-- An integer immediate must be one a word can carry (R307); `n` denotes the pattern `n mod 2^32` (R296). -/
def resolveInt (n : Int) : Option Operand :=
  if immIntRepresentable (BitVec.ofInt 32 n) then some (.immInt (BitVec.ofInt 32 n)) else none

/-- A float immediate must be one a word can carry (R307). -/
def resolveFloat (p : Word) : Option Operand :=
  if immFltRepresentable p then some (.immFlt p) else none

/-- A label as a source operand is its address as an integer immediate, below 524288 (R304, R307). -/
def resolveLabelValue (a : Nat) : Option Operand :=
  if a < 524288 then resolveInt a else none

/-- Resolve one operand whose class accepts it: none where the address or the immediate is out of range. -/
def resolveOperand (symbols : SymbolTable) (c : OperandClass) : OperandShape → Option Operand
  | .reg r => some (.reg r)
  | .int n => resolveInt n
  | .flt p => resolveFloat p
  | .bracketNum n => resolveAddress n
  | .bracketLabel l =>
    match lookupName l symbols with
    | none => none
    | some a => resolveAddress a
  | .bareLabel l =>
    match lookupName l symbols with
    | none => none
    | some a => if c = .adr then resolveAddress a else resolveLabelValue a

/-- Resolve the operands of a signature in order. -/
def resolveOperands (symbols : SymbolTable) : List OperandClass → List OperandShape → Option (List Operand)
  | c :: cs, o :: os =>
    match resolveOperand symbols c o, resolveOperands symbols cs os with
    | some x, some xs => some (x :: xs)
    | _, _ => none
  | _, _ => some []

/-- The shapes of a list of operand texts, none where one has no shape (R299). -/
def classifyOperands : List Text → Option (List OperandShape)
  | [] => some []
  | t :: ts =>
    match classifyOperand t, classifyOperands ts with
    | some o, some os => some (o :: os)
    | _, _ => none

/-- One instruction line in Pass 2 (R319): shapes, signature, labels, ranges, in this order. -/
def resolveInstr (symbols : SymbolTable) (m : Mnemonic) (operands : List Text) : Except AsmErrorKind Instr :=
  match classifyOperands operands with
  | none => .error .invalidOperandSyntax
  | some shapes =>
    if !matchesSignature (signatureOf m) shapes then .error .invalidOperandSyntax
    else if !labelsDefined symbols shapes then .error .undefinedSymbol
    else
      match resolveOperands symbols (signatureOf m) shapes with
      | none => .error .invalidOperandSyntax
      | some ops =>
        match instrOfOperands m ops with
        | none => .error .invalidOperandSyntax
        | some i => .ok i

end Sys2Proof.Machine
end

