-- ==== Sys2Proof/Machine/Assembler.lean ====
section
/-! DEFINITION. The two-pass Assembler (47_assembler.md): Pass 1, layout finalization, Pass 2. -/

namespace Sys2Proof.Machine

/-- An assembly error: its kind and 1-based line number, 0 for `SegmentLayoutError` (R316, R321). -/
structure AsmError where
  kind : AsmErrorKind
  line : Nat
deriving DecidableEq, Repr

/-- The current section (R309). -/
inductive AsmSection where
  | text | data
deriving DecidableEq, Repr

/-- A label of Pass 1: its section, and in it the instruction index or the data offset (R315). -/
structure AsmLabel where
  name : Text
  place : AsmSection
  offset : Nat
deriving DecidableEq, Repr

/-- An instruction line kept for Pass 2. -/
structure AsmCode where
  line : Nat
  mnemonic : Mnemonic
  operands : List Text
deriving DecidableEq, Repr

/-- What Pass 1 has gathered (R315): `text_count` is the length of `code`, `data_len` that of `data`. -/
structure Pass1 where
  current : AsmSection
  textStart : Option Nat
  stackStart : Option Nat
  stackSize : Option Nat
  labels : List AsmLabel
  code : List AsmCode
  data : List Byte
deriving DecidableEq, Repr

/-- Before the first line: section text, everything empty (R309, R315). -/
def Pass1.start : Pass1 :=
  { current := .text, textStart := none, stackStart := none, stackSize := none, labels := [], code := [], data := [] }

/-! ## Directives (R308 to R314) -/

/-- One non-negative integer literal and nothing else (R310, R313). -/
def parseNatArgument (args : Text) : Option Nat :=
  match parseInt args with
  | none => none
  | some n => if 0 ≤ n then some n.toNat else none

/-- One value of `.word`: its 32-bit pattern (R312). -/
def parseWordValue (t : Text) : Option Word :=
  match parseInt t with
  | some n => some (BitVec.ofInt 32 n)
  | none => parseFloat t

/-- The bytes of a list of `.word` values (R312). -/
def parseWordValues : List Text → Option (List Byte)
  | [] => some []
  | t :: ts =>
    match parseWordValue t, parseWordValues ts with
    | some w, some bs => some (bytesOfWord w 4 ++ bs)
    | _, _ => none

/-- The bytes a data directive appends, none where its arguments are wrong (R312 to R314). -/
def dataBytes (name args : Text) : Option (List Byte) :=
  if name = "WORD".toList then
    (if splitCommas args = [] then none else parseWordValues (splitCommas args))
  else if name = "SPACE".toList then
    (parseNatArgument args).map (fun n => List.replicate n 0)
  else (parseString args).map (fun bs => bs ++ [0])

/-- A layout directive's value: a repeat is `DuplicateDirective`, a bad argument `InvalidDirectiveValue` (R310). -/
def layoutValue (given : Option Nat) (args : Text) : Except AsmErrorKind Nat :=
  match given with
  | some _ => .error .duplicateDirective
  | none =>
    match parseNatArgument args with
    | none => .error .invalidDirectiveValue
    | some n => .ok n

/-- One directive of Pass 1; `name` is in upper case, without its point (R295, R308 to R315). -/
def pass1Directive (p : Pass1) (name args : Text) : Except AsmErrorKind Pass1 :=
  if name = "TEXT".toList then
    (if args = [] then .ok { p with current := .text } else .error .invalidDirectiveValue)
  else if name = "DATA".toList then
    (if args = [] then .ok { p with current := .data } else .error .invalidDirectiveValue)
  else if name = "TEXT_START".toList then (layoutValue p.textStart args).map (fun n => { p with textStart := some n })
  else if name = "STACK_START".toList then (layoutValue p.stackStart args).map (fun n => { p with stackStart := some n })
  else if name = "STACK_SIZE".toList then (layoutValue p.stackSize args).map (fun n => { p with stackSize := some n })
  else if name = "WORD".toList ∨ name = "SPACE".toList ∨ name = "STRING".toList then
    (if p.current = .data then
      match dataBytes name args with
      | none => .error .invalidDirectiveValue
      | some bs => .ok { p with data := p.data ++ bs }
    else .error .invalidDirectiveValue)
  else .error .invalidDirectiveValue

/-! ## Pass 1 (R315) -/

/-- The label at the start of a trimmed line, and the statement after its colon (R294). -/
def splitLabel (t : Text) : Option Text × Text :=
  let name := t.takeWhile isNameChar
  match (t.dropWhile isNameChar).dropWhile isSpace with
  | ':' :: rest => if isIdentifier name then (some name, trimText rest) else (none, t)
  | _ => (none, t)

/-- Define a label at the current place (R315). -/
def pass1Label (p : Pass1) (name : Text) : Except AsmErrorKind Pass1 :=
  if isReservedName name then .error .invalidOperandSyntax
  else if p.labels.any (fun l => l.name == name) then .error .duplicateDirective
  else
    let offset := match p.current with
      | .text => p.code.length
      | .data => p.data.length
    .ok { p with labels := p.labels ++ [{ name := name, place := p.current, offset := offset }] }

/-- One statement: nothing, a directive or an instruction (R294, R315). Operands are not examined here. DESIGN CHOICE: the
name of a directive begins right after its `.`, as R308's "name starting with `.`" suggests, though R294 allows white space
between tokens. A `.` with white space or nothing after it is thus a directive with an empty name (log 12). -/
def pass1Statement (p : Pass1) (line : Nat) (t : Text) : Except AsmErrorKind Pass1 :=
  match t with
  | [] => .ok p
  | c :: rest =>
    if c = '.' then
      pass1Directive p ((splitToken rest).1.map upperChar) (splitToken rest).2
    else if p.current = .data then .error .invalidOperandSyntax
    else
      match parseMnemonic (splitToken t).1 with
      | none => .error .invalidOperandSyntax
      | some m =>
        .ok { p with code := p.code ++ [{ line := line, mnemonic := m, operands := splitCommas (splitToken t).2 }] }

/-- One line of Pass 1: its label first, then its statement (R315). -/
def pass1Line (p : Pass1) (line : Nat) (raw : Text) : Except AsmErrorKind Pass1 :=
  match splitLabel (trimText (stripComment .outside raw)) with
  | (none, t) => pass1Statement p line t
  | (some name, t) =>
    match pass1Label p name with
    | .error e => .error e
    | .ok q => pass1Statement q line t

/-- Pass 1 over the lines, `line` being the number of the first of them; the first error ends it (R321). -/
def pass1Lines (p : Pass1) : Nat → List Text → Except AsmError Pass1
  | _, [] => .ok p
  | line, l :: ls =>
    match pass1Line p line l with
    | .error e => .error { kind := e, line := line }
    | .ok q => pass1Lines q (line + 1) ls

/-! ## Layout finalization (R316, R317) -/

/-- The `stack_size` of the layout. -/
def Pass1.finalStackSize (p : Pass1) : Nat := p.stackSize.getD Config.defaultStackSize

/-- The `stack_start` of the layout: negative where the default does not fit. -/
def Pass1.finalStackStart (p : Pass1) (totalSize : Nat) : Int :=
  match p.stackStart with
  | some a => a
  | none => (totalSize : Int) - p.finalStackSize

/-- The `text_start` of the layout. -/
def Pass1.finalTextStart (p : Pass1) : Nat := p.textStart.getD 0

/-- The layout check between the passes. -/
abbrev Pass1.layoutOk (p : Pass1) (totalSize : Nat) : Prop :=
  layoutValid totalSize p.finalTextStart (4 * p.code.length : Nat) (p.finalStackStart totalSize) p.finalStackSize
    p.data.length

/-- The address of a label (R317). -/
def Pass1.labelAddress (p : Pass1) (totalSize : Nat) (l : AsmLabel) : Nat :=
  match l.place with
  | .text => p.finalTextStart + 4 * l.offset
  | .data => (p.finalStackStart totalSize).toNat - p.data.length + l.offset

/-- The Symbol Table after Pass 1 (R317). -/
def Pass1.symbols (p : Pass1) (totalSize : Nat) : SymbolTable :=
  p.labels.map (fun l => (l.name, p.labelAddress totalSize l))

/-! ## Pass 2 (R319) -/

/-- The words of the instruction lines, in order; the first error ends it. -/
def pass2Lines (symbols : SymbolTable) : List AsmCode → Except AsmError (List Word)
  | [] => .ok []
  | c :: cs =>
    match resolveInstr symbols c.mnemonic c.operands with
    | .error e => .error { kind := e, line := c.line }
    | .ok i =>
      match pass2Lines symbols cs with
      | .error e => .error e
      | .ok ws => .ok (encode i :: ws)

/-- `assemble(source, TOTAL_SIZE)` (R290): a complete image or the first error (R291, R321). -/
def assemble (source : Text) (totalSize : Nat) : Except AsmError Image :=
  match pass1Lines Pass1.start 1 (sourceLines source) with
  | .error e => .error e
  | .ok p =>
    if p.layoutOk totalSize then
      match pass2Lines (p.symbols totalSize) p.code with
      | .error e => .error e
      | .ok ws =>
        .ok { textStart := p.finalTextStart, stackStart := (p.finalStackStart totalSize).toNat
              stackSize := p.finalStackSize, text := ws, data := p.data }
    else .error { kind := .segmentLayoutError, line := 0 }

end Sys2Proof.Machine
end

