-- ==== Sys2Proof/Safety.lean ====
section
/-! DEFINITION. The terms the claims use: the machine's invariant, frames, what it is to complete or to fault, the operand
forms of an instruction with their encodings, and correct rounding. -/

namespace Sys2Proof.Machine

/-! ## The invariant -/

/-- What holds between any two cycles of a machine that was constructed, loaded, reset or stepped. -/
structure MachineInvariant (s : State) : Prop where
  /-- `TOTAL_SIZE` is legal (R6). -/
  size : Config.minTotalSize ≤ s.params.totalSize ∧ s.params.totalSize ≤ Config.maxTotalSize
  /-- `CALL_STACK_CAPACITY` is positive or unbounded (R10). -/
  capacity : s.params.capacityLegal
  /-- Memory has its canonical form. -/
  memory : Memory.wf s.mem
  /-- No byte is listed outside `[0, TOTAL_SIZE)` (R60). -/
  memoryBound : ∀ c ∈ s.mem, c.1 < s.params.totalSize
  /-- Bits 31:3 of FLAGS are zero (R29). -/
  flagsReserved : s.flags.extractLsb' 3 29 = 0
  /-- The Segment Layout is valid (R73); an empty program is the weakest case. -/
  layout : layoutValid s.params.totalSize s.layout.textStart 0 s.layout.stackStart s.layout.stackSize 0
  /-- The Call Stack does not exceed its capacity (R41). -/
  callDepth : ∀ c, s.params.callStackCapacity = some c → s.callStack.length ≤ c
  /-- Only Ready, Halted and Faulted are seen between cycles (R33). -/
  boundary : s.runState = .ready ∨ s.runState = .halted ∨ s.runState = .faulted
  /-- The fault code is none unless the run state is Faulted (R34). -/
  faultCode : s.faultCode = .none ↔ s.runState ≠ .faulted

/-! ## Completing and faulting -/

/-- The instruction answers a next state, and that state has the property. -/
def Completes (i : Instr) (s : State) (P : State → Prop) : Prop := ∃ t, exec i s = .next t ∧ P t

/-- The instruction takes the fault: run state and fault code change and nothing else (R345). -/
def TakesFault (i : Instr) (s : State) (c : FaultCode) : Prop :=
  exec i s = .next { s with runState := .faulted, faultCode := c }

/-- The instruction ends in Faulted with this code, whatever else it does. -/
def FaultsWith (i : Instr) (s : State) (c : FaultCode) : Prop :=
  ∃ t, exec i s = .next t ∧ t.runState = .faulted ∧ t.faultCode = c

/-- The instruction faults exactly where the condition holds, and then with this code. -/
def FaultsExactly (i : Instr) (s : State) (c : FaultCode) (condition : Prop) : Prop :=
  ∀ c', FaultsWith i s c' ↔ c' = c ∧ condition

/-- A result with its next state changed by `f`. -/
def mapNext (f : State → State) : Result → Result
  | .next s => .next (f s)
  | .fault r => .fault r
  | .refused r => .refused r

/-! ## Frames -/

/-- Every operand register but the listed ones is unchanged. -/
def KeepsRegistersBut (changed : List Reg) (s t : State) : Prop := ∀ r, r ∉ changed → t.reg r = s.reg r

/-- Every byte of Memory is unchanged. -/
def KeepsMemory (s t : State) : Prop := ∀ a, t.byteAt a = s.byteAt a

/-- Every byte of Memory outside the `len` bytes at `base` is unchanged. -/
def KeepsMemoryOutside (base len : Nat) (s t : State) : Prop :=
  ∀ a, a < base ∨ base + len ≤ a → t.byteAt a = s.byteAt a

/-- Parameters, Segment Layout, run state and fault code are unchanged. -/
def KeepsControl (s t : State) : Prop :=
  t.params = s.params ∧ t.layout = s.layout ∧ t.runState = s.runState ∧ t.faultCode = s.faultCode

/-- The default advance, and the queue entry stays (R145, R147). -/
def AdvancesPc (s t : State) : Prop := t.pc = s.pc + 4 ∧ t.queue = s.queue

/-- PC is redirected and the queue flushed (R145, R147). -/
def RedirectsPc (target : Word) (t : State) : Prop := t.pc = target ∧ t.queue = none

/-- The four bytes at `a` are the word, the least significant first (R61). -/
def HoldsWord (s : State) (a : Nat) (v : Word) : Prop := ∀ k < 4, s.byteAt (a + k) = v.extractLsb' (8 * k) 8

/-- Nothing but the listed registers, the FLAGS register, PC and the queue may have changed. -/
def KeepsAllBut (changed : List Reg) (s t : State) : Prop :=
  KeepsRegistersBut changed s t ∧ KeepsMemory s t ∧ t.callStack = s.callStack ∧ t.channel = s.channel ∧ KeepsControl s t

/-- Each flag is set exactly where its condition holds, and the reserved bits are zero. -/
def FlagsAre (z s co : Prop) (fl : Word) : Prop :=
  (flagZ fl = true ↔ z) ∧ (flagS fl = true ↔ s) ∧ (flagCO fl = true ↔ co) ∧ fl.extractLsb' 3 29 = 0

/-- A flag-writing instruction's effect: one register, the three flags, the default advance, and nothing else. -/
def WritesRegisterAndFlags (ra : Reg) (r : Word) (z n co : Prop) (s t : State) : Prop :=
  t.reg ra = r ∧ FlagsAre z n co t.flags ∧ AdvancesPc s t ∧ KeepsAllBut [ra] s t

/-- The flags of a float result, by its value (R161). -/
def WritesFloat (ra : Reg) (r : Word) (s t : State) : Prop :=
  WritesRegisterAndFlags ra r (floatEq (floatVal r) (.fin false 0) = true) (floatLt (floatVal r) (.fin false 0) = true)
    (floatVal r = .nan) s t

/-- The flags of a bitwise result and its carry (R181). -/
def WritesBits (ra : Reg) (r : Word) (c : Prop) (s t : State) : Prop :=
  WritesRegisterAndFlags ra r (r = 0) (r.getLsbD 31 = true) c s t

/-- A move's effect: the registers listed may change, no flag does, and the default advance. -/
def MovesOnly (changed : List Reg) (s t : State) : Prop :=
  t.flags = s.flags ∧ AdvancesPc s t ∧ KeepsAllBut changed s t

/-- A store's effect: the `len` bytes at `base` and the registers listed may change, no flag does, and the default advance. -/
def StoresOnly (changed : List Reg) (base len : Nat) (s t : State) : Prop :=
  t.flags = s.flags ∧ AdvancesPc s t ∧ KeepsRegistersBut changed s t ∧ KeepsMemoryOutside base len s t ∧
    t.callStack = s.callStack ∧ KeepsControl s t

/-! ## Operand forms with their encodings (R103, R105 to R110) -/

/-- Formats RS with source kinds 00, 01 and 10: the encoding of each row, and the property for every operand. -/
def EverySourceForm (op : BitVec 6) (mkReg : Reg → Reg → Instr) (mkInt mkFlt : Reg → Word → Instr)
    (P : Instr → State → Reg → Word → Prop) : Prop :=
  (∀ ra rb, encode (mkReg ra rb) = op ++ ra.num ++ (0#2 ++ 0#16 ++ rb.num) ∧ ∀ s, P (mkReg ra rb) s ra (s.reg rb)) ∧
  (∀ ra v, encode (mkInt ra v) = op ++ ra.num ++ (1#2 ++ v.extractLsb' 0 20) ∧ ∀ s, P (mkInt ra v) s ra v) ∧
  (∀ ra v, encode (mkFlt ra v) = op ++ ra.num ++ (2#2 ++ v.extractLsb' 12 20) ∧ ∀ s, P (mkFlt ra v) s ra v)

/-- A word of this opcode whose source kind is one of these does not decode (R111). -/
def SourceKindsIllegal (op : BitVec 6) (kinds : List (BitVec 2)) : Prop :=
  ∀ w : Word, wordOpcode w = op → wordSk w ∈ kinds → ∃ e, decodeWord w = .error e

/-- Format RS with source kinds 01 and 10 only. -/
def EveryImmediateForm (op : BitVec 6) (mkInt mkFlt : Reg → Word → Instr) (P : Instr → State → Reg → Word → Prop) : Prop :=
  (∀ ra v, encode (mkInt ra v) = op ++ ra.num ++ (1#2 ++ v.extractLsb' 0 20) ∧ ∀ s, P (mkInt ra v) s ra v) ∧
  (∀ ra v, encode (mkFlt ra v) = op ++ ra.num ++ (2#2 ++ v.extractLsb' 12 20) ∧ ∀ s, P (mkFlt ra v) s ra v) ∧
  SourceKindsIllegal op [0, 3]

/-- Format RS with source kind 00 only. -/
def EveryRegisterPair (op : BitVec 6) (mk : Reg → Reg → Instr) (P : Instr → State → Reg → Reg → Prop) : Prop :=
  (∀ ra rb, encode (mk ra rb) = op ++ ra.num ++ (0#2 ++ 0#16 ++ rb.num) ∧ ∀ s, P (mk ra rb) s ra rb) ∧
  SourceKindsIllegal op [1, 2, 3]

/-- Format S: the source operand alone. -/
def EveryLoneSourceForm (op : BitVec 6) (mkReg : Reg → Instr) (mkInt mkFlt : Word → Instr)
    (P : Instr → State → Word → Prop) : Prop :=
  (∀ rb, encode (mkReg rb) = op ++ 0#4 ++ (0#2 ++ 0#16 ++ rb.num) ∧ ∀ s, P (mkReg rb) s (s.reg rb)) ∧
  (∀ v, encode (mkInt v) = op ++ 0#4 ++ (1#2 ++ v.extractLsb' 0 20) ∧ ∀ s, P (mkInt v) s v) ∧
  (∀ v, encode (mkFlt v) = op ++ 0#4 ++ (2#2 ++ v.extractLsb' 12 20) ∧ ∀ s, P (mkFlt v) s v)

/-- Format R: one register. -/
def EveryRegister (op : BitVec 6) (mk : Reg → Instr) (P : Instr → State → Reg → Prop) : Prop :=
  ∀ ra, encode (mk ra) = op ++ ra.num ++ 0#22 ∧ ∀ s, P (mk ra) s ra

/-- Format A: one address. -/
def EveryAddress (op : BitVec 6) (mk : Word → Instr) (P : Instr → State → Word → Prop) : Prop :=
  ∀ a, encode (mk a) = op ++ 0#3 ++ a.extractLsb' 0 23 ∧ ∀ s, P (mk a) s a

/-- Format RA: one register of three bits and one address. -/
def EveryRegisterAddress (op : BitVec 6) (mk : Reg → Word → Instr) (P : Instr → State → Reg → Word → Prop) : Prop :=
  ∀ rg a, encode (mk rg a) = op ++ rg.num.extractLsb' 0 3 ++ a.extractLsb' 0 23 ∧ ∀ s, P (mk rg a) s rg a

/-- A conditional jump (R235): taken where the condition on the flags holds, the default advance where it does not, and
nothing else changes. -/
def JumpsIff (cond : Word → Prop) (i : Instr) (s : State) (a : Word) : Prop :=
  Completes i s (fun t =>
    (cond s.flags → RedirectsPc a t) ∧ (¬ cond s.flags → AdvancesPc s t) ∧ t.flags = s.flags ∧ KeepsAllBut [] s t)

/-! ## The instruction classes the spec lists -/

/-- The flag writers, complete (R31). -/
def flagWriters : List Mnemonic :=
  [.addw, .subw, .mul, .inc, .dec, .neg, .and, .or, .xor, .not, .shl, .shr, .cmpw]

/-- The flag readers, complete (R31). -/
def flagReaders : List Mnemonic := [.je, .jne, .jgt, .jge, .jlt, .jle, .js, .jco]

/-- The instructions that may overwrite PC (R145). -/
def pcRedirectors : List Mnemonic := [.jmp, .call, .ret, .je, .jne, .jgt, .jge, .jlt, .jle, .js, .jco]

/-- The I/O instructions (R266). -/
def channelUsers : List Mnemonic := [.inn, .out, .insi, .insw, .outi, .outw]

/-- The instructions that write Memory (R68). -/
def memoryWriters : List Mnemonic := [.stri, .strw, .push, .insi, .insw]

/-- The instructions with an execute-phase fault (R341). -/
def executeFaulters : List Mnemonic := [.lodw, .strw, .stri, .insi, .insw, .outi, .outw, .pop, .ret, .push, .call]

/-! ## Legal words -/

/-- The `match` and `mask` of every row of spec/opcode_table.json for the opcode `op`: its allowed source kinds and must-be-zero
bits (R103, R104). A word is legal exactly when `word AND mask = match` for some row. -/
def rowsN (op : Nat) : List (Nat × Nat) := [(op * 2 ^ 26, 0xFFFFFFFF)]
/-- Format R. -/
def rowsR (op : Nat) : List (Nat × Nat) := [(op * 2 ^ 26, 0xFC3FFFFF)]
/-- Format RS with source kind 00. -/
def rowsRSReg (op : Nat) : List (Nat × Nat) := [(op * 2 ^ 26, 0xFC3FFFF0)]
/-- Format RS with source kinds 01 and 10. -/
def rowsRSImm (op : Nat) : List (Nat × Nat) :=
  [(op * 2 ^ 26 + 2 ^ 20, 0xFC300000), (op * 2 ^ 26 + 2 ^ 21, 0xFC300000)]
/-- Format S with source kinds 00, 01 and 10. -/
def rowsS (op : Nat) : List (Nat × Nat) :=
  [(op * 2 ^ 26, 0xFFFFFFF0), (op * 2 ^ 26 + 2 ^ 20, 0xFFF00000), (op * 2 ^ 26 + 2 ^ 21, 0xFFF00000)]
/-- Format A. -/
def rowsA (op : Nat) : List (Nat × Nat) := [(op * 2 ^ 26, 0xFF800000)]
/-- Format RA. -/
def rowsRA (op : Nat) : List (Nat × Nat) := [(op * 2 ^ 26, 0xFC000000)]

/-- The 65 rows of spec/opcode_table.json as pairs of `match` and `mask`. -/
def opcodeRows : List (Nat × Nat) :=
  ([0x01, 0x02, 0x03, 0x08, 0x09, 0x0A, 0x0C, 0x0D, 0x20].flatMap (fun op => rowsRSReg op ++ rowsRSImm op)) ++
  ([0x10, 0x12, 0x14].flatMap rowsRSImm) ++ ([0x11, 0x18].flatMap rowsRSReg) ++
  ([0x04, 0x05, 0x06, 0x0B, 0x17, 0x38, 0x3B, 0x3D].flatMap rowsR) ++ ([0x16, 0x39].flatMap rowsS) ++
  ([0x21, 0x22, 0x24, 0x25, 0x26, 0x27, 0x28, 0x29, 0x2A, 0x2B, 0x3A, 0x3C].flatMap rowsA) ++
  ([0x13, 0x15].flatMap rowsRA) ++ ([0x23, 0x30].flatMap rowsN)

/-! ## Correct rounding (R162) -/

/-- The magnitude from which a value rounds to infinity, in units of 2^-149: half a unit in the last place above the
greatest finite magnitude, which is `(2^24 - 1) * 2^253`. -/
def overflowUnits : Nat := (2 ^ 25 - 1) * 2 ^ 252

/-- `r` is the binary32 nearest to `num / den` units of 2^-149, ties to even, with `negative` as its sign; the infinity
of that sign from `overflowUnits` on (R162). -/
def RoundsTo (num : Int) (den : Nat) (negative : Bool) (r : Word) : Prop :=
  if num.natAbs < overflowUnits * den then
    ∃ u, floatVal r = .fin negative u ∧
      ∀ c n v, floatVal c = .fin n v →
        |signedUnits negative u * den - num| ≤ |signedUnits n v * den - num| ∧
        (|signedUnits negative u * den - num| = |signedUnits n v * den - num| →
          signedUnits n v ≠ signedUnits negative u → r.getLsbD 0 = false)
  else floatVal r = .inf negative

end Sys2Proof.Machine
end

