-- ==== Sys2Proof/Certificates/Slice0/Obligations.lean ====
section
/-! DEFINITION. The statements for the provers, from the numbered rules of spec/. -/

open Sys2Proof Sys2Proof.Machine

/-! ## Encoding (30_encoding.md) -/

/-- R117: `decode(encode(i)) = i` for every abstract instruction; `encode(decode(w)) = w` for every word that decodes; and
`decode` is injective on valid words. -/
def Obligations.EncodeAndDecodeAgree : Prop :=
  (∀ i : Instr, i.wf = true → decodeWord (encode i) = .ok i) ∧
  (∀ (w : Word) (i : Instr), decodeWord w = .ok i → i.wf = true ∧ encode i = w) ∧
  (∀ (w w' : Word) (i : Instr), decodeWord w = .ok i → decodeWord w' = .ok i → w = w')

/-- 30_encoding.md's opening and R118: a word is legal exactly when `word AND mask = match` for one of the 65 rows of
opcode_table.json, and the rows are disjoint. -/
def Obligations.LegalWordsAreTheTableRows : Prop :=
  (∀ w : Word, (∃ i, decodeWord w = .ok i) ↔ ∃ row ∈ opcodeRows, w.toNat &&& row.2 = row.1) ∧
  (∀ w : Word, ∀ row ∈ opcodeRows, ∀ row' ∈ opcodeRows,
    w.toNat &&& row.2 = row.1 → w.toNat &&& row'.2 = row'.1 → row = row')

/-- R101, R61: an instruction is its word's four bytes, the lowest address first, and decoding them leaves what follows. -/
def Obligations.InstructionBytesDecode : Prop :=
  ∀ (i : Instr) (rest : List Byte), i.wf = true →
    ∃ b0 b1 b2 b3 : Byte, decode ([b0, b1, b2, b3] ++ rest) = .ok (i, rest) ∧
      b0 = (encode i).extractLsb' 0 8 ∧ b1 = (encode i).extractLsb' 8 8 ∧
      b2 = (encode i).extractLsb' 16 8 ∧ b3 = (encode i).extractLsb' 24 8

/-- A few words of the worked encodings (30_encoding.md section 8) decode to the instructions they stand for. -/
def Obligations.SampleWordsDecode : Prop :=
  decodeWord 0x40241200 = .ok (.moviImmFlt .ax 0x41200000) ∧ decodeWord 0x401FFFFF = .ok (.moviImmInt .ax 0xFFFFFFFF) ∧
  decodeWord 0x80000001 = .ok (.cmpwReg .ax .bx) ∧ decodeWord 0x2C000000 = .ok (.notReg .ax) ∧
  decodeWord 0x98000014 = .ok (.jgtAddr 20) ∧ decodeWord 0x4F80EFFC = .ok (.lodwRegAddr .hx 0xEFFC) ∧
  decodeWord 0x5480EFFC = .ok (.strwRegAddr 0xEFFC .bx) ∧ decodeWord 0x58000008 = .ok (.pushReg .sp) ∧
  decodeWord 0xC0000000 = .ok .haltNone ∧ decodeWord 0xF6800000 = .ok (.outwReg .si)

/-! ## The cycle (40_cycle.md) and faults (60_exceptions.md) -/

/-- R141, R143, R144: in Ready, when the four bytes at PC lie in Memory and decode to an instruction, the step is that
instruction on the state whose queue entry holds the fetched word. -/
def Obligations.StepRunsTheDecodedInstruction : Prop :=
  ∀ (s : State) (i : Instr) (rest : List Byte), s.runState = .ready → s.pc.toNat + 4 ≤ s.params.totalSize →
    decode (Memory.readBytes s.mem s.pc.toNat 4 ++ rest) = .ok (i, rest) →
    step s = exec i { s with queue := some (wordOfBytes (Memory.readBytes s.mem s.pc.toNat 4)) }

/-- R142, R143: the faults of fetch and decode, and what they leave (R147). -/
def Obligations.FetchAndDecodeFaults : Prop :=
  ∀ s : State, s.runState = .ready →
    (s.params.totalSize < s.pc.toNat + 4 →
      step s = .next { s with runState := .faulted, faultCode := .addressOutOfBounds }) ∧
    (∀ (w : Word) (e : DecodeError), s.pc.toNat + 4 ≤ s.params.totalSize → HoldsWord s s.pc.toNat w →
      decodeWord w = .error e →
      step s = .next { s with queue := some w, runState := .faulted, faultCode := .invalidInstruction })

/-- R153, R151: a run from Halted or Faulted performs no cycle and changes nothing, however long. -/
def Obligations.TerminalStatesAreKept : Prop :=
  ∀ (s : State) (cycles : Nat), (s.runState = .halted ∨ s.runState = .faulted) →
    step s = .next s ∧ hostRun cycles s = .next s ∧ Sys2Proof.core.run cycles s = .next s

/-- Every step of a state that meets the invariant answers a next state: the model stops nowhere a machine can be (R33, R140, R153). -/
def Obligations.NoReachableStop : Prop :=
  ∀ s : State, MachineInvariant s → ∃ t, step s = .next t

/-- The invariant (R6, R10, R29, R33, R34, R41, R73 and the canonical form of Memory) is kept by every step. -/
def Obligations.InvariantKeptByEveryStep : Prop :=
  ∀ s t : State, MachineInvariant s → step s = .next t → MachineInvariant t

/-- The invariant holds at reset. The parameters of `State.reset` are the model's choice (logs 1, 2 and 4). -/
def Obligations.InvariantHoldsAtReset : Prop := MachineInvariant State.reset

/-- `new`, `reset` and `load` give states that meet the invariant. -/
def Obligations.InvariantKeptByHostCommands : Prop :=
  (∀ (p : Config.Params) (s : State), hostNew p = .ok s → MachineInvariant s) ∧
  (∀ s : State, MachineInvariant s → MachineInvariant (hostReset s)) ∧
  (∀ (s t : State) (img : Image), MachineInvariant s → hostLoad s img = .ok t → MachineInvariant t)

/-- R345, R146, R147: whatever phase faults, the step changes the run state, the fault code and the queue entry alone, and on
the channel at most one `read()` has happened (R274); no further cycle changes the state it leaves. -/
def Obligations.FaultsArePrecise : Prop :=
  ∀ s t : State, s.runState = .ready → step s = .next t → t.runState = .faulted →
    t = { s with runState := .faulted, faultCode := t.faultCode, queue := t.queue, channel := t.channel } ∧
    t.faultCode ≠ .none ∧
    (s.params.totalSize < s.pc.toNat + 4 → t.queue = s.queue ∧ t.faultCode = .addressOutOfBounds) ∧
    (s.pc.toNat + 4 ≤ s.params.totalSize → ∃ w, t.queue = some w ∧ HoldsWord s s.pc.toNat w) ∧
    t.channel.output = s.channel.output ∧
    (t.channel.input = s.channel.input ∨ t.channel.input = s.channel.input.tail) ∧
    step t = .next t

/-- R341, the rows of the Executing phase: each instruction faults exactly where its condition holds, with its code, and no
other instruction faults there. The invariant rules out stack segments that leave Memory. -/
def Obligations.ExecuteFaultsHaveExactlyTheirCauses : Prop :=
  ∀ s : State, MachineInvariant s → s.runState = .ready →
    (∀ rg a, FaultsExactly (.lodwRegAddr rg a) s .addressOutOfBounds (s.params.totalSize < a.toNat + 4)) ∧
    (∀ a rg, FaultsExactly (.strwRegAddr a rg) s .addressOutOfBounds (s.params.totalSize < a.toNat + 4)) ∧
    (∀ ra v, FaultsExactly (.striImmInt ra v) s .addressOutOfBounds (s.params.totalSize < (s.reg ra).toNat + 4) ∧
      FaultsExactly (.striImmFlt ra v) s .addressOutOfBounds (s.params.totalSize < (s.reg ra).toNat + 4)) ∧
    (∀ a, FaultsExactly (.insiAddr a) s .addressOutOfBounds
      (s.params.totalSize < a.toNat + (stringPart s.chanHead).length + 1)) ∧
    (∀ ra, FaultsExactly (.inswReg ra) s .addressOutOfBounds
      (s.params.totalSize < (s.reg ra).toNat + (stringPart s.chanHead).length + 1)) ∧
    (∀ a, FaultsExactly (.outiAddr a) s .addressOutOfBounds
      (∀ k, a.toNat ≤ k → k < s.params.totalSize → s.byteAt k ≠ 0)) ∧
    (∀ ra, FaultsExactly (.outwReg ra) s .addressOutOfBounds
      (∀ k, (s.reg ra).toNat ≤ k → k < s.params.totalSize → s.byteAt k ≠ 0)) ∧
    (∀ ra, FaultsExactly (.popReg ra) s .stackUnderflow
      (¬ (s.layout.stackStart ≤ (s.reg .sp).toNat ∧
        (s.reg .sp).toNat + 4 ≤ s.layout.stackStart + s.layout.stackSize))) ∧
    FaultsExactly .retNone s .stackUnderflow (s.callStack = []) ∧
    (∀ i, i.mnemonic = .push → FaultsExactly i s .stackOverflow
      (¬ (s.layout.stackStart + 4 ≤ (s.reg .sp).toNat ∧
        (s.reg .sp).toNat ≤ s.layout.stackStart + s.layout.stackSize))) ∧
    (∀ a, FaultsExactly (.callAddr a) s .stackOverflow (s.params.callStackCapacity = some s.callStack.length)) ∧
    (∀ i, i.mnemonic ∉ executeFaulters → ∀ c, ¬ FaultsWith i s c)

/-! ## Rules of the whole machine -/

/-- R31: the flag writers are complete, and so are the flag readers. A writer's result does not depend on the flags it
overwrites; an instruction that is neither carries any FLAGS word through unchanged. -/
def Obligations.FlagWritersAndReadersAreComplete : Prop :=
  (∀ (i : Instr) (s t : State), i.mnemonic ∉ flagWriters → exec i s = .next t → t.flags = s.flags) ∧
  (∀ (i : Instr) (s : State) (fl : Word), i.mnemonic ∈ flagWriters → exec i (s.setFlags fl) = exec i s) ∧
  (∀ (i : Instr) (s : State) (fl : Word), i.mnemonic ∉ flagWriters → i.mnemonic ∉ flagReaders →
    exec i (s.setFlags fl) = mapNext (fun t => t.setFlags fl) (exec i s))

/-- R145: in a cycle that ends without a fault, every instruction but a jump, CALL or RET ends with `PC + 4` modulo 2^32 and
leaves the fetched word in the queue; HALT too. -/
def Obligations.OnlyTransfersRedirectPc : Prop :=
  ∀ (i : Instr) (s t : State), i.mnemonic ∉ pcRedirectors → s.runState = .ready → exec i s = .next t →
    t.runState ≠ .faulted → t.pc = s.pc + 4 ∧ t.queue = s.queue

/-- R41, R42: only CALL pushes and only RET pops, and nothing else sees the Call Stack: with any other Call Stack the
instruction does the same and leaves that one. -/
def Obligations.CallStackIsPrivateToCallAndRet : Prop :=
  ∀ (i : Instr) (s : State) (cs : List Word), i.mnemonic ≠ .call → i.mnemonic ≠ .ret →
    exec i { s with callStack := cs } = mapNext (fun t => { t with callStack := cs }) (exec i s)

/-- R265: the channel is used exclusively by the I/O instructions. -/
def Obligations.ChannelIsPrivateToInputOutput : Prop :=
  ∀ (i : Instr) (s : State) (ch : Channel), i.mnemonic ∉ channelUsers →
    exec i { s with channel := ch } = mapNext (fun t => { t with channel := ch }) (exec i s)

/-- R36, R10: no instruction writes the Segment Layout or a parameter, and no step does. -/
def Obligations.LayoutAndParametersAreConstant : Prop :=
  (∀ (i : Instr) (s t : State), exec i s = .next t → t.layout = s.layout ∧ t.params = s.params) ∧
  (∀ s t : State, step s = .next t → t.layout = s.layout ∧ t.params = s.params)

/-- R381, R40: the queue entry of an earlier cycle never matters: the step does the same whatever it holds, but for an entry
that a terminal state or a fault of the fetch leaves as it was. -/
def Obligations.QueueNeverMatters : Prop :=
  ∀ (s : State) (q : Option Word),
    mapNext (fun t => { t with queue := none }) (step { s with queue := q }) =
      mapNext (fun t => { t with queue := none }) (step s) ∧
    (s.runState = .ready → s.pc.toNat + 4 ≤ s.params.totalSize → step { s with queue := q } = step s)

/-- R68: only STRI, STRW, PUSH, INSI and INSW write Memory. -/
def Obligations.OnlyStoresWriteMemory : Prop :=
  ∀ (i : Instr) (s t : State), i.mnemonic ∉ memoryWriters → exec i s = .next t → ∀ a, t.byteAt a = s.byteAt a

/-! ## Arithmetic (41_arithmetic.md) -/

/-- R163: ADDW. -/
def Obligations.AddwResult : Prop :=
  EverySourceForm 0x01 .addwReg .addwImmInt .addwImmFlt (fun i s ra b =>
    Completes i s (WritesFloat ra (floatAdd .addw (s.reg ra) b) s))

/-- R164: SUBW. -/
def Obligations.SubwResult : Prop :=
  EverySourceForm 0x02 .subwReg .subwImmInt .subwImmFlt (fun i s ra b =>
    Completes i s (WritesFloat ra (floatSub .subw (s.reg ra) b) s))

/-- R165: MUL. -/
def Obligations.MulResult : Prop :=
  EverySourceForm 0x03 .mulReg .mulImmInt .mulImmFlt (fun i s ra b =>
    Completes i s (WritesFloat ra (floatMul .mul (s.reg ra) b) s))

/-- R166, R167: INC adds and DEC subtracts the float 1.0 (0x3F800000). -/
def Obligations.IncAndDecResult : Prop :=
  EveryRegister 0x04 .incReg (fun i s ra =>
    Completes i s (WritesFloat ra (floatAdd .inc (s.reg ra) 0x3F800000) s)) ∧
  EveryRegister 0x05 .decReg (fun i s ra =>
    Completes i s (WritesFloat ra (floatSub .dec (s.reg ra) 0x3F800000) s))

/-- R168: NEG flips bit 31 and no other, of a NaN too, and twice it restores every pattern. -/
def Obligations.NegResult : Prop :=
  EveryRegister 0x06 .negReg (fun i s ra =>
    Completes i s (fun t => WritesFloat ra (s.reg ra ^^^ 0x80000000) s t ∧
      (∀ k < 31, (t.reg ra).getLsbD k = (s.reg ra).getLsbD k) ∧ (t.reg ra).getLsbD 31 = !(s.reg ra).getLsbD 31 ∧
      Completes i t (fun u => u.reg ra = s.reg ra)))

/-- R162: the sum and the difference of finite operands are correctly rounded, to nearest, ties to even, with gradual underflow
and overflow to infinity; an exact zero is `-0` only where both terms are negative zeros. Nearest-even, subnormals and
zero signs are the passages of R162 the spec marks as general knowledge (log 18). -/
def Obligations.AddAndSubAreCorrectlyRounded : Prop :=
  ∀ (op : Config.FloatOp) (a b : Word) (n n' : Bool) (u u' : Nat),
    floatVal a = .fin n u → floatVal b = .fin n' u' →
    (let x := signedUnits n u + signedUnits n' u'
     RoundsTo x 1 (if x = 0 then n && n' else decide (x < 0)) (floatAdd op a b)) ∧
    (let x := signedUnits n u - signedUnits n' u'
     RoundsTo x 1 (if x = 0 then n && !n' else decide (x < 0)) (floatSub op a b))

/-- R162: the product of finite operands is correctly rounded; its sign is the exclusive-or of the operands' signs, also for
zeros. The product counts units of 2^-298. Nearest-even, subnormals and zero signs are the passages of R162 the spec marks
as general knowledge (log 18). -/
def Obligations.MulIsCorrectlyRounded : Prop :=
  ∀ (op : Config.FloatOp) (a b : Word) (n n' : Bool) (u u' : Nat),
    floatVal a = .fin n u → floatVal b = .fin n' u' →
    RoundsTo (signedUnits (n != n') (u * u')) (2 ^ 149) (n != n') (floatMul op a b)

/-- R162: NaN operands and invalid operations give `nan_result`, which is some NaN pattern, and infinities are kept. It
holds whatever NaN the free value is (log 3). -/
def Obligations.NanAndInfinityRules : Prop :=
  (∀ op a b, floatVal (nanResultWord op a b) = .nan) ∧
  (∀ op a b, floatVal a = .nan ∨ floatVal b = .nan →
    floatAdd op a b = nanResultWord op a b ∧ floatSub op a b = nanResultWord op a b ∧
      floatMul op a b = nanResultWord op a b) ∧
  (∀ op a b n n', floatVal a = .inf n → floatVal b = .inf n' →
    (if n = n' then floatVal (floatAdd op a b) = .inf n ∧ floatSub op a b = nanResultWord op a b
      else floatAdd op a b = nanResultWord op a b ∧ floatVal (floatSub op a b) = .inf n) ∧
    floatVal (floatMul op a b) = .inf (n != n')) ∧
  (∀ op a b n n' u, floatVal a = .inf n → floatVal b = .fin n' u →
    floatVal (floatAdd op a b) = .inf n ∧ floatVal (floatAdd op b a) = .inf n ∧ floatVal (floatSub op a b) = .inf n ∧
    floatVal (floatSub op b a) = .inf (!n) ∧
    (if u = 0 then floatMul op a b = nanResultWord op a b ∧ floatMul op b a = nanResultWord op b a
      else floatVal (floatMul op a b) = .inf (n != n') ∧ floatVal (floatMul op b a) = .inf (n != n')))

/-! ## Bitwise (42_bitwise.md) -/

/-- R182, R183, R184: AND, OR, XOR, bit by bit; CO is 0. -/
def Obligations.AndOrXorResult : Prop :=
  EverySourceForm 0x08 .andReg .andImmInt .andImmFlt (fun i s ra b =>
    Completes i s (WritesBits ra (s.reg ra &&& b) False s)) ∧
  EverySourceForm 0x09 .orReg .orImmInt .orImmFlt (fun i s ra b =>
    Completes i s (WritesBits ra (s.reg ra ||| b) False s)) ∧
  EverySourceForm 0x0A .xorReg .xorImmInt .xorImmFlt (fun i s ra b =>
    Completes i s (WritesBits ra (s.reg ra ^^^ b) False s))

/-- R185: NOT complements every bit; CO is 0. -/
def Obligations.NotResult : Prop :=
  EveryRegister 0x0B .notReg (fun i s ra =>
    Completes i s (fun t => WritesBits ra (~~~ s.reg ra) False s t))

/-- R186: SHL by `n = src[4:0]`: `(a * 2^n) mod 2^32`; CO is bit `32 - n` of the old value, 0 where `n = 0`. -/
def Obligations.ShlResult : Prop :=
  EverySourceForm 0x0C .shlReg .shlImmInt .shlImmFlt (fun i s ra b =>
    Completes i s (WritesBits ra (BitVec.ofNat 32 ((s.reg ra).toNat * 2 ^ (b.toNat % 32)))
      (b.toNat % 32 ≠ 0 ∧ (s.reg ra).getLsbD (32 - b.toNat % 32) = true) s))

/-- R187: SHR by `n = src[4:0]`: the quotient by `2^n`, zeros entering; CO is bit `n - 1` of the old value, 0 where `n = 0`. -/
def Obligations.ShrResult : Prop :=
  EverySourceForm 0x0D .shrReg .shrImmInt .shrImmFlt (fun i s ra b =>
    Completes i s (WritesBits ra (BitVec.ofNat 32 ((s.reg ra).toNat / 2 ^ (b.toNat % 32)))
      (b.toNat % 32 ≠ 0 ∧ (s.reg ra).getLsbD (b.toNat % 32 - 1) = true) s))

/-! ## Moves (43_moves.md) -/

/-- R201, R202, R203: MOVI and LODI load the immediate's raw bits, MOVW a register; no flag changes. -/
def Obligations.MoveResult : Prop :=
  EveryImmediateForm 0x10 .moviImmInt .moviImmFlt (fun i s ra v =>
    Completes i s (fun t => t.reg ra = v ∧ MovesOnly [ra] s t)) ∧
  EveryRegisterPair 0x11 .movwReg (fun i s ra rb =>
    Completes i s (fun t => t.reg ra = s.reg rb ∧ MovesOnly [ra] s t)) ∧
  EveryImmediateForm 0x12 .lodiImmInt .lodiImmFlt (fun i s ra v =>
    Completes i s (fun t => t.reg ra = v ∧ MovesOnly [ra] s t))

/-- R204: LODW loads the little-endian word at the address, aligned or not; `AddressOutOfBounds` where it leaves Memory. -/
def Obligations.LodwResult : Prop :=
  EveryRegisterAddress 0x13 .lodwRegAddr (fun i s rg a =>
    (a.toNat + 4 ≤ s.params.totalSize →
      Completes i s (fun t => HoldsWord s a.toNat (t.reg rg) ∧ MovesOnly [rg] s t)) ∧
    (s.params.totalSize < a.toNat + 4 → TakesFault i s .addressOutOfBounds))

/-- R206: STRW stores the register at the address and nothing else; `AddressOutOfBounds` where it leaves Memory. -/
def Obligations.StrwResult : Prop :=
  EveryRegisterAddress 0x15 (fun rg a => .strwRegAddr a rg) (fun i s rg a =>
    (Memory.wf s.mem → a.toNat + 4 ≤ s.params.totalSize →
      Completes i s (fun t => HoldsWord t a.toNat (s.reg rg) ∧ StoresOnly [] a.toNat 4 s t ∧ t.channel = s.channel)) ∧
    (s.params.totalSize < a.toNat + 4 → TakesFault i s .addressOutOfBounds))

/-- R205: STRI stores the immediate at the address `ra` holds, which is only read; `AddressOutOfBounds` where it leaves Memory. -/
def Obligations.StriResult : Prop :=
  EveryImmediateForm 0x14 .striImmInt .striImmFlt (fun i s ra v =>
    (Memory.wf s.mem → (s.reg ra).toNat + 4 ≤ s.params.totalSize →
      Completes i s (fun t =>
        HoldsWord t (s.reg ra).toNat v ∧ StoresOnly [] (s.reg ra).toNat 4 s t ∧ t.channel = s.channel)) ∧
    (s.params.totalSize < (s.reg ra).toNat + 4 → TakesFault i s .addressOutOfBounds))

/-- R207: PUSH stores the value read before SP changes at `SP - 4` and sets SP to it; `StackOverflow` where the four bytes do
not lie wholly in the stack segment. The stack segment lies inside Memory (R73). -/
def Obligations.PushResult : Prop :=
  EveryLoneSourceForm 0x16 .pushReg .pushImmInt .pushImmFlt (fun i s v =>
    (Memory.wf s.mem → s.layout.stackStart + s.layout.stackSize ≤ s.params.totalSize →
      s.layout.stackStart + 4 ≤ (s.reg .sp).toNat →
      (s.reg .sp).toNat ≤ s.layout.stackStart + s.layout.stackSize →
      Completes i s (fun t => (t.reg .sp).toNat = (s.reg .sp).toNat - 4 ∧ HoldsWord t ((s.reg .sp).toNat - 4) v ∧
        StoresOnly [.sp] ((s.reg .sp).toNat - 4) 4 s t ∧ t.channel = s.channel)) ∧
    ((s.reg .sp).toNat < s.layout.stackStart + 4 ∨
        s.layout.stackStart + s.layout.stackSize < (s.reg .sp).toNat → TakesFault i s .stackOverflow))

/-- R208: POP reads the word at SP, adds 4 to SP, and writes `ra` last, so POP SP leaves the popped value; Memory is unchanged;
`StackUnderflow` where the four bytes do not lie wholly in the stack segment. -/
def Obligations.PopResult : Prop :=
  EveryRegister 0x17 .popReg (fun i s ra =>
    (s.layout.stackStart + s.layout.stackSize ≤ s.params.totalSize →
      s.layout.stackStart ≤ (s.reg .sp).toNat →
      (s.reg .sp).toNat + 4 ≤ s.layout.stackStart + s.layout.stackSize →
      Completes i s (fun t => HoldsWord s (s.reg .sp).toNat (t.reg ra) ∧
        (ra ≠ .sp → t.reg .sp = s.reg .sp + 4) ∧ MovesOnly [ra, .sp] s t)) ∧
    ((s.reg .sp).toNat < s.layout.stackStart ∨
        s.layout.stackStart + s.layout.stackSize < (s.reg .sp).toNat + 4 → TakesFault i s .stackUnderflow))

/-- R209: XCGH exchanges two registers in one commit; with itself a register keeps its value. -/
def Obligations.XcghResult : Prop :=
  EveryRegisterPair 0x18 .xcghReg (fun i s ra rb =>
    Completes i s (fun t => t.reg ra = s.reg rb ∧ t.reg rb = s.reg ra ∧ MovesOnly [ra, rb] s t))

/-- R210: `PUSH v; POP r` leaves `r` holding exactly `v` and SP unchanged, for `r` other than SP, whenever SP before the pair
lies from `stack_start + 4` to `stack_end`; for `r = SP` the final SP is `v`. -/
def Obligations.PushThenPopLaw : Prop :=
  EveryLoneSourceForm 0x16 .pushReg .pushImmInt .pushImmFlt (fun i s v =>
    ∀ r : Reg, MachineInvariant s → s.layout.stackStart + 4 ≤ (s.reg .sp).toNat →
      (s.reg .sp).toNat ≤ s.layout.stackStart + s.layout.stackSize →
      Completes i s (fun t => Completes (.popReg r) t (fun u =>
        u.reg r = v ∧ (r ≠ .sp → u.reg .sp = s.reg .sp) ∧ KeepsRegistersBut [r, .sp] s u)))

/-! ## Compare and control flow (44_control.md) -/

/-- R231: CMPW sets Z, S and CO by the IEEE-754 comparison of its operands and writes no register. -/
def Obligations.CmpwResult : Prop :=
  EverySourceForm 0x20 .cmpwReg .cmpwImmInt .cmpwImmFlt (fun i s ra b =>
    Completes i s (fun t =>
      FlagsAre (floatEq (floatVal (s.reg ra)) (floatVal b) = true) (floatLt (floatVal (s.reg ra)) (floatVal b) = true)
        (floatVal (s.reg ra) = .nan ∨ floatVal b = .nan) t.flags ∧
      AdvancesPc s t ∧ KeepsAllBut [] s t))

/-- R232: JMP sets PC and empties the queue, and nothing else changes. -/
def Obligations.JmpResult : Prop :=
  EveryAddress 0x21 .jmpAddr (fun i s a =>
    Completes i s (fun t => RedirectsPc a t ∧ t.flags = s.flags ∧ KeepsAllBut [] s t))

/-- R235: the eight conditional jumps. -/
def Obligations.ConditionalJumpsResult : Prop :=
  EveryAddress 0x24 .jeAddr (JumpsIff (fun fl => fl.getLsbD 0 = true)) ∧
  EveryAddress 0x25 .jneAddr (JumpsIff (fun fl => fl.getLsbD 0 = false)) ∧
  EveryAddress 0x26 .jgtAddr
    (JumpsIff (fun fl => fl.getLsbD 0 = false ∧ fl.getLsbD 1 = false ∧ fl.getLsbD 2 = false)) ∧
  EveryAddress 0x27 .jgeAddr (JumpsIff (fun fl => fl.getLsbD 1 = false ∧ fl.getLsbD 2 = false)) ∧
  EveryAddress 0x28 .jltAddr (JumpsIff (fun fl => fl.getLsbD 1 = true)) ∧
  EveryAddress 0x29 .jleAddr (JumpsIff (fun fl => fl.getLsbD 1 = true ∨ fl.getLsbD 0 = true)) ∧
  EveryAddress 0x2A .jsAddr (JumpsIff (fun fl => fl.getLsbD 1 = true)) ∧
  EveryAddress 0x2B .jcoAddr (JumpsIff (fun fl => fl.getLsbD 2 = true))

/-- R244: after `CMPW a, b`, JGT jumps iff a > b, JLT iff a < b, JE iff a == b, JGE iff a ≥ b and JLE iff a ≤ b, the IEEE-754
relations, false where an operand is a NaN; with a NaN operand exactly JNE and JCO jump. -/
def Obligations.CompareThenJumpLaw : Prop :=
  ∀ (s : State) (ra rb : Reg) (target : Word),
    let a := floatVal (s.reg ra)
    let b := floatVal (s.reg rb)
    Completes (.cmpwReg ra rb) s (fun t =>
      let jumps : Instr → Prop := fun j => exec j t = .next { t with pc := target, queue := none }
      let stays : Instr → Prop := fun j => exec j t = .next { t with pc := t.pc + 4 }
      (if floatLt b a then jumps (.jgtAddr target) else stays (.jgtAddr target)) ∧
      (if floatLt a b then jumps (.jltAddr target) else stays (.jltAddr target)) ∧
      (if floatEq a b then jumps (.jeAddr target) else stays (.jeAddr target)) ∧
      (if floatLt b a || floatEq a b then jumps (.jgeAddr target) else stays (.jgeAddr target)) ∧
      (if floatLt a b || floatEq a b then jumps (.jleAddr target) else stays (.jleAddr target)) ∧
      (a = .nan ∨ b = .nan →
        stays (.jeAddr target) ∧ stays (.jgtAddr target) ∧ stays (.jltAddr target) ∧ stays (.jgeAddr target) ∧
        stays (.jleAddr target) ∧ stays (.jsAddr target) ∧ jumps (.jneAddr target) ∧ jumps (.jcoAddr target)))

/-- R233: CALL pushes the address of the next instruction on the Call Stack and jumps; SP and Memory are untouched;
`StackOverflow` where the Call Stack holds `CALL_STACK_CAPACITY` addresses. -/
def Obligations.CallResult : Prop :=
  EveryAddress 0x22 .callAddr (fun i s a =>
    ((∀ c, s.params.callStackCapacity = some c → s.callStack.length < c) →
      Completes i s (fun t => t.callStack = (s.pc + 4) :: s.callStack ∧ RedirectsPc a t ∧ t.flags = s.flags ∧
        KeepsRegistersBut [] s t ∧ KeepsMemory s t ∧ t.channel = s.channel ∧ KeepsControl s t)) ∧
    (s.params.callStackCapacity = some s.callStack.length → TakesFault i s .stackOverflow))

/-- R234: RET pops an address into PC, unchecked; `StackUnderflow` on an empty Call Stack. -/
def Obligations.RetResult : Prop :=
  encode .retNone = 0x8C000000 ∧
  ∀ s : State,
    (∀ (a : Word) (rest : List Word), s.callStack = a :: rest →
      Completes .retNone s (fun t => t.callStack = rest ∧ RedirectsPc a t ∧ t.flags = s.flags ∧
        KeepsRegistersBut [] s t ∧ KeepsMemory s t ∧ t.channel = s.channel ∧ KeepsControl s t)) ∧
    (s.callStack = [] → TakesFault .retNone s .stackUnderflow)

/-- R244: CALL pushes exactly one return address, and a RET reached with the Call Stack as CALL left it restores PC to the
instruction after the CALL and the Call Stack to what it was. -/
def Obligations.CallThenRetLaw : Prop :=
  ∀ (s u : State) (a : Word), (∀ c, s.params.callStackCapacity = some c → s.callStack.length < c) →
    Completes (.callAddr a) s (fun t => t.callStack.length = s.callStack.length + 1 ∧
      (u.callStack = t.callStack →
        Completes .retNone u (fun v => v.pc = s.pc + 4 ∧ v.callStack = s.callStack ∧ v.queue = none)))

/-! ## System and I/O (45_system.md, 46_io.md) -/

/-- R260: HALT ends in Halted with the default advance, and nothing else changes; no step or run leaves the state it
ends in; no other instruction ends in Halted. -/
def Obligations.HaltResult : Prop :=
  encode .haltNone = 0xC0000000 ∧
  (∀ (i : Instr) (s t : State), i ≠ .haltNone → exec i s = .next t → t.runState = .halted → s.runState = .halted) ∧
  ∀ s : State, Completes .haltNone s (fun t => t.runState = .halted ∧ t.flags = s.flags ∧ AdvancesPc s t ∧
    KeepsRegistersBut [] s t ∧ KeepsMemory s t ∧ t.callStack = s.callStack ∧ t.channel = s.channel ∧
    t.params = s.params ∧ t.layout = s.layout ∧ t.faultCode = s.faultCode ∧
    step t = .next t ∧ ∀ cycles, hostRun cycles t = .next t)

/-- R267: IN takes one byte sequence from the channel (the empty one at end of input) and puts its first four bytes, zero-padded
and little-endian, into the register. -/
def Obligations.InResult : Prop :=
  EveryRegister 0x38 .inReg (fun i s ra =>
    Completes i s (fun t =>
      (∀ k < 4, (t.reg ra).extractLsb' (8 * k) 8 = (s.channel.input.headD []).getD k 0) ∧
      t.channel.input = s.channel.input.tail ∧ t.channel.output = s.channel.output ∧ t.flags = s.flags ∧ AdvancesPc s t ∧
      KeepsRegistersBut [ra] s t ∧ KeepsMemory s t ∧ t.callStack = s.callStack ∧ KeepsControl s t))

/-- R268: OUT makes one write of the value's four bytes, little-endian. -/
def Obligations.OutResult : Prop :=
  EveryLoneSourceForm 0x39 .outReg .outImmInt .outImmFlt (fun i s v =>
    Completes i s (fun t =>
      t.channel.output =
        s.channel.output ++ [[v.extractLsb' 0 8, v.extractLsb' 8 8, v.extractLsb' 16 8, v.extractLsb' 24 8]] ∧
      t.channel.input = s.channel.input ∧ t.flags = s.flags ∧ AdvancesPc s t ∧
      KeepsRegistersBut [] s t ∧ KeepsMemory s t ∧ t.callStack = s.callStack ∧ KeepsControl s t))

/-- R269, R270: INSI and INSW take one byte sequence and store, at their address, the bytes before its first 0x00 and then a
0x00; where that leaves Memory they raise `AddressOutOfBounds`, nothing is stored, and the bytes are gone (R274). -/
def Obligations.StringInputResult : Prop :=
  let stores : Instr → State → Nat → Prop := fun i s a =>
    let bytes := stringPart (s.channel.input.headD [])
    (Memory.wf s.mem → a + bytes.length + 1 ≤ s.params.totalSize →
      Completes i s (fun t => (∀ k, (h : k < bytes.length) → t.byteAt (a + k) = bytes[k]) ∧
        t.byteAt (a + bytes.length) = 0 ∧ StoresOnly [] a (bytes.length + 1) s t ∧
        t.channel.input = s.channel.input.tail ∧ t.channel.output = s.channel.output)) ∧
    (s.params.totalSize < a + bytes.length + 1 →
      exec i s = .next { s with
        runState := .faulted
        faultCode := .addressOutOfBounds
        channel := { s.channel with input := s.channel.input.tail } })
  EveryAddress 0x3A .insiAddr (fun i s a => stores i s a.toNat) ∧
  EveryRegister 0x3B .inswReg (fun i s ra => stores i s (s.reg ra).toNat)

/-- R269: the string of a byte sequence has no 0x00 and is all of it or is followed in it by a 0x00. -/
def Obligations.StringPartIsUpToTheFirstZero : Prop :=
  ∀ bs : List Byte, (∀ b ∈ stringPart bs, b ≠ 0) ∧
    (stringPart bs = bs ∨ ∃ rest, bs = stringPart bs ++ 0 :: rest)

/-- R271, R272: OUTI and OUTW find the least terminator at or after their address and make one write of the bytes before it;
where there is none before the end of Memory they raise `AddressOutOfBounds` and write nothing. -/
def Obligations.StringOutputResult : Prop :=
  let sends : Instr → State → Nat → Prop := fun i s a =>
    (∀ n, a + n < s.params.totalSize → s.byteAt (a + n) = 0 → (∀ k < n, s.byteAt (a + k) ≠ 0) →
      Completes i s (fun t => (∃ bytes : List Byte, bytes.length = n ∧
          (∀ k, (h : k < bytes.length) → bytes[k] = s.byteAt (a + k)) ∧
          t.channel.output = s.channel.output ++ [bytes]) ∧
        t.channel.input = s.channel.input ∧ t.flags = s.flags ∧ AdvancesPc s t ∧
        KeepsRegistersBut [] s t ∧ KeepsMemory s t ∧ t.callStack = s.callStack ∧ KeepsControl s t)) ∧
    ((∀ k, a ≤ k → k < s.params.totalSize → s.byteAt k ≠ 0) → TakesFault i s .addressOutOfBounds)
  EveryAddress 0x3C .outiAddr (fun i s a => sends i s a.toNat) ∧
  EveryRegister 0x3D .outwReg (fun i s ra => sends i s (s.reg ra).toNat)

/-! ## Memory (20_memory.md) -/

/-- R62, R63, R64, R66: after a four-byte write, reads of one, two and four bytes at it and at the next address see its bytes,
every other byte is as before, and an access out of range reads and writes nothing. -/
def Obligations.MixedWidthAccesses : Prop :=
  ∀ (s : State) (a : Nat) (v : Word), Memory.wf s.mem →
    (a + 4 ≤ s.params.totalSize → ∃ t, s.memWrite a 4 v = some t ∧
      t.memRead a 4 = some v ∧ t.memRead a 1 = some (v &&& 0xFF) ∧ t.memRead (a + 1) 1 = some (v >>> 8 &&& 0xFF) ∧
      t.memRead a 2 = some (v &&& 0xFFFF) ∧ t.memRead (a + 2) 2 = some (v >>> 16) ∧
      (a + 5 ≤ s.params.totalSize →
        t.memRead (a + 1) 4 = some (v >>> 8 ||| (s.byteAt (a + 4)).setWidth 32 <<< 24)) ∧
      KeepsMemoryOutside a 4 s t ∧ Memory.wf t.mem) ∧
    (s.params.totalSize < a + 4 → s.memWrite a 4 v = none ∧ s.memRead a 4 = none)

/-! ## Construction, reset, load (70_reset_and_hazards.md) -/

/-- R370, R6, R71: for every legal `CALL_STACK_CAPACITY` (R10) construction succeeds exactly for sizes from 64 KiB to 8 MiB,
with everything zero, the default layout and run state Ready. `CapacityIsPositiveOrUnbounded` has the other capacity. -/
def Obligations.ConstructionRange : Prop :=
  ∀ p : Config.Params,
    (65536 ≤ p.totalSize ∧ p.totalSize ≤ 8388608 → p.callStackCapacity ≠ some 0 → ∃ s, hostNew p = .ok s ∧ s.params = p ∧
      (∀ r, s.reg r = 0) ∧ s.flags = 0 ∧ (∀ a, s.byteAt a = 0) ∧ s.pc = 0 ∧ s.layout.textStart = 0 ∧
      s.layout.stackSize = 4096 ∧ s.layout.stackStart + 4096 = p.totalSize ∧ s.layout.dataStart = s.layout.stackStart ∧
      s.queue = none ∧ s.callStack = [] ∧ s.runState = .ready ∧ s.faultCode = .none) ∧
    (p.totalSize < 65536 ∨ 8388608 < p.totalSize → hostNew p = .error .sizeRange)

/-- R373: what reset leaves, in every run state; no step leads back to Ready. -/
def Obligations.ResetResult : Prop :=
  ∀ s : State, let t := hostReset s
    (∀ r, t.reg r = 0) ∧ t.flags = 0 ∧ t.pc = BitVec.ofNat 32 s.layout.textStart ∧ t.callStack = [] ∧ t.queue = none ∧
    t.runState = .ready ∧ t.faultCode = .none ∧ KeepsMemory s t ∧ t.layout = s.layout ∧ t.params = s.params ∧
    t.channel = s.channel ∧ ∀ u, s.runState ≠ .ready → step s = .next u → u.runState ≠ .ready

/-- R374: an image whose layout fits is loaded: its words at `text_start`, its data just below `stack_start`, every other byte
zero, its layout installed, the machine reset; one that does not fit is refused. -/
def Obligations.LoadResult : Prop :=
  ∀ (s : State) (img : Image),
    (img.fits s.params.totalSize → ∃ t, hostLoad s img = .ok t ∧
      (∀ k, (h : k < img.text.length) → HoldsWord t (img.textStart + 4 * k) img.text[k]) ∧
      (∀ k, (h : k < img.data.length) → t.byteAt (img.stackStart - img.data.length + k) = img.data[k]) ∧
      (∀ a, (a < img.textStart ∨ img.textStart + 4 * img.text.length ≤ a) →
        (a < img.stackStart - img.data.length ∨ img.stackStart ≤ a) → t.byteAt a = 0) ∧
      t.layout = { textStart := img.textStart, stackStart := img.stackStart, stackSize := img.stackSize } ∧
      t.pc = BitVec.ofNat 32 img.textStart ∧ (∀ r, t.reg r = 0) ∧ t.flags = 0 ∧ t.callStack = [] ∧ t.queue = none ∧
      t.runState = .ready ∧ t.faultCode = .none ∧ t.params = s.params ∧ t.channel = s.channel) ∧
    (¬ img.fits s.params.totalSize → hostLoad s img = .error .segmentLayout)

/-! ## The Assembler (47_assembler.md) -/

/-- R322: every word the Assembler emits is a legal word: it decodes to the well-formed instruction whose encoding it is. -/
def Obligations.AssembledWordsAreLegal : Prop :=
  ∀ (source : Text) (totalSize : Nat) (img : Image), assemble source totalSize = .ok img →
    ∀ w ∈ img.text, ∃ i : Instr, i.wf = true ∧ encode i = w ∧ decodeWord w = .ok i

/-- R74: an image has passed the layout check for the size it was assembled for, so every machine of that size loads it. -/
def Obligations.AssembledImagesLoad : Prop :=
  ∀ (source : Text) (s : State) (img : Image), assemble source s.params.totalSize = .ok img →
    img.fits s.params.totalSize ∧ ∃ t, hostLoad s img = .ok t

/-! ## The range of a parameter (00_scope.md) -/

/-- R10: no machine is constructed with a `CALL_STACK_CAPACITY` of 0, whatever its size, so the first CALL of every
machine completes. That construction answers with an error, and with which, is the model's choice (log 2). -/
def Obligations.CapacityIsPositiveOrUnbounded : Prop :=
  (∀ n : Nat, 65536 ≤ n → n ≤ 8388608 →
    hostNew { totalSize := n, callStackCapacity := some 0 } = .error .capacityRange) ∧
  (∀ (p : Config.Params) (s : State), hostNew p = .ok s →
    (∀ c, s.params.callStackCapacity = some c → 0 < c) ∧
    ∀ a : Word, Completes (.callAddr a) s (fun t => t.runState = .ready ∧ t.callStack = [s.pc + 4]))
end

