-- ==== Sys2Proof/Laws/Decode.lean ====
section
/-! SUPPORT. The fields of encoded words and the inverse maps of the encoding tables. -/

namespace Sys2Proof

@[simp] theorem Reg.ofNum_num (r : Reg) : Reg.ofNum r.num = r := by cases r <;> rfl

@[simp] theorem Reg.num_ofNum (n : BitVec 4) : (Reg.ofNum n).num = n := by revert n; decide

@[simp] theorem Mnemonic.ofOpcode_opcode (m : Mnemonic) : Mnemonic.ofOpcode m.opcode = some m := by cases m <;> rfl

theorem Mnemonic.opcode_of_ofOpcode (op : BitVec 6) (m : Mnemonic) (h : Mnemonic.ofOpcode op = some m) : m.opcode = op := by
  revert op m; decide

/-- A field lies whole in the upper part of a concatenation. -/
theorem extract_append_high {m n : Nat} (x : BitVec m) (y : BitVec n) (k len : Nat) (h : n ≤ k) :
    (x ++ y).extractLsb' k len = x.extractLsb' (k - n) len := by
  apply BitVec.eq_of_getLsbD_eq
  intro i hi
  have e : k + i - n = k - n + i := by omega
  simp [BitVec.getLsbD_append, hi, show ¬ k + i < n by omega, e]

/-- A field lies whole in the lower part of a concatenation. -/
theorem extract_append_low {m n : Nat} (x : BitVec m) (y : BitVec n) (k len : Nat) (h : k + len ≤ n) :
    (x ++ y).extractLsb' k len = y.extractLsb' k len := by
  apply BitVec.eq_of_getLsbD_eq
  intro i hi
  simp [BitVec.getLsbD_append, hi, show k + i < n by omega]

theorem extract_whole {n : Nat} (x : BitVec n) : x.extractLsb' 0 n = x := by
  apply BitVec.eq_of_getLsbD_eq
  intro i hi
  simp [hi]

/-! ## The opcode field of each format -/

/-- The upper six bits of `op ++ y` are `op`. -/
theorem wordOpcode_append (op : BitVec 6) (y : BitVec 26) : wordOpcode (op ++ y) = op := by
  have h := extract_append_high op y 26 6 (Nat.le_refl _)
  exact h.trans (extract_whole op)

/-- The upper six bits of `op ++ y ++ z` are `op`. -/
theorem wordOpcode_append_middle {k n : Nat} (op : BitVec 6) (y : BitVec k) (z : BitVec n) (h : 6 + k + n = 32) :
    wordOpcode ((op ++ y ++ z).cast h) = op := by
  apply BitVec.eq_of_getLsbD_eq
  intro i hi
  simp only [wordOpcode, BitVec.getLsbD_extractLsb', hi, decide_true, Bool.true_and, BitVec.getLsbD_cast, BitVec.getLsbD_append]
  rw [if_neg (by omega), if_neg (by omega)]
  congr 1
  omega

theorem wordOpcode_encodeN (m : Mnemonic) : wordOpcode (encodeN m) = m.opcode := wordOpcode_append _ _

theorem wordOpcode_encodeR (m : Mnemonic) (ra : Reg) : wordOpcode (encodeR m ra) = m.opcode :=
  wordOpcode_append_middle m.opcode ra.num 0#22 rfl

theorem wordOpcode_encodeRS (m : Mnemonic) (ra : Reg) (src : BitVec 22) : wordOpcode (encodeRS m ra src) = m.opcode :=
  wordOpcode_append_middle m.opcode ra.num src rfl

theorem wordOpcode_encodeS (m : Mnemonic) (src : BitVec 22) : wordOpcode (encodeS m src) = m.opcode :=
  wordOpcode_append_middle m.opcode 0#4 src rfl

theorem wordOpcode_encodeA (m : Mnemonic) (a : Word) : wordOpcode (encodeA m a) = m.opcode :=
  wordOpcode_append_middle m.opcode 0#3 (a.extractLsb' 0 23) rfl

theorem wordOpcode_encodeRA (m : Mnemonic) (rg : Reg) (a : Word) : wordOpcode (encodeRA m rg a) = m.opcode :=
  wordOpcode_append_middle m.opcode (rg.num.extractLsb' 0 3) (a.extractLsb' 0 23) rfl

/-! ## The other fields of formats RS, A and RA; format R is RS with a source of zeros, and S is RS with register 0 -/

theorem wordRa_encodeRS (m : Mnemonic) (ra : Reg) (src : BitVec 22) : wordRa (encodeRS m ra src) = ra := by
  have h : (encodeRS m ra src).extractLsb' 22 4 = ra.num :=
    (extract_append_high (m.opcode ++ ra.num) src 22 4 (Nat.le_refl _)).trans
      ((extract_append_low m.opcode ra.num 0 4 (Nat.le_refl _)).trans (extract_whole ra.num))
  rw [wordRa, h, Reg.ofNum_num]

/-- A field of the low 22 bits is that field of the source operand. -/
theorem extract_encodeRS (m : Mnemonic) (ra : Reg) (src : BitVec 22) (k len : Nat) (h : k + len ≤ 22) :
    (encodeRS m ra src).extractLsb' k len = src.extractLsb' k len :=
  extract_append_low (m.opcode ++ ra.num) src k len h

theorem encodeR_eq (m : Mnemonic) (ra : Reg) : encodeR m ra = encodeRS m ra 0#22 := rfl

theorem encodeS_eq (m : Mnemonic) (src : BitVec 22) : encodeS m src = encodeRS m .ax src := rfl

/-- The `sk` field of the three kinds of source. -/
theorem sk_encodeSrcReg (rb : Reg) : (encodeSrcReg rb).extractLsb' 20 2 = 0#2 :=
  (extract_append_high (0#2 ++ 0#16) rb.num 20 2 (by decide)).trans (by decide)

theorem sk_encodeSrcInt (v : Word) : (encodeSrcInt v).extractLsb' 20 2 = 1#2 :=
  (extract_append_high 1#2 (v.extractLsb' 0 20) 20 2 (Nat.le_refl _)).trans (by decide)

theorem sk_encodeSrcFlt (v : Word) : (encodeSrcFlt v).extractLsb' 20 2 = 2#2 :=
  (extract_append_high 2#2 (v.extractLsb' 12 20) 20 2 (Nat.le_refl _)).trans (by decide)

theorem addrField_encodeA (m : Mnemonic) (a : Word) : (encodeA m a).extractLsb' 0 23 = a.extractLsb' 0 23 :=
  (extract_append_low (m.opcode ++ 0#3) (a.extractLsb' 0 23) 0 23 (Nat.le_refl _)).trans (extract_whole _)

theorem addrField_encodeRA (m : Mnemonic) (rg : Reg) (a : Word) :
    (encodeRA m rg a).extractLsb' 0 23 = a.extractLsb' 0 23 :=
  (extract_append_low (m.opcode ++ rg.num.extractLsb' 0 3) (a.extractLsb' 0 23) 0 23 (Nat.le_refl _)).trans
    (extract_whole _)

end Sys2Proof
end

