-- ==== Sys2Proof/Laws/Flags.lean ====
section
/-! SUPPORT. The three flags of a FLAGS word that was put together from them, and its reserved bits. -/

namespace Sys2Proof.Machine

@[simp] theorem flagZ_flagsWord (z s co : Bool) : flagZ (flagsWord z s co) = z := by
  cases z <;> cases s <;> cases co <;> rfl

@[simp] theorem flagS_flagsWord (z s co : Bool) : flagS (flagsWord z s co) = s := by
  cases z <;> cases s <;> cases co <;> rfl

@[simp] theorem flagCO_flagsWord (z s co : Bool) : flagCO (flagsWord z s co) = co := by
  cases z <;> cases s <;> cases co <;> rfl

/-- Bits 31:3 of FLAGS are zero (R29). -/
@[simp] theorem flagsWord_reserved (z s co : Bool) : (flagsWord z s co).extractLsb' 3 29 = 0 := by
  cases z <;> cases s <;> cases co <;> rfl

end Sys2Proof.Machine
end

