-- ==== Sys2Proof/Laws/Memory.lean ====
section
/-! SUPPORT. Memory: a read after a write, and that every memory operation keeps the canonical form. -/

namespace Sys2Proof.Machine

@[simp] theorem Memory.read_nil (a : Nat) : Memory.read [] a = 0 := rfl

/-- Below every listed address nothing is listed. -/
theorem Memory.read_below (m : List Host.Cell) (a : Nat) (h : ∀ c ∈ m, a < c.1) : Memory.read m a = 0 := by
  cases m with
  | nil => rfl
  | cons c m => simp [Memory.read, h c List.mem_cons_self, Memory.unlisted]

/-- What a write can list: what was listed, and the address written. -/
theorem Memory.mem_write (m : List Host.Cell) (a : Nat) (b : Byte) (c : Host.Cell) (h : c ∈ Memory.write m a b) :
    c ∈ m ∨ c = (a, b) := by
  induction m with
  | nil =>
    simp only [Memory.write] at h
    split at h <;> simp_all
  | cons d m ih =>
    obtain ⟨k, v⟩ := d
    simp only [Memory.write] at h
    split at h
    · split at h
      · exact .inl h
      · rcases List.mem_cons.mp h with rfl | h
        · exact .inr rfl
        · exact .inl h
    · split at h
      · split at h
        · exact .inl (List.mem_cons_of_mem _ h)
        · rcases List.mem_cons.mp h with rfl | h
          · exact .inr rfl
          · exact .inl (List.mem_cons_of_mem _ h)
      · rcases List.mem_cons.mp h with rfl | h
        · exact .inl List.mem_cons_self
        · exact (ih h).imp (List.mem_cons_of_mem _) id

theorem Memory.wf_nil : Memory.wf [] := ⟨List.Pairwise.nil, fun _ h => nomatch h⟩

theorem Memory.wf_tail (c : Host.Cell) (m : List Host.Cell) (h : Memory.wf (c :: m)) : Memory.wf m :=
  ⟨(List.pairwise_cons.mp h.1).2, fun d hd => h.2 d (List.mem_cons_of_mem _ hd)⟩

/-- A listed byte is not the one an unlisted address reads as. -/
theorem Memory.write_nonzero (m : List Host.Cell) (a : Nat) (b : Byte) (h : ∀ c ∈ m, c.2 ≠ Memory.unlisted) :
    ∀ c ∈ Memory.write m a b, c.2 ≠ Memory.unlisted := by
  induction m with
  | nil =>
    intro c hc
    simp only [Memory.write] at hc
    split at hc <;> simp_all
  | cons d m ih =>
    obtain ⟨k, v⟩ := d
    have ih := ih (fun c hc => h c (List.mem_cons_of_mem _ hc))
    intro c hc
    simp only [Memory.write] at hc
    split at hc
    · split at hc
      · exact h c hc
      · rcases List.mem_cons.mp hc with rfl | hc
        · assumption
        · exact h c hc
    · split at hc
      · split at hc
        · exact h c (List.mem_cons_of_mem _ hc)
        · rcases List.mem_cons.mp hc with rfl | hc
          · assumption
          · exact h c (List.mem_cons_of_mem _ hc)
      · rcases List.mem_cons.mp hc with rfl | hc
        · exact h _ List.mem_cons_self
        · exact ih c hc

/-- A write keeps the addresses rising. -/
theorem Memory.write_sorted (m : List Host.Cell) (a : Nat) (b : Byte) (h : m.Pairwise (fun c d => c.1 < d.1)) :
    (Memory.write m a b).Pairwise (fun c d => c.1 < d.1) := by
  induction m with
  | nil => simp only [Memory.write]; split <;> simp
  | cons d m ih =>
    obtain ⟨k, v⟩ := d
    obtain ⟨hk, hm⟩ := List.pairwise_cons.mp h
    simp only [Memory.write]
    split
    · rename_i hlt
      split
      · exact h
      · refine List.pairwise_cons.mpr ⟨?_, h⟩
        intro c hc
        rcases List.mem_cons.mp hc with rfl | hc
        · exact hlt
        · exact lt_trans hlt (hk c hc)
    · split
      · rename_i heq
        split
        · exact hm
        · exact List.pairwise_cons.mpr ⟨fun c hc => heq ▸ hk c hc, hm⟩
      · rename_i hnlt hne
        refine List.pairwise_cons.mpr ⟨?_, ih hm⟩
        intro c hc
        rcases Memory.mem_write m a b c hc with hc | rfl
        · exact hk c hc
        · show k < a
          omega

/-- A write keeps the canonical form. -/
theorem Memory.write_wf (m : List Host.Cell) (a : Nat) (b : Byte) (h : Memory.wf m) : Memory.wf (Memory.write m a b) :=
  ⟨Memory.write_sorted m a b h.1, Memory.write_nonzero m a b h.2⟩

/-- A byte run keeps the canonical form. -/
theorem Memory.writeBytes_wf (bs : List Byte) (m : List Host.Cell) (a : Nat) (h : Memory.wf m) :
    Memory.wf (Memory.writeBytes m a bs) := by
  induction bs generalizing m a with
  | nil => exact h
  | cons b bs ih => exact ih _ _ (Memory.write_wf m a b h)

/-- A byte read after a byte write. -/
theorem Memory.read_write (m : List Host.Cell) (a : Nat) (b : Byte) (a' : Nat) (h : Memory.wf m) :
    Memory.read (Memory.write m a b) a' = if a' = a then b else Memory.read m a' := by
  induction m with
  | nil =>
    simp only [Memory.write]
    split
    · rename_i hb; simp [Memory.read, hb]
    · simp only [Memory.read]
      split <;> split <;> first | rfl | omega
  | cons d m ih =>
    obtain ⟨k, v⟩ := d
    have hm := Memory.wf_tail _ _ h
    have hk := (List.pairwise_cons.mp h.1).1
    simp only [Memory.write]
    split
    · rename_i hlt
      split
      · rename_i hb
        by_cases e : a' = a
        · subst e; simp [Memory.read, hlt, hb]
        · simp [e]
      · by_cases e : a' = a
        · subst e; simp [Memory.read]
        · by_cases e2 : a' < a
          · simp [Memory.read, e, e2, lt_trans e2 hlt]
          · simp [Memory.read, e, e2]
    · rename_i hnlt
      split
      · rename_i heq
        subst heq
        split
        · rename_i hb
          by_cases e : a' = a
          · subst e
            simp [hb, Memory.unlisted, Memory.read_below m a' (fun c hc => hk c hc)]
          · by_cases e2 : a' < a
            · simp [Memory.read, e, e2, Memory.unlisted,
                Memory.read_below m a' (fun c hc => lt_trans e2 (hk c hc))]
            · simp [Memory.read, e, e2]
        · by_cases e : a' = a
          · subst e; simp [Memory.read]
          · simp [Memory.read, e]
      · rename_i hne
        by_cases e : a' = a
        · subst e
          have : Memory.read (Memory.write m a' b) a' = b := by rw [ih hm]; simp
          simp [Memory.read, hnlt, hne, this]
        · have := ih hm
          simp only [e, if_false] at this ⊢
          simp [Memory.read, this]

/-- A byte read after a byte run. -/
theorem Memory.read_writeBytes (bs : List Byte) (m : List Host.Cell) (a a' : Nat) (h : Memory.wf m) :
    Memory.read (Memory.writeBytes m a bs) a' =
      if a ≤ a' ∧ a' < a + bs.length then bs.getD (a' - a) 0 else Memory.read m a' := by
  induction bs generalizing m a with
  | nil =>
    simp only [Memory.writeBytes, List.length_nil, Nat.add_zero]
    rw [if_neg (by omega)]
  | cons b bs ih =>
    rw [Memory.writeBytes, ih _ _ (Memory.write_wf m a b h), Memory.read_write m a b a' h]
    by_cases h1 : a' = a
    · subst h1; simp
    · by_cases h2 : a + 1 ≤ a' ∧ a' < a + 1 + bs.length
      · rw [if_pos h2, if_pos (by simp only [List.length_cons]; omega)]
        have : a' - a = (a' - (a + 1)) + 1 := by omega
        rw [this]; simp
      · rw [if_neg h2, if_neg h1, if_neg (by simp only [List.length_cons]; omega)]

@[simp] theorem Memory.readBytes_length (m : List Host.Cell) (a n : Nat) : (Memory.readBytes m a n).length = n := by
  induction n generalizing a with
  | zero => rfl
  | succ n ih => simp [Memory.readBytes, ih]

@[simp] theorem bytesOfWord_length (v : Word) (n : Nat) : (bytesOfWord v n).length = n := by
  induction n generalizing v with
  | zero => rfl
  | succ n ih => simp [bytesOfWord, ih]

/-- A byte run lists no address outside its own and those listed before. -/
theorem Memory.writeBytes_bound (bs : List Byte) (m : List Host.Cell) (a k : Nat) (hm : ∀ c ∈ m, c.1 < k)
    (h : a + bs.length ≤ k) : ∀ c ∈ Memory.writeBytes m a bs, c.1 < k := by
  induction bs generalizing m a with
  | nil => exact hm
  | cons b bs ih =>
    simp only [List.length_cons] at h
    refine ih _ _ ?_ (by omega)
    intro c hc
    rcases Memory.mem_write m a b c hc with hc | rfl
    · exact hm c hc
    · show a < k
      omega

/-- Bytes read back are the bytes written. -/
theorem Memory.readBytes_writeBytes (bs : List Byte) (m : List Host.Cell) (a : Nat) (h : Memory.wf m) :
    Memory.readBytes (Memory.writeBytes m a bs) a bs.length = bs := by
  have key : ∀ (n k : Nat), k + n ≤ bs.length →
      Memory.readBytes (Memory.writeBytes m a bs) (a + k) n = (bs.drop k).take n := by
    intro n
    induction n with
    | zero => intro k _; simp [Memory.readBytes]
    | succ n ih =>
      intro k hk
      rw [Memory.readBytes, Memory.read_writeBytes bs m a _ h, if_pos (by omega), Nat.add_assoc, ih (k + 1) (by omega)]
      have hlt : k < bs.length := by omega
      rw [show a + k - a = k by omega, List.drop_eq_getElem_cons hlt, List.take_succ_cons]
      simp [List.getD_eq_getElem?_getD, hlt]
  have := key bs.length 0 (by omega)
  simpa using this

end Sys2Proof.Machine
end

