-- ==== Sys2Proof/Laws/State.lean ====
section
/-! SUPPORT. The small lemmas of the state record: each field after each update, true by rfl, and register reads after writes. -/

namespace Sys2Proof.Machine

/-- A register read after a register write. -/
theorem RegFile.read_write (f : RegFile) (r : Reg) (v : Word) (q : Reg) :
    (f.write r v).read q = if q = r then v else f.read q := by
  cases r <;> cases q <;> rfl

theorem RegFile.read_zero (r : Reg) : RegFile.zero.read r = 0 := by cases r <;> rfl

@[simp] theorem State.setReg_regs (s : State) (r : Reg) (v : Word) : (s.setReg r v).regs = s.regs.write r v := rfl
@[simp] theorem State.setReg_pc (s : State) (r : Reg) (v : Word) : (s.setReg r v).pc = s.pc := rfl
@[simp] theorem State.setReg_flags (s : State) (r : Reg) (v : Word) : (s.setReg r v).flags = s.flags := rfl
@[simp] theorem State.setReg_params (s : State) (r : Reg) (v : Word) : (s.setReg r v).params = s.params := rfl
@[simp] theorem State.setReg_layout (s : State) (r : Reg) (v : Word) : (s.setReg r v).layout = s.layout := rfl
@[simp] theorem State.setReg_mem (s : State) (r : Reg) (v : Word) : (s.setReg r v).mem = s.mem := rfl
@[simp] theorem State.setReg_queue (s : State) (r : Reg) (v : Word) : (s.setReg r v).queue = s.queue := rfl
@[simp] theorem State.setReg_callStack (s : State) (r : Reg) (v : Word) : (s.setReg r v).callStack = s.callStack := rfl
@[simp] theorem State.setReg_runState (s : State) (r : Reg) (v : Word) : (s.setReg r v).runState = s.runState := rfl
@[simp] theorem State.setReg_faultCode (s : State) (r : Reg) (v : Word) : (s.setReg r v).faultCode = s.faultCode := rfl
@[simp] theorem State.setReg_channel (s : State) (r : Reg) (v : Word) : (s.setReg r v).channel = s.channel := rfl
theorem State.setReg_reg (s : State) (r : Reg) (v : Word) (q : Reg) :
    (s.setReg r v).reg q = if q = r then v else s.reg q := RegFile.read_write s.regs r v q
@[simp] theorem State.setReg_reg_same (s : State) (r : Reg) (v : Word) : (s.setReg r v).reg r = v := by
  simp [State.setReg_reg]
theorem State.setReg_reg_other (s : State) (r : Reg) (v : Word) (q : Reg) (h : q ≠ r) : (s.setReg r v).reg q = s.reg q := by
  simp [State.setReg_reg, h]
@[simp] theorem State.setReg_byteAt (s : State) (r : Reg) (v : Word) (k : Nat) : (s.setReg r v).byteAt k = s.byteAt k := rfl

@[simp] theorem State.setFlags_regs (s : State) (v : Word) : (s.setFlags v).regs = s.regs := rfl
@[simp] theorem State.setFlags_pc (s : State) (v : Word) : (s.setFlags v).pc = s.pc := rfl
@[simp] theorem State.setFlags_flags (s : State) (v : Word) : (s.setFlags v).flags = v := rfl
@[simp] theorem State.setFlags_params (s : State) (v : Word) : (s.setFlags v).params = s.params := rfl
@[simp] theorem State.setFlags_layout (s : State) (v : Word) : (s.setFlags v).layout = s.layout := rfl
@[simp] theorem State.setFlags_mem (s : State) (v : Word) : (s.setFlags v).mem = s.mem := rfl
@[simp] theorem State.setFlags_queue (s : State) (v : Word) : (s.setFlags v).queue = s.queue := rfl
@[simp] theorem State.setFlags_callStack (s : State) (v : Word) : (s.setFlags v).callStack = s.callStack := rfl
@[simp] theorem State.setFlags_runState (s : State) (v : Word) : (s.setFlags v).runState = s.runState := rfl
@[simp] theorem State.setFlags_faultCode (s : State) (v : Word) : (s.setFlags v).faultCode = s.faultCode := rfl
@[simp] theorem State.setFlags_channel (s : State) (v : Word) : (s.setFlags v).channel = s.channel := rfl
@[simp] theorem State.setFlags_reg (s : State) (v : Word) (q : Reg) : (s.setFlags v).reg q = s.reg q := rfl
@[simp] theorem State.setFlags_byteAt (s : State) (v : Word) (k : Nat) : (s.setFlags v).byteAt k = s.byteAt k := rfl

@[simp] theorem State.advance_regs (s : State) : (s.advance).regs = s.regs := rfl
@[simp] theorem State.advance_pc (s : State) : (s.advance).pc = s.pc + 4 := rfl
@[simp] theorem State.advance_flags (s : State) : (s.advance).flags = s.flags := rfl
@[simp] theorem State.advance_params (s : State) : (s.advance).params = s.params := rfl
@[simp] theorem State.advance_layout (s : State) : (s.advance).layout = s.layout := rfl
@[simp] theorem State.advance_mem (s : State) : (s.advance).mem = s.mem := rfl
@[simp] theorem State.advance_queue (s : State) : (s.advance).queue = s.queue := rfl
@[simp] theorem State.advance_callStack (s : State) : (s.advance).callStack = s.callStack := rfl
@[simp] theorem State.advance_runState (s : State) : (s.advance).runState = s.runState := rfl
@[simp] theorem State.advance_faultCode (s : State) : (s.advance).faultCode = s.faultCode := rfl
@[simp] theorem State.advance_channel (s : State) : (s.advance).channel = s.channel := rfl
@[simp] theorem State.advance_reg (s : State) (q : Reg) : (s.advance).reg q = s.reg q := rfl
@[simp] theorem State.advance_byteAt (s : State) (k : Nat) : (s.advance).byteAt k = s.byteAt k := rfl

@[simp] theorem State.redirect_regs (s : State) (a : Word) : (s.redirect a).regs = s.regs := rfl
@[simp] theorem State.redirect_pc (s : State) (a : Word) : (s.redirect a).pc = a := rfl
@[simp] theorem State.redirect_flags (s : State) (a : Word) : (s.redirect a).flags = s.flags := rfl
@[simp] theorem State.redirect_params (s : State) (a : Word) : (s.redirect a).params = s.params := rfl
@[simp] theorem State.redirect_layout (s : State) (a : Word) : (s.redirect a).layout = s.layout := rfl
@[simp] theorem State.redirect_mem (s : State) (a : Word) : (s.redirect a).mem = s.mem := rfl
@[simp] theorem State.redirect_queue (s : State) (a : Word) : (s.redirect a).queue = none := rfl
@[simp] theorem State.redirect_callStack (s : State) (a : Word) : (s.redirect a).callStack = s.callStack := rfl
@[simp] theorem State.redirect_runState (s : State) (a : Word) : (s.redirect a).runState = s.runState := rfl
@[simp] theorem State.redirect_faultCode (s : State) (a : Word) : (s.redirect a).faultCode = s.faultCode := rfl
@[simp] theorem State.redirect_channel (s : State) (a : Word) : (s.redirect a).channel = s.channel := rfl
@[simp] theorem State.redirect_reg (s : State) (a : Word) (q : Reg) : (s.redirect a).reg q = s.reg q := rfl
@[simp] theorem State.redirect_byteAt (s : State) (a : Word) (k : Nat) : (s.redirect a).byteAt k = s.byteAt k := rfl

@[simp] theorem State.setMem_regs (s : State) (m : List Host.Cell) : (s.setMem m).regs = s.regs := rfl
@[simp] theorem State.setMem_pc (s : State) (m : List Host.Cell) : (s.setMem m).pc = s.pc := rfl
@[simp] theorem State.setMem_flags (s : State) (m : List Host.Cell) : (s.setMem m).flags = s.flags := rfl
@[simp] theorem State.setMem_params (s : State) (m : List Host.Cell) : (s.setMem m).params = s.params := rfl
@[simp] theorem State.setMem_layout (s : State) (m : List Host.Cell) : (s.setMem m).layout = s.layout := rfl
@[simp] theorem State.setMem_mem (s : State) (m : List Host.Cell) : (s.setMem m).mem = m := rfl
@[simp] theorem State.setMem_queue (s : State) (m : List Host.Cell) : (s.setMem m).queue = s.queue := rfl
@[simp] theorem State.setMem_callStack (s : State) (m : List Host.Cell) : (s.setMem m).callStack = s.callStack := rfl
@[simp] theorem State.setMem_runState (s : State) (m : List Host.Cell) : (s.setMem m).runState = s.runState := rfl
@[simp] theorem State.setMem_faultCode (s : State) (m : List Host.Cell) : (s.setMem m).faultCode = s.faultCode := rfl
@[simp] theorem State.setMem_channel (s : State) (m : List Host.Cell) : (s.setMem m).channel = s.channel := rfl
@[simp] theorem State.setMem_reg (s : State) (m : List Host.Cell) (q : Reg) : (s.setMem m).reg q = s.reg q := rfl

@[simp] theorem State.callPush_regs (s : State) (a : Word) : (s.callPush a).regs = s.regs := rfl
@[simp] theorem State.callPush_pc (s : State) (a : Word) : (s.callPush a).pc = s.pc := rfl
@[simp] theorem State.callPush_flags (s : State) (a : Word) : (s.callPush a).flags = s.flags := rfl
@[simp] theorem State.callPush_params (s : State) (a : Word) : (s.callPush a).params = s.params := rfl
@[simp] theorem State.callPush_layout (s : State) (a : Word) : (s.callPush a).layout = s.layout := rfl
@[simp] theorem State.callPush_mem (s : State) (a : Word) : (s.callPush a).mem = s.mem := rfl
@[simp] theorem State.callPush_queue (s : State) (a : Word) : (s.callPush a).queue = s.queue := rfl
@[simp] theorem State.callPush_callStack (s : State) (a : Word) : (s.callPush a).callStack = a :: s.callStack := rfl
@[simp] theorem State.callPush_runState (s : State) (a : Word) : (s.callPush a).runState = s.runState := rfl
@[simp] theorem State.callPush_faultCode (s : State) (a : Word) : (s.callPush a).faultCode = s.faultCode := rfl
@[simp] theorem State.callPush_channel (s : State) (a : Word) : (s.callPush a).channel = s.channel := rfl
@[simp] theorem State.callPush_reg (s : State) (a : Word) (q : Reg) : (s.callPush a).reg q = s.reg q := rfl
@[simp] theorem State.callPush_byteAt (s : State) (a : Word) (k : Nat) : (s.callPush a).byteAt k = s.byteAt k := rfl

@[simp] theorem State.callDrop_regs (s : State) : (s.callDrop).regs = s.regs := rfl
@[simp] theorem State.callDrop_pc (s : State) : (s.callDrop).pc = s.pc := rfl
@[simp] theorem State.callDrop_flags (s : State) : (s.callDrop).flags = s.flags := rfl
@[simp] theorem State.callDrop_params (s : State) : (s.callDrop).params = s.params := rfl
@[simp] theorem State.callDrop_layout (s : State) : (s.callDrop).layout = s.layout := rfl
@[simp] theorem State.callDrop_mem (s : State) : (s.callDrop).mem = s.mem := rfl
@[simp] theorem State.callDrop_queue (s : State) : (s.callDrop).queue = s.queue := rfl
@[simp] theorem State.callDrop_callStack (s : State) : (s.callDrop).callStack = s.callStack.tail := rfl
@[simp] theorem State.callDrop_runState (s : State) : (s.callDrop).runState = s.runState := rfl
@[simp] theorem State.callDrop_faultCode (s : State) : (s.callDrop).faultCode = s.faultCode := rfl
@[simp] theorem State.callDrop_channel (s : State) : (s.callDrop).channel = s.channel := rfl
@[simp] theorem State.callDrop_reg (s : State) (q : Reg) : (s.callDrop).reg q = s.reg q := rfl
@[simp] theorem State.callDrop_byteAt (s : State) (k : Nat) : (s.callDrop).byteAt k = s.byteAt k := rfl

@[simp] theorem State.chanDrop_regs (s : State) : (s.chanDrop).regs = s.regs := rfl
@[simp] theorem State.chanDrop_pc (s : State) : (s.chanDrop).pc = s.pc := rfl
@[simp] theorem State.chanDrop_flags (s : State) : (s.chanDrop).flags = s.flags := rfl
@[simp] theorem State.chanDrop_params (s : State) : (s.chanDrop).params = s.params := rfl
@[simp] theorem State.chanDrop_layout (s : State) : (s.chanDrop).layout = s.layout := rfl
@[simp] theorem State.chanDrop_mem (s : State) : (s.chanDrop).mem = s.mem := rfl
@[simp] theorem State.chanDrop_queue (s : State) : (s.chanDrop).queue = s.queue := rfl
@[simp] theorem State.chanDrop_callStack (s : State) : (s.chanDrop).callStack = s.callStack := rfl
@[simp] theorem State.chanDrop_runState (s : State) : (s.chanDrop).runState = s.runState := rfl
@[simp] theorem State.chanDrop_faultCode (s : State) : (s.chanDrop).faultCode = s.faultCode := rfl
@[simp] theorem State.chanDrop_channel (s : State) : (s.chanDrop).channel = { s.channel with input := s.channel.input.tail } := rfl
@[simp] theorem State.chanDrop_reg (s : State) (q : Reg) : (s.chanDrop).reg q = s.reg q := rfl
@[simp] theorem State.chanDrop_byteAt (s : State) (k : Nat) : (s.chanDrop).byteAt k = s.byteAt k := rfl

@[simp] theorem State.chanWrite_regs (s : State) (bs : List Byte) : (s.chanWrite bs).regs = s.regs := rfl
@[simp] theorem State.chanWrite_pc (s : State) (bs : List Byte) : (s.chanWrite bs).pc = s.pc := rfl
@[simp] theorem State.chanWrite_flags (s : State) (bs : List Byte) : (s.chanWrite bs).flags = s.flags := rfl
@[simp] theorem State.chanWrite_params (s : State) (bs : List Byte) : (s.chanWrite bs).params = s.params := rfl
@[simp] theorem State.chanWrite_layout (s : State) (bs : List Byte) : (s.chanWrite bs).layout = s.layout := rfl
@[simp] theorem State.chanWrite_mem (s : State) (bs : List Byte) : (s.chanWrite bs).mem = s.mem := rfl
@[simp] theorem State.chanWrite_queue (s : State) (bs : List Byte) : (s.chanWrite bs).queue = s.queue := rfl
@[simp] theorem State.chanWrite_callStack (s : State) (bs : List Byte) : (s.chanWrite bs).callStack = s.callStack := rfl
@[simp] theorem State.chanWrite_runState (s : State) (bs : List Byte) : (s.chanWrite bs).runState = s.runState := rfl
@[simp] theorem State.chanWrite_faultCode (s : State) (bs : List Byte) : (s.chanWrite bs).faultCode = s.faultCode := rfl
@[simp] theorem State.chanWrite_channel (s : State) (bs : List Byte) : (s.chanWrite bs).channel = { s.channel with output := s.channel.output ++ [bs] } := rfl
@[simp] theorem State.chanWrite_reg (s : State) (bs : List Byte) (q : Reg) : (s.chanWrite bs).reg q = s.reg q := rfl
@[simp] theorem State.chanWrite_byteAt (s : State) (bs : List Byte) (k : Nat) : (s.chanWrite bs).byteAt k = s.byteAt k := rfl

@[simp] theorem State.halt_regs (s : State) : (s.halt).regs = s.regs := rfl
@[simp] theorem State.halt_pc (s : State) : (s.halt).pc = s.pc := rfl
@[simp] theorem State.halt_flags (s : State) : (s.halt).flags = s.flags := rfl
@[simp] theorem State.halt_params (s : State) : (s.halt).params = s.params := rfl
@[simp] theorem State.halt_layout (s : State) : (s.halt).layout = s.layout := rfl
@[simp] theorem State.halt_mem (s : State) : (s.halt).mem = s.mem := rfl
@[simp] theorem State.halt_queue (s : State) : (s.halt).queue = s.queue := rfl
@[simp] theorem State.halt_callStack (s : State) : (s.halt).callStack = s.callStack := rfl
@[simp] theorem State.halt_runState (s : State) : (s.halt).runState = .halted := rfl
@[simp] theorem State.halt_faultCode (s : State) : (s.halt).faultCode = s.faultCode := rfl
@[simp] theorem State.halt_channel (s : State) : (s.halt).channel = s.channel := rfl
@[simp] theorem State.halt_reg (s : State) (q : Reg) : (s.halt).reg q = s.reg q := rfl
@[simp] theorem State.halt_byteAt (s : State) (k : Nat) : (s.halt).byteAt k = s.byteAt k := rfl

@[simp] theorem State.enterFault_regs (s : State) (c : FaultCode) : (s.enterFault c).regs = s.regs := rfl
@[simp] theorem State.enterFault_pc (s : State) (c : FaultCode) : (s.enterFault c).pc = s.pc := rfl
@[simp] theorem State.enterFault_flags (s : State) (c : FaultCode) : (s.enterFault c).flags = s.flags := rfl
@[simp] theorem State.enterFault_params (s : State) (c : FaultCode) : (s.enterFault c).params = s.params := rfl
@[simp] theorem State.enterFault_layout (s : State) (c : FaultCode) : (s.enterFault c).layout = s.layout := rfl
@[simp] theorem State.enterFault_mem (s : State) (c : FaultCode) : (s.enterFault c).mem = s.mem := rfl
@[simp] theorem State.enterFault_queue (s : State) (c : FaultCode) : (s.enterFault c).queue = s.queue := rfl
@[simp] theorem State.enterFault_callStack (s : State) (c : FaultCode) : (s.enterFault c).callStack = s.callStack := rfl
@[simp] theorem State.enterFault_runState (s : State) (c : FaultCode) : (s.enterFault c).runState = .faulted := rfl
@[simp] theorem State.enterFault_faultCode (s : State) (c : FaultCode) : (s.enterFault c).faultCode = c := rfl
@[simp] theorem State.enterFault_channel (s : State) (c : FaultCode) : (s.enterFault c).channel = s.channel := rfl
@[simp] theorem State.enterFault_reg (s : State) (c : FaultCode) (q : Reg) : (s.enterFault c).reg q = s.reg q := rfl
@[simp] theorem State.enterFault_byteAt (s : State) (c : FaultCode) (k : Nat) : (s.enterFault c).byteAt k = s.byteAt k := rfl

@[simp] theorem State.setQueue_regs (s : State) (w : Word) : (s.setQueue w).regs = s.regs := rfl
@[simp] theorem State.setQueue_pc (s : State) (w : Word) : (s.setQueue w).pc = s.pc := rfl
@[simp] theorem State.setQueue_flags (s : State) (w : Word) : (s.setQueue w).flags = s.flags := rfl
@[simp] theorem State.setQueue_params (s : State) (w : Word) : (s.setQueue w).params = s.params := rfl
@[simp] theorem State.setQueue_layout (s : State) (w : Word) : (s.setQueue w).layout = s.layout := rfl
@[simp] theorem State.setQueue_mem (s : State) (w : Word) : (s.setQueue w).mem = s.mem := rfl
@[simp] theorem State.setQueue_queue (s : State) (w : Word) : (s.setQueue w).queue = some w := rfl
@[simp] theorem State.setQueue_callStack (s : State) (w : Word) : (s.setQueue w).callStack = s.callStack := rfl
@[simp] theorem State.setQueue_runState (s : State) (w : Word) : (s.setQueue w).runState = s.runState := rfl
@[simp] theorem State.setQueue_faultCode (s : State) (w : Word) : (s.setQueue w).faultCode = s.faultCode := rfl
@[simp] theorem State.setQueue_channel (s : State) (w : Word) : (s.setQueue w).channel = s.channel := rfl
@[simp] theorem State.setQueue_reg (s : State) (w : Word) (q : Reg) : (s.setQueue w).reg q = s.reg q := rfl
@[simp] theorem State.setQueue_byteAt (s : State) (w : Word) (k : Nat) : (s.setQueue w).byteAt k = s.byteAt k := rfl

@[simp] theorem State.storeAtPc_regs (s : State) (w : Word) : (s.storeAtPc w).regs = s.regs := rfl
@[simp] theorem State.storeAtPc_pc (s : State) (w : Word) : (s.storeAtPc w).pc = s.pc := rfl
@[simp] theorem State.storeAtPc_flags (s : State) (w : Word) : (s.storeAtPc w).flags = s.flags := rfl
@[simp] theorem State.storeAtPc_params (s : State) (w : Word) : (s.storeAtPc w).params = s.params := rfl
@[simp] theorem State.storeAtPc_layout (s : State) (w : Word) : (s.storeAtPc w).layout = s.layout := rfl
@[simp] theorem State.storeAtPc_mem (s : State) (w : Word) : (s.storeAtPc w).mem = Memory.writeBytes s.mem s.pc.toNat (bytesOfWord4 w) := rfl
@[simp] theorem State.storeAtPc_queue (s : State) (w : Word) : (s.storeAtPc w).queue = s.queue := rfl
@[simp] theorem State.storeAtPc_callStack (s : State) (w : Word) : (s.storeAtPc w).callStack = s.callStack := rfl
@[simp] theorem State.storeAtPc_runState (s : State) (w : Word) : (s.storeAtPc w).runState = s.runState := rfl
@[simp] theorem State.storeAtPc_faultCode (s : State) (w : Word) : (s.storeAtPc w).faultCode = s.faultCode := rfl
@[simp] theorem State.storeAtPc_channel (s : State) (w : Word) : (s.storeAtPc w).channel = s.channel := rfl
@[simp] theorem State.storeAtPc_reg (s : State) (w : Word) (q : Reg) : (s.storeAtPc w).reg q = s.reg q := rfl

@[simp] theorem SegmentLayout.dataStart_eq (l : SegmentLayout) : l.dataStart = l.stackStart := rfl
@[simp] theorem SegmentLayout.stackEnd_eq (l : SegmentLayout) : l.stackEnd = l.stackStart + l.stackSize := rfl

end Sys2Proof.Machine
end

