-- ==== Sys2Proof/Laws/Ops.lean ====
section
/-! SUPPORT. One lemma per shared operation: everything it can answer. -/

namespace Sys2Proof.Machine

/-! ## Memory access -/

/-- `MemRead` answers a value exactly in range. -/
theorem State.memRead_some (s : State) (a n : Nat) (v : Word) :
    s.memRead a n = some v ↔ a + n ≤ s.params.totalSize ∧ v = wordOfBytes (Memory.readBytes s.mem a n) := by
  unfold State.memRead State.inRange
  split <;> rename_i h <;> simp [h, eq_comm]

/-- `MemRead` raises exactly out of range. -/
theorem State.memRead_none (s : State) (a n : Nat) : s.memRead a n = none ↔ s.params.totalSize < a + n := by
  unfold State.memRead State.inRange
  split <;> rename_i h <;> simp <;> omega

/-- A byte run is stored exactly in range, and then only Memory changes. -/
theorem State.memWriteBytes_some (s t : State) (a : Nat) (bs : List Byte) :
    s.memWriteBytes a bs = some t ↔
      a + bs.length ≤ s.params.totalSize ∧ t = s.setMem (Memory.writeBytes s.mem a bs) := by
  unfold State.memWriteBytes State.inRange
  split <;> rename_i h <;> simp [h, eq_comm]

/-- A byte run raises exactly out of range. -/
theorem State.memWriteBytes_none (s : State) (a : Nat) (bs : List Byte) :
    s.memWriteBytes a bs = none ↔ s.params.totalSize < a + bs.length := by
  unfold State.memWriteBytes State.inRange
  split <;> rename_i h <;> simp <;> omega

/-- `MemWrite` stores exactly in range, and then only Memory changes. -/
theorem State.memWrite_some (s t : State) (a n : Nat) (v : Word) :
    s.memWrite a n v = some t ↔
      a + n ≤ s.params.totalSize ∧ t = s.setMem (Memory.writeBytes s.mem a (bytesOfWord v n)) := by
  rw [State.memWrite, State.memWriteBytes_some, bytesOfWord_length]

/-- `MemWrite` raises exactly out of range. -/
theorem State.memWrite_none (s : State) (a n : Nat) (v : Word) :
    s.memWrite a n v = none ↔ s.params.totalSize < a + n := by
  rw [State.memWrite, State.memWriteBytes_none, bytesOfWord_length]

/-- A byte outside a stored run reads as before; one inside it is the byte stored. -/
theorem State.byteAt_writeBytes (s : State) (a : Nat) (bs : List Byte) (k : Nat) (h : Memory.wf s.mem) :
    (s.setMem (Memory.writeBytes s.mem a bs)).byteAt k =
      if a ≤ k ∧ k < a + bs.length then bs.getD (k - a) 0 else s.byteAt k :=
  Memory.read_writeBytes bs s.mem a k h

/-- The string scan finds the least terminator. -/
theorem Memory.stringLength_some (m : List Host.Cell) (a fuel n : Nat) :
    Memory.stringLength m a fuel = some n ↔
      n < fuel ∧ Memory.read m (a + n) = 0 ∧ ∀ k < n, Memory.read m (a + k) ≠ 0 := by
  induction fuel generalizing a n with
  | zero => simp [Memory.stringLength]
  | succ fuel ih =>
    simp only [Memory.stringLength]
    split
    · rename_i h0
      constructor
      · rintro ⟨⟩
        exact ⟨by omega, h0, fun k hk => absurd hk (by omega)⟩
      · rintro ⟨_, _, hall⟩
        cases n with
        | zero => rfl
        | succ n => exact absurd h0 (hall 0 (by omega))
    · rename_i h0
      constructor
      · intro h
        obtain ⟨j, hj, rfl⟩ := Option.map_eq_some_iff.mp h
        · obtain ⟨h1, h2, h3⟩ := (ih (a + 1) j).mp hj
          refine ⟨by omega, by rw [← h2]; congr 1; omega, ?_⟩
          intro k hk
          cases k with
          | zero => exact h0
          | succ k =>
            have := h3 k (by omega)
            rwa [show a + 1 + k = a + (k + 1) by omega] at this
      · rintro ⟨h1, h2, h3⟩
        cases n with
        | zero => exact absurd h2 h0
        | succ n =>
          have : Memory.stringLength m (a + 1) fuel = some n := by
            refine (ih (a + 1) n).mpr ⟨by omega, by rw [← h2]; congr 1; omega, ?_⟩
            intro k hk
            have := h3 (k + 1) (by omega)
            rwa [show a + (k + 1) = a + 1 + k by omega] at this
          rw [this, Option.map_some]

/-- The string scan fails exactly where no terminator stands. -/
theorem Memory.stringLength_none (m : List Host.Cell) (a fuel : Nat) :
    Memory.stringLength m a fuel = none ↔ ∀ k < fuel, Memory.read m (a + k) ≠ 0 := by
  induction fuel generalizing a with
  | zero => simp [Memory.stringLength]
  | succ fuel ih =>
    simp only [Memory.stringLength]
    split
    · rename_i h0
      simp only [reduceCtorEq, false_iff]
      intro h
      exact h 0 (by omega) h0
    · rename_i h0
      rw [Option.map_eq_none_iff, ih]
      constructor
      · intro h k hk
        cases k with
        | zero => exact h0
        | succ k =>
          have := h k (by omega)
          rwa [show a + 1 + k = a + (k + 1) by omega] at this
      · intro h k hk
        have := h (k + 1) (by omega)
        rwa [show a + (k + 1) = a + 1 + k by omega] at this

/-! ## Words and bytes -/

/-- The bits of a little-endian value: byte `i / 8` holds bit `i`. -/
theorem wordOfBytes_bit (bs : List Byte) (i : Nat) (hi : i < 32) :
    (wordOfBytes bs).getLsbD i = (bs.getD (i / 8) 0).getLsbD (i % 8) := by
  induction bs generalizing i with
  | nil => simp [wordOfBytes]
  | cons b bs ih =>
    by_cases h : i < 8
    · simp [wordOfBytes, hi, h, Nat.div_eq_of_lt h, Nat.mod_eq_of_lt h]
    · have h8 : (b.getLsbD i) = false := BitVec.getLsbD_of_ge b i (by omega)
      have hd : i / 8 = (i - 8) / 8 + 1 := by omega
      have hm : i % 8 = (i - 8) % 8 := by omega
      have := ih (i - 8) (by omega)
      simp only [wordOfBytes, BitVec.getLsbD_or, BitVec.getLsbD_setWidth, BitVec.getLsbD_shiftLeft, hi, h, h8, hd, hm, this]
      simp

/-- The bits of the bytes of a word. -/
theorem bytesOfWord_bit (v : Word) (n k j : Nat) (hk : k < n) (hj : j < 8) :
    ((bytesOfWord v n).getD k 0).getLsbD j = v.getLsbD (8 * k + j) := by
  induction n generalizing v k with
  | zero => omega
  | succ n ih =>
    cases k with
    | zero => simp [bytesOfWord, hj]
    | succ k =>
      have := ih (v >>> 8) k (by omega)
      simp only [bytesOfWord, List.getD_cons_succ, this, BitVec.getLsbD_ushiftRight]
      congr 1
      omega

/-- A word survives its four bytes. -/
theorem wordOfBytes_bytesOfWord (v : Word) : wordOfBytes (bytesOfWord v 4) = v := by
  apply BitVec.eq_of_getLsbD_eq
  intro i hi
  rw [wordOfBytes_bit _ i hi, bytesOfWord_bit v 4 (i / 8) (i % 8) (by omega) (by omega)]
  congr 1
  omega

/-- The decoder's bytes of a word are Memory's. -/
theorem bytesOfWord4_eq (v : Word) : bytesOfWord4 v = bytesOfWord v 4 := by
  apply List.ext_getElem
  · rfl
  intro k h1 h2
  apply BitVec.eq_of_getLsbD_eq
  intro j hj
  have := bytesOfWord_bit v 4 k j (by simpa using h2) hj
  rw [List.getD_eq_getElem?_getD, List.getElem?_eq_getElem h2, Option.getD_some] at this
  rw [this]
  have hk : k < 4 := by simpa using h2
  interval_cases k <;> simp [bytesOfWord4, hj]

/-- The decoder's word of four bytes is Memory's. -/
theorem wordOfBytes4_eq (b0 b1 b2 b3 : Byte) : wordOfBytes4 b0 b1 b2 b3 = wordOfBytes [b0, b1, b2, b3] := by
  apply BitVec.eq_of_getLsbD_eq
  intro i hi
  rw [wordOfBytes_bit _ i hi]
  simp only [wordOfBytes4, BitVec.getLsbD_append]
  by_cases h0 : i < 8
  · simp [h0, Nat.div_eq_of_lt h0, Nat.mod_eq_of_lt h0]
  · by_cases h1 : i < 16
    · simp [h0, show i - 8 < 8 by omega, show i / 8 = 1 by omega, show i % 8 = i - 8 by omega]
    · by_cases h2 : i < 24
      · simp [h0, show ¬ i - 8 < 8 by omega, show i - 8 - 8 < 8 by omega, show i / 8 = 2 by omega,
          show i % 8 = i - 8 - 8 by omega]
      · simp [h0, show ¬ i - 8 < 8 by omega, show ¬ i - 8 - 8 < 8 by omega, show i / 8 = 3 by omega,
          show i % 8 = i - 8 - 8 - 8 by omega]

/-! ## Faults and steps -/

/-- Taking a fault answers a next state. -/
theorem raiseFault_next (c : FaultCode) (s t : State) : raiseFault c s = .next t ↔ t = s.enterFault c := by
  simp [raiseFault, eq_comm]

/-- A step from Ready whose fetch succeeds (R141). -/
theorem step_fetched (s : State) (w : Word) (hr : s.runState = .ready) (hf : s.fetchWord = some w) :
    step s = stepWord w (s.setQueue w) := by simp only [step, hr, hf]

/-- A step from Ready whose fetch raises (R142). -/
theorem step_unfetched (s : State) (hr : s.runState = .ready) (hf : s.fetchWord = none) :
    step s = .next (s.enterFault .addressOutOfBounds) := by simp only [step, hr, hf, raiseFault]

/-- A terminal state is kept (R153). -/
theorem step_terminal (s : State) (h : s.runState = .halted ∨ s.runState = .faulted) : step s = .next s := by
  rcases h with h | h <;> simp only [step, h]

/-- Everything a step can do (R148): nothing in a terminal state; a fault of the fetch; a fault of the decode; an instruction. -/
theorem step_next (s t : State) (h : step s = .next t) :
    (t = s ∧ (s.runState = .halted ∨ s.runState = .faulted)) ∨
    (s.runState = .ready ∧ s.fetchWord = none ∧ t = s.enterFault .addressOutOfBounds) ∨
    (∃ w e, s.runState = .ready ∧ s.fetchWord = some w ∧ decodeWord w = .error e ∧
      t = (s.setQueue w).enterFault .invalidInstruction) ∨
    (∃ w i, s.runState = .ready ∧ s.fetchWord = some w ∧ decodeWord w = .ok i ∧ exec i (s.setQueue w) = .next t) := by
  unfold step at h
  split at h
  · exact .inl ⟨by simpa [eq_comm] using h, .inl ‹_›⟩
  · exact .inl ⟨by simpa [eq_comm] using h, .inr ‹_›⟩
  · cases h
  · cases h
  · cases h
  · rename_i hr
    split at h
    · rename_i hf
      exact .inr (.inl ⟨hr, hf, (raiseFault_next _ _ _).mp h⟩)
    · rename_i w hf
      unfold stepWord at h
      split at h
      · rename_i e he
        exact .inr (.inr (.inl ⟨w, e, hr, hf, he, (raiseFault_next _ _ _).mp h⟩))
      · rename_i i hi
        exact .inr (.inr (.inr ⟨w, i, hr, hf, hi, h⟩))

end Sys2Proof.Machine
end

