-- ==== Sys2Proof/Laws/Meanings.lean ====
section
/-! SUPPORT. The shared operations of the meanings, each in one equation that says everything it can answer. -/

namespace Sys2Proof.Machine

/-- A float or bitwise result always completes. -/
theorem finishFloat_eq (ra : Reg) (r : Word) (s : State) :
    finishFloat ra r s = .next (((s.setReg ra r).setFlags (floatFlags r)).advance) := rfl

theorem finishBits_eq (ra : Reg) (r : Word) (c : Bool) (s : State) :
    finishBits ra r c s = .next (((s.setReg ra r).setFlags (bitFlags r c)).advance) := rfl

theorem finishMove_eq (ra : Reg) (v : Word) (s : State) : finishMove ra v s = .next ((s.setReg ra v).advance) := rfl

/-- A store completes exactly where its four bytes lie in Memory (R64). -/
theorem finishStore_eq (a : Nat) (v : Word) (s : State) :
    finishStore a v s =
      if a + 4 ≤ s.params.totalSize then .next (s.setMem (Memory.writeBytes s.mem a (bytesOfWord v 4))).advance
      else .next (s.enterFault .addressOutOfBounds) := by
  unfold finishStore
  split <;> rename_i h
  · rw [State.memWrite_none] at h
    rw [if_neg (by omega)]; rfl
  · rw [State.memWrite_some] at h
    rw [if_pos h.1, h.2]

/-- LODW (R204). -/
theorem execLodwRegAddr_eq (rg : Reg) (a : Word) (s : State) :
    execLodwRegAddr rg a s =
      if a.toNat + 4 ≤ s.params.totalSize then
        .next ((s.setReg rg (wordOfBytes (Memory.readBytes s.mem a.toNat 4))).advance)
      else .next (s.enterFault .addressOutOfBounds) := by
  unfold execLodwRegAddr
  split <;> rename_i h
  · rw [State.memRead_none] at h
    rw [if_neg (by omega)]; rfl
  · rw [State.memRead_some] at h
    rw [if_pos h.1, h.2]; rfl

/-- PUSH (R207), with the fault of its own `MemWrite` for a stack segment that leaves Memory. -/
theorem push_eq (src : Operand) (s : State) :
    push src s =
      if s.layout.inStack (((s.reg .sp).toNat : Int) - 4) then
        if (s.reg .sp).toNat - 4 + 4 ≤ s.params.totalSize then
          .next ((s.setMem (Memory.writeBytes s.mem ((s.reg .sp).toNat - 4) (bytesOfWord (src.value s) 4))).setReg .sp
            (s.reg .sp - 4)).advance
        else .next (s.enterFault .addressOutOfBounds)
      else .next (s.enterFault .stackOverflow) := by
  unfold push
  dsimp only
  split
  · split <;> rename_i h
    · rw [State.memWrite_none] at h
      rw [if_neg (by omega)]; rfl
    · rw [State.memWrite_some] at h
      rw [if_pos h.1, h.2]
  · rfl

/-- POP (R208), with the fault of its own `MemRead` for a stack segment that leaves Memory. -/
theorem execPopReg_eq (ra : Reg) (s : State) :
    execPopReg ra s =
      if s.layout.inStack ((s.reg .sp).toNat : Int) then
        if (s.reg .sp).toNat + 4 ≤ s.params.totalSize then
          .next (((s.setReg .sp (s.reg .sp + 4)).setReg ra
            (wordOfBytes (Memory.readBytes s.mem (s.reg .sp).toNat 4))).advance)
        else .next (s.enterFault .addressOutOfBounds)
      else .next (s.enterFault .stackUnderflow) := by
  unfold execPopReg
  dsimp only
  split
  · split <;> rename_i h
    · rw [State.memRead_none] at h
      rw [if_neg (by omega)]; rfl
    · rw [State.memRead_some] at h
      rw [if_pos h.1, h.2]; rfl
  · rfl

/-- INSI and INSW (R269): the bytes are gone from the channel either way (R274). -/
theorem stringIn_eq (a : Nat) (s : State) :
    stringIn a s =
      if a + (stringPart s.chanHead).length + 1 ≤ s.params.totalSize then
        .next ((s.chanDrop.setMem (Memory.writeBytes s.mem a (stringPart s.chanHead ++ [0]))).advance)
      else .next (s.chanDrop.enterFault .addressOutOfBounds) := by
  unfold stringIn
  dsimp only
  split <;> rename_i h
  · rw [State.memWriteBytes_none] at h
    simp only [List.length_append, List.length_singleton, State.chanDrop_params] at h
    rw [if_neg (by omega)]; rfl
  · rw [State.memWriteBytes_some] at h
    obtain ⟨h, rfl⟩ := h
    simp only [List.length_append, List.length_singleton, State.chanDrop_params] at h
    rw [if_pos (by omega)]; rfl

/-- OUTI and OUTW complete exactly where a terminator stands at or after their address (R271). -/
theorem stringOut_next (a n : Nat) (s : State) (h1 : a + n < s.params.totalSize) (h2 : s.byteAt (a + n) = 0)
    (h3 : ∀ k < n, s.byteAt (a + k) ≠ 0) :
    stringOut a s = .next ((s.chanWrite (Memory.readBytes s.mem a n)).advance) := by
  have h := (Memory.stringLength_some s.mem a (s.params.totalSize - a) n).mpr ⟨by omega, h2, h3⟩
  simp only [stringOut, h]

theorem stringOut_fault (a : Nat) (s : State) (h : ∀ k, a ≤ k → k < s.params.totalSize → s.byteAt k ≠ 0) :
    stringOut a s = .next (s.enterFault .addressOutOfBounds) := by
  have h := (Memory.stringLength_none s.mem a (s.params.totalSize - a)).mpr
    (fun k hk => h (a + k) (by omega) (by omega))
  simp only [stringOut, h, raiseFault]

/-- CALL (R233). -/
theorem execCallAddr_eq (a : Word) (s : State) :
    execCallAddr a s =
      if s.callStackFull then .next (s.enterFault .stackOverflow)
      else .next ((s.callPush (s.pc + 4)).redirect a) := rfl

/-- RET with an address on the Call Stack, and without (R234). -/
theorem execRetNone_next (a : Word) (rest : List Word) (s : State) (h : s.callStack = a :: rest) :
    execRetNone s = .next (s.callDrop.redirect a) := by simp only [execRetNone, h]

theorem execRetNone_fault (s : State) (h : s.callStack = []) :
    execRetNone s = .next (s.enterFault .stackUnderflow) := by simp only [execRetNone, h, raiseFault]

/-- When the Call Stack is full (R41). -/
theorem State.callStackFull_iff (s : State) :
    s.callStackFull = true ↔ ∃ c, s.params.callStackCapacity = some c ∧ c ≤ s.callStack.length := by
  unfold State.callStackFull
  split <;> simp_all

/-- What construction answers (R370, R10). -/
theorem hostNew_ok_iff (p : Config.Params) (s : State) :
    hostNew p = .ok s ↔ (Config.minTotalSize ≤ p.totalSize ∧ p.totalSize ≤ Config.maxTotalSize) ∧
      p.capacityLegal ∧ s = State.constructed p := by
  unfold hostNew
  split
  · split <;> simp_all [eq_comm]
  · simp_all

end Sys2Proof.Machine
end

