-- ==== Sys2Proof/Laws/PerInstr.lean ====
section
/-! SUPPORT. One lemma per constructor of Instr for the families of LAWS.json. -/

namespace Sys2Proof.Laws.OpcodeField

/-- The opcode field of the encoded word is the opcode of the row's mnemonic (R102, R104). -/
def Statement (i : Instr) : Prop := wordOpcode (encode i) = i.mnemonic.opcode

theorem addwReg (ra : Reg) (rb : Reg) : Statement (.addwReg ra rb) := wordOpcode_encodeRS _ _ _
theorem addwImmInt (ra : Reg) (v : Word) : Statement (.addwImmInt ra v) := wordOpcode_encodeRS _ _ _
theorem addwImmFlt (ra : Reg) (v : Word) : Statement (.addwImmFlt ra v) := wordOpcode_encodeRS _ _ _
theorem subwReg (ra : Reg) (rb : Reg) : Statement (.subwReg ra rb) := wordOpcode_encodeRS _ _ _
theorem subwImmInt (ra : Reg) (v : Word) : Statement (.subwImmInt ra v) := wordOpcode_encodeRS _ _ _
theorem subwImmFlt (ra : Reg) (v : Word) : Statement (.subwImmFlt ra v) := wordOpcode_encodeRS _ _ _
theorem mulReg (ra : Reg) (rb : Reg) : Statement (.mulReg ra rb) := wordOpcode_encodeRS _ _ _
theorem mulImmInt (ra : Reg) (v : Word) : Statement (.mulImmInt ra v) := wordOpcode_encodeRS _ _ _
theorem mulImmFlt (ra : Reg) (v : Word) : Statement (.mulImmFlt ra v) := wordOpcode_encodeRS _ _ _
theorem incReg (ra : Reg) : Statement (.incReg ra) := wordOpcode_encodeR _ _
theorem decReg (ra : Reg) : Statement (.decReg ra) := wordOpcode_encodeR _ _
theorem negReg (ra : Reg) : Statement (.negReg ra) := wordOpcode_encodeR _ _
theorem andReg (ra : Reg) (rb : Reg) : Statement (.andReg ra rb) := wordOpcode_encodeRS _ _ _
theorem andImmInt (ra : Reg) (v : Word) : Statement (.andImmInt ra v) := wordOpcode_encodeRS _ _ _
theorem andImmFlt (ra : Reg) (v : Word) : Statement (.andImmFlt ra v) := wordOpcode_encodeRS _ _ _
theorem orReg (ra : Reg) (rb : Reg) : Statement (.orReg ra rb) := wordOpcode_encodeRS _ _ _
theorem orImmInt (ra : Reg) (v : Word) : Statement (.orImmInt ra v) := wordOpcode_encodeRS _ _ _
theorem orImmFlt (ra : Reg) (v : Word) : Statement (.orImmFlt ra v) := wordOpcode_encodeRS _ _ _
theorem xorReg (ra : Reg) (rb : Reg) : Statement (.xorReg ra rb) := wordOpcode_encodeRS _ _ _
theorem xorImmInt (ra : Reg) (v : Word) : Statement (.xorImmInt ra v) := wordOpcode_encodeRS _ _ _
theorem xorImmFlt (ra : Reg) (v : Word) : Statement (.xorImmFlt ra v) := wordOpcode_encodeRS _ _ _
theorem notReg (ra : Reg) : Statement (.notReg ra) := wordOpcode_encodeR _ _
theorem shlReg (ra : Reg) (rb : Reg) : Statement (.shlReg ra rb) := wordOpcode_encodeRS _ _ _
theorem shlImmInt (ra : Reg) (v : Word) : Statement (.shlImmInt ra v) := wordOpcode_encodeRS _ _ _
theorem shlImmFlt (ra : Reg) (v : Word) : Statement (.shlImmFlt ra v) := wordOpcode_encodeRS _ _ _
theorem shrReg (ra : Reg) (rb : Reg) : Statement (.shrReg ra rb) := wordOpcode_encodeRS _ _ _
theorem shrImmInt (ra : Reg) (v : Word) : Statement (.shrImmInt ra v) := wordOpcode_encodeRS _ _ _
theorem shrImmFlt (ra : Reg) (v : Word) : Statement (.shrImmFlt ra v) := wordOpcode_encodeRS _ _ _
theorem moviImmInt (ra : Reg) (v : Word) : Statement (.moviImmInt ra v) := wordOpcode_encodeRS _ _ _
theorem moviImmFlt (ra : Reg) (v : Word) : Statement (.moviImmFlt ra v) := wordOpcode_encodeRS _ _ _
theorem movwReg (ra : Reg) (rb : Reg) : Statement (.movwReg ra rb) := wordOpcode_encodeRS _ _ _
theorem lodiImmInt (ra : Reg) (v : Word) : Statement (.lodiImmInt ra v) := wordOpcode_encodeRS _ _ _
theorem lodiImmFlt (ra : Reg) (v : Word) : Statement (.lodiImmFlt ra v) := wordOpcode_encodeRS _ _ _
theorem lodwRegAddr (rg : Reg) (a : Word) : Statement (.lodwRegAddr rg a) := wordOpcode_encodeRA _ _ _
theorem striImmInt (ra : Reg) (v : Word) : Statement (.striImmInt ra v) := wordOpcode_encodeRS _ _ _
theorem striImmFlt (ra : Reg) (v : Word) : Statement (.striImmFlt ra v) := wordOpcode_encodeRS _ _ _
theorem strwRegAddr (a : Word) (rg : Reg) : Statement (.strwRegAddr a rg) := wordOpcode_encodeRA _ _ _
theorem pushReg (rb : Reg) : Statement (.pushReg rb) := wordOpcode_encodeS _ _
theorem pushImmInt (v : Word) : Statement (.pushImmInt v) := wordOpcode_encodeS _ _
theorem pushImmFlt (v : Word) : Statement (.pushImmFlt v) := wordOpcode_encodeS _ _
theorem popReg (ra : Reg) : Statement (.popReg ra) := wordOpcode_encodeR _ _
theorem xcghReg (ra : Reg) (rb : Reg) : Statement (.xcghReg ra rb) := wordOpcode_encodeRS _ _ _
theorem cmpwReg (ra : Reg) (rb : Reg) : Statement (.cmpwReg ra rb) := wordOpcode_encodeRS _ _ _
theorem cmpwImmInt (ra : Reg) (v : Word) : Statement (.cmpwImmInt ra v) := wordOpcode_encodeRS _ _ _
theorem cmpwImmFlt (ra : Reg) (v : Word) : Statement (.cmpwImmFlt ra v) := wordOpcode_encodeRS _ _ _
theorem jmpAddr (a : Word) : Statement (.jmpAddr a) := wordOpcode_encodeA _ _
theorem callAddr (a : Word) : Statement (.callAddr a) := wordOpcode_encodeA _ _
theorem retNone : Statement (.retNone) := wordOpcode_encodeN _
theorem jeAddr (a : Word) : Statement (.jeAddr a) := wordOpcode_encodeA _ _
theorem jneAddr (a : Word) : Statement (.jneAddr a) := wordOpcode_encodeA _ _
theorem jgtAddr (a : Word) : Statement (.jgtAddr a) := wordOpcode_encodeA _ _
theorem jgeAddr (a : Word) : Statement (.jgeAddr a) := wordOpcode_encodeA _ _
theorem jltAddr (a : Word) : Statement (.jltAddr a) := wordOpcode_encodeA _ _
theorem jleAddr (a : Word) : Statement (.jleAddr a) := wordOpcode_encodeA _ _
theorem jsAddr (a : Word) : Statement (.jsAddr a) := wordOpcode_encodeA _ _
theorem jcoAddr (a : Word) : Statement (.jcoAddr a) := wordOpcode_encodeA _ _
theorem haltNone : Statement (.haltNone) := wordOpcode_encodeN _
theorem inReg (ra : Reg) : Statement (.inReg ra) := wordOpcode_encodeR _ _
theorem outReg (rb : Reg) : Statement (.outReg rb) := wordOpcode_encodeS _ _
theorem outImmInt (v : Word) : Statement (.outImmInt v) := wordOpcode_encodeS _ _
theorem outImmFlt (v : Word) : Statement (.outImmFlt v) := wordOpcode_encodeS _ _
theorem insiAddr (a : Word) : Statement (.insiAddr a) := wordOpcode_encodeA _ _
theorem inswReg (ra : Reg) : Statement (.inswReg ra) := wordOpcode_encodeR _ _
theorem outiAddr (a : Word) : Statement (.outiAddr a) := wordOpcode_encodeA _ _
theorem outwReg (ra : Reg) : Statement (.outwReg ra) := wordOpcode_encodeR _ _

end Sys2Proof.Laws.OpcodeField
end

