-- ==== Sys2Proof/Tests/Slice0.lean ====
section
/-! SUPPORT. The model's own tests: decoding, one step of each instruction on the values of spec/95_test_vectors.md, and a
witness for every obligation that has hypotheses. -/

namespace Sys2Proof.Tests

open Sys2Proof.Machine

/-! ## WellFormed refuses (R112, R114) -/

/-- 524288 needs 21 bits as a signed number. -/
theorem test_wf_integer_immediate : (Instr.moviImmInt .ax 524288).wf = false := by decide
/-- The pattern of 1.1, 3F8CCCCD, has low bits that are not zero. -/
theorem test_wf_float_immediate : (Instr.moviImmFlt .ax 0x3F8CCCCD).wf = false := by decide
/-- 0x800000 needs 24 bits. -/
theorem test_wf_address : (Instr.jmpAddr 0x800000).wf = false := by decide
/-- SP is not one of AX to HX. -/
theorem test_wf_general_register : (Instr.strwRegAddr 0 .sp).wf = false := by decide
/-- The ends of what is representable. -/
theorem test_wf_accepts : (Instr.moviImmInt .ax 0xFFF80000).wf = true ∧ (Instr.moviImmInt .ax 524287).wf = true ∧
    (Instr.jmpAddr 0x7FFFFF).wf = true ∧ (Instr.strwRegAddr 0 .hx).wf = true := by decide

/-! ## Decoding: the words of 95_test_vectors.md section 2 and of 30_encoding.md section 8, and for the rows these leave out words
written from R103 to R110 -/

/-- Every word decodes to its instruction. -/
def decodesAll (rows : List (Nat × Instr)) : Bool := rows.all (fun r => decodeTableWord 32 r.1 == some r.2)

theorem test_decode_arithmetic : decodesAll [
    (0x04000001, .addwReg .ax .bx), (0x04100005, .addwImmInt .ax 5), (0x04640000, .addwImmFlt .bx 0x40000000),
    (0x08C0000F, .subwReg .dx .es), (0x081FFFFF, .subwImmInt .ax 0xFFFFFFFF), (0x08241200, .subwImmFlt .ax 0x41200000),
    (0x0C000001, .mulReg .ax .bx), (0x0C180000, .mulImmInt .ax 0xFFF80000), (0x0C2C0200, .mulImmFlt .ax 0xC0200000),
    (0x10000000, .incReg .ax), (0x17C00000, .decReg .es), (0x18000000, .negReg .ax)] = true := by decide

theorem test_decode_bitwise : decodesAll [
    (0x20000001, .andReg .ax .bx), (0x201FFFFF, .andImmInt .ax 0xFFFFFFFF), (0x2023FC00, .andImmFlt .ax 0x3FC00000),
    (0x24000000, .orReg .ax .ax), (0x24100003, .orImmInt .ax 3), (0x25A80000, .orImmFlt .gx 0x80000000),
    (0x28000000, .xorReg .ax .ax), (0x28180000, .xorImmInt .ax 0xFFF80000), (0x2A2FFFFF, .xorImmFlt .sp 0xFFFFF000),
    (0x2C000000, .notReg .ax), (0x30000001, .shlReg .ax .bx), (0x3010001F, .shlImmInt .ax 31),
    (0x3023F800, .shlImmFlt .ax 0x3F800000), (0x3400000B, .shrReg .ax .di), (0x341FFFFF, .shrImmInt .ax 0xFFFFFFFF),
    (0x3423F800, .shrImmFlt .ax 0x3F800000)] = true := by decide

theorem test_decode_moves : decodesAll [
    (0x42110000, .moviImmInt .sp 0x10000), (0x40241200, .moviImmFlt .ax 0x41200000), (0x46C00000, .movwReg .di .ax),
    (0x491FFFFE, .lodiImmInt .ex 0xFFFFFFFE), (0x4A63F800, .lodiImmFlt .bp 0x3F800000),
    (0x4C7FFFFF, .lodwRegAddr .ax 0x7FFFFF), (0x50500001, .striImmInt .bx 1), (0x5063FC00, .striImmFlt .bx 0x3FC00000),
    (0x57FFFFFF, .strwRegAddr 0x7FFFFF .hx), (0x58000008, .pushReg .sp), (0x58100007, .pushImmInt 7),
    (0x58240200, .pushImmFlt 0x40200000), (0x5E000000, .popReg .sp), (0x60000001, .xcghReg .ax .bx)] = true := by decide

theorem test_decode_control : decodesAll [
    (0x80000001, .cmpwReg .ax .bx), (0x82900003, .cmpwImmInt .si 3), (0x8023F800, .cmpwImmFlt .ax 0x3F800000),
    (0x84010000, .jmpAddr 0x10000), (0x88000010, .callAddr 16), (0x8C000000, .retNone), (0x90000014, .jeAddr 20),
    (0x94000008, .jneAddr 8), (0x98000014, .jgtAddr 20), (0x9C000020, .jgeAddr 32), (0xA0000020, .jltAddr 32),
    (0xA4000020, .jleAddr 32), (0xA8000040, .jsAddr 64), (0xAC7FFFFF, .jcoAddr 0x7FFFFF), (0xC0000000, .haltNone)] = true := by decide

theorem test_decode_input_output : decodesAll [
    (0xE0800000, .inReg .cx), (0xE4000000, .outReg .ax), (0xE4100041, .outImmInt 65), (0xE4240000, .outImmFlt 0x40000000),
    (0xE800EFF4, .insiAddr 0xEFF4), (0xEE800000, .inswReg .si), (0xF000EFFC, .outiAddr 0xEFFC), (0xF6800000, .outwReg .si)] = true := by decide

/-- The illegal words of 95_test_vectors.md section 2.2 and 30_encoding.md section 8, each with its reason (R118). -/
theorem test_decode_illegal :
    [0x00000000, 0xFFFFFFFF, 0x1C000000, 0x3C000000, 0xC4000000, 0xF8000000].map decodeWord
      = List.replicate 6 (.error .unknownOpcode) ∧
    [0xC0000001, 0x8C000001, 0x10000001, 0xE0000001, 0x04000010, 0x20000010, 0x58400000, 0x84800000].map decodeWord
      = List.replicate 8 (.error .mustBeZero) ∧
    [0x04300000, 0x043FFFFF, 0x20300000].map decodeWord = List.replicate 3 (.error .reservedSourceKind) ∧
    [0x40000001, 0x40000005, 0x44100001, 0x60100001].map decodeWord = List.replicate 4 (.error .sourceKindNotAllowed) := by
  decide
/-- Too few bytes are rejected by name, and what follows a word is left. -/
theorem test_decode_bytes : decode [0x00, 0x12, 0x24] = .error .truncated ∧
    decode [0x00, 0x12, 0x24, 0x40, 0x07] = .ok (.moviImmFlt .ax 0x41200000, [0x07]) := by decide

/-! ## One step -/

/-- A machine with two registers set, both stacks empty: the vectors' start. -/
def start (ax bx : Word) : State := (State.reset.setReg .ax ax).setReg .bx bx

/-- The same with SP set. -/
def startSp (sp : Word) : State := (start 0x12345678 0).setReg .sp sp

/-- The same with bytes at an address. -/
def startMem (ax : Word) (a : Nat) (bs : List Byte) : State :=
  (start ax 0).setMem (Memory.writeBytes [] a bs)

/-- The same with one `read()` pending. -/
def startInput (ax : Word) (bs : List Byte) : State := (start ax 0).supplyInput [bs]

/-- One step on the word answers a next state with the property. -/
def steps (w : Nat) (s : State) (p : State → Bool) : Bool :=
  match step (s.withFetchWord 32 w) with
  | .next t => p t
  | .fault _ => false
  | .refused _ => false

/-- AX and FLAGS after a flag writer, and the default advance. -/
def gives (ax flags : Word) (t : State) : Bool := t.reg .ax == ax && t.flags == flags && t.pc == 4 && t.runState == .ready

/-- Faulted with this code, PC and AX as before. -/
def faults (c : FaultCode) (ax : Word) (t : State) : Bool :=
  t.runState == .faulted && t.faultCode == c && t.pc == 0 && t.reg .ax == ax && t.callStack == [] && t.channel.output == []

/-- The bytes at an address. -/
def holds (a : Nat) (bs : List Byte) (t : State) : Bool := Memory.readBytes t.mem a bs.length == bs

/-! ### 95_test_vectors.md section 3 -/

theorem test_addw_rounds_to_even :
    steps 0x04000001 (start 0x4B800001 0x3F800000) (gives 0x4B800002 0) = true ∧
    steps 0x04000001 (start 0x4B000002 0x3F000000) (gives 0x4B000002 0) = true := by decide
theorem test_addw_zeros_and_overflow :
    steps 0x04000001 (start 0x80000000 0x80000000) (gives 0x80000000 1) = true ∧
    steps 0x04000001 (start 0x3F800000 0xBF800000) (gives 0 1) = true ∧
    steps 0x04000001 (start 0x7F7FFFFF 0x7F7FFFFF) (gives 0x7F800000 0) = true := by decide
/-- The integer immediate 3 is a subnormal; the float one here is 2.0. -/
theorem test_addw_immediates :
    steps 0x04100003 (start 0x41200000 0) (gives 0x41200000 0) = true ∧
    steps 0x04240000 (start 0x3F800000 0) (gives 0x40400000 0) = true := by decide
/-- Infinity less infinity completes; which NaN it gives is free (log 3). -/
theorem test_addw_invalid_is_unordered :
    steps 0x04000001 (start 0x7F800000 0xFF800000) (fun t => t.pc == 4 && t.runState == .ready) = true := by decide
theorem test_subw_gradual_underflow :
    steps 0x08000001 (start 0x00800000 1) (gives 0x007FFFFF 0) = true ∧
    steps 0x08000001 (start 0x80000000 0) (gives 0x80000000 1) = true := by decide
theorem test_subw_sign_and_immediates :
    steps 0x08000001 (start 0x40A00000 0x41200000) (gives 0xC0A00000 2) = true ∧
    steps 0x08241200 (start 0x41200000 0) (gives 0 1) = true ∧
    steps 0x08100001 (start 0x00800000 0) (gives 0x007FFFFF 0) = true := by decide
theorem test_mul_ties :
    steps 0x0C000001 (start 1 0x3F000000) (gives 0 1) = true ∧
    steps 0x0C000001 (start 3 0x3F000000) (gives 2 0) = true := by decide
theorem test_mul_signs_and_immediates :
    steps 0x0C2C0200 (start 0x40400000 0) (gives 0xC0F00000 2) = true ∧
    steps 0x0C100000 (start 0xBF800000 0) (gives 0x80000000 1) = true ∧
    steps 0x0C000001 (start 0x7F7FFFFF 0x40000000) (gives 0x7F800000 0) = true := by decide
theorem test_inc_is_a_float_increment :
    steps 0x10000000 (start 5 0) (gives 0x3F800000 0) = true ∧
    steps 0x10000000 (start 0xFF800000 0) (gives 0xFF800000 2) = true := by decide
theorem test_dec :
    steps 0x14000000 (start 0 0) (gives 0xBF800000 2) = true ∧
    steps 0x14000000 (start 0x3F800000 0) (gives 0 1) = true := by decide
theorem test_neg_flips_the_sign_alone :
    steps 0x18000000 (start 0xFFC12345 0) (gives 0x7FC12345 4) = true ∧
    steps 0x18000000 (start 0 0) (gives 0x80000000 1) = true := by decide

/-! ### 95_test_vectors.md section 4 -/

theorem test_and :
    steps 0x20000001 (start 0xC 0xA) (gives 8 0) = true ∧
    steps 0x201FFFFF (start 0x80000001 0) (gives 0x80000001 2) = true ∧
    steps 0x2023FC00 (start 0xFFFFFFFF 0) (gives 0x3FC00000 0) = true := by decide
theorem test_or :
    steps 0x24000001 (start 0 0) (gives 0 1) = true ∧
    steps 0x24100003 (start 8 0) (gives 0xB 0) = true ∧
    steps 0x24280000 (start 1 0) (gives 0x80000001 2) = true := by decide
theorem test_xor :
    steps 0x28000000 (start 77 0) (gives 0 1) = true ∧
    steps 0x28180000 (start 0 0) (gives 0xFFF80000 2) = true ∧
    steps 0x2823FC00 (start 0x3FC00000 0) (gives 0 1) = true := by decide
theorem test_not :
    steps 0x2C000000 (start 0xC 0) (gives 0xFFFFFFF3 2) = true ∧
    steps 0x2C000000 (start 0xFFFFFFFF 0) (gives 0 1) = true := by decide
theorem test_shl_carry :
    steps 0x30100001 (start 0x80000001 0) (gives 2 4) = true ∧
    steps 0x3010001F (start 3 0) (gives 0x80000000 6) = true ∧
    steps 0x30100020 (start 3 0) (gives 3 0) = true := by decide
/-- The amount is read before the write, and masked to five bits. -/
theorem test_shl_amount :
    steps 0x30000000 (start 4 0) (gives 0x40 0) = true ∧
    steps 0x30000001 (start 1 0xFFFFFFE4) (gives 0x10 0) = true ∧
    steps 0x3023F800 (start 3 0) (gives 3 0) = true := by decide
theorem test_shr_carry :
    steps 0x34100004 (start 0xF0000008 0) (gives 0x0F000000 4) = true ∧
    steps 0x341FFFFF (start 0xC0000000 0) (gives 1 4) = true := by decide
theorem test_shr_amount :
    steps 0x3423F800 (start 0xC0000000 0) (gives 0xC0000000 2) = true ∧
    steps 0x34000001 (start 0x80000001 0x21) (gives 0x40000000 4) = true := by decide

/-! ### 95_test_vectors.md section 5 -/

theorem test_movi :
    steps 0x401FFFFF (start 0 0) (gives 0xFFFFFFFF 0) = true ∧
    steps 0x40241200 (start 0 0) (gives 0x41200000 0) = true := by decide
theorem test_movw :
    steps 0x46C00000 (start 9 0) (fun t => t.reg .di == 9 && t.reg .ax == 9 && t.flags == 0) = true := by decide
theorem test_lodi :
    steps 0x491FFFFE (start 0 0) (fun t => t.reg .ex == 0xFFFFFFFE) = true ∧
    steps 0x4823F800 (start 0 0) (gives 0x3F800000 0) = true := by decide
theorem test_lodw_unaligned :
    steps 0x4C000101 (startMem 0 0x100 [0x11, 0x22, 0x33, 0x44, 0x55, 0x66, 0x77, 0x88]) (gives 0x55443322 0) = true := by decide
theorem test_lodw_past_the_end :
    steps 0x4C00FFFD (start 7 0) (faults .addressOutOfBounds 7) = true := by decide
theorem test_stri :
    steps 0x501FFFFF (start 0x300 0) (holds 0x300 [0xFF, 0xFF, 0xFF, 0xFF]) = true ∧
    steps 0x5063FC00 (start 0 0xEFFC) (holds 0xEFFC [0x00, 0x00, 0xC0, 0x3F]) = true := by decide
theorem test_stri_out_of_bounds :
    steps 0x50100001 (start 0xFFFD 0) (fun t => faults .addressOutOfBounds 0xFFFD t && holds 0xFFFD [0, 0, 0] t) = true ∧
    steps 0x50500001 (start 0 0xFFFFFFFF) (faults .addressOutOfBounds 0) = true := by decide
theorem test_strw :
    steps 0x5400EFFC (start 0x12345678 0) (holds 0xEFFC [0x78, 0x56, 0x34, 0x12]) = true ∧
    steps 0x5400FFFC (start 0x12345678 0) (holds 0xFFFC [0x78, 0x56, 0x34, 0x12]) = true := by decide
/-- R206, R65: one byte beyond the last word. -/
theorem test_strw_past_the_end :
    steps 0x5400FFFD (start 7 0) (faults .addressOutOfBounds 7) = true := by decide
theorem test_push :
    steps 0x58000008 (startSp 0xF004) (fun t => t.reg .sp == 0xF000 && holds 0xF000 [0x04, 0xF0, 0x00, 0x00] t) = true ∧
    steps 0x58100001 (startSp 0xF005) (fun t => t.reg .sp == 0xF001 && holds 0xF001 [1, 0, 0, 0] t) = true ∧
    steps 0x58240200 (startSp 0xFFFC) (fun t => t.reg .sp == 0xFFF8 &&
      holds 0xFFF8 [0x00, 0x00, 0x20, 0x40] t) = true := by decide
theorem test_push_overflow :
    steps 0x58100001 (startSp 0xF003) (faults .stackOverflow 0x12345678) = true ∧
    steps 0x58000000 (startSp 0) (fun t => faults .stackOverflow 0x12345678 t && t.reg .sp == 0) = true := by decide
theorem test_pop :
    steps 0x5E000000 ((startMem 0 0xFFFC [0x00, 0xF0, 0x00, 0x00]).setReg .sp 0xFFFC)
      (fun t => t.reg .sp == 0xF000 && t.pc == 4) = true ∧
    steps 0x5C000000 ((startMem 0 0xFFF8 [0x00, 0x00, 0x20, 0x40]).setReg .sp 0xFFF8)
      (fun t => gives 0x40200000 0 t && t.reg .sp == 0xFFFC) = true := by decide
theorem test_pop_underflow :
    steps 0x5C000000 (startSp 0xFFFE) (faults .stackUnderflow 0x12345678) = true ∧
    steps 0x5C000000 (startSp 0x10000) (faults .stackUnderflow 0x12345678) = true := by decide
theorem test_xcgh :
    steps 0x60000001 (start 1 2) (fun t => gives 2 0 t && t.reg .bx == 1) = true ∧
    steps 0x60800002 (start 1 2) (gives 1 0) = true := by decide

/-! ### 95_test_vectors.md sections 6 and 7 -/

theorem test_cmpw_by_value :
    steps 0x80000001 (start 0 0x80000000) (gives 0 1) = true ∧
    steps 0x80000001 (start 0x80000001 0) (gives 0x80000001 2) = true ∧
    steps 0x80000001 (start 0x7F800000 0x7F800000) (gives 0x7F800000 1) = true := by decide
theorem test_cmpw_unordered_and_immediates :
    steps 0x80000000 (start 0x7FC00000 0) (gives 0x7FC00000 4) = true ∧
    steps 0x80100002 (start 1 0) (gives 1 2) = true ∧
    steps 0x80240A00 (start 0x41200000 0) (gives 0x41200000 0) = true := by decide

/-- A start with these flags. -/
def startFlags (fl : Word) : State := (start 0 0).setFlags fl

/-- PC after the step, the flags kept; the queue is empty exactly where PC was redirected. -/
def goesTo (pc fl : Word) (t : State) : Bool := t.pc == pc && t.flags == fl && (t.queue == none) == (pc != 4)

theorem test_je :
    steps 0x90000014 (startFlags 1) (goesTo 20 1) = true ∧
    steps 0x90000014 (startFlags 0) (goesTo 4 0) = true := by decide
theorem test_jne :
    steps 0x94000008 (startFlags 0) (goesTo 8 0) = true ∧
    steps 0x94000008 (startFlags 1) (goesTo 4 1) = true := by decide
theorem test_jgt :
    steps 0x98000014 (startFlags 0) (goesTo 20 0) = true ∧
    steps 0x98000014 (startFlags 1) (goesTo 4 1) = true ∧
    steps 0x98000014 (startFlags 4) (goesTo 4 4) = true ∧
    steps 0x98000014 (startFlags 2) (goesTo 4 2) = true := by decide
theorem test_jge :
    steps 0x9C000020 (startFlags 1) (goesTo 32 1) = true ∧
    steps 0x9C000020 (startFlags 4) (goesTo 4 4) = true ∧
    steps 0x9C000020 (startFlags 2) (goesTo 4 2) = true := by decide
theorem test_jlt :
    steps 0xA0000020 (startFlags 2) (goesTo 32 2) = true ∧
    steps 0xA0000020 (startFlags 0) (goesTo 4 0) = true := by decide
theorem test_jle :
    steps 0xA4000020 (startFlags 1) (goesTo 32 1) = true ∧
    steps 0xA4000020 (startFlags 2) (goesTo 32 2) = true ∧
    steps 0xA4000020 (startFlags 0) (goesTo 4 0) = true := by decide
theorem test_js :
    steps 0xA8000040 (startFlags 2) (goesTo 64 2) = true ∧
    steps 0xA8000040 (startFlags 5) (goesTo 4 5) = true := by decide
theorem test_jco :
    steps 0xAC000024 (startFlags 4) (goesTo 36 4) = true ∧
    steps 0xAC000024 (startFlags 3) (goesTo 4 3) = true := by decide
theorem test_jmp :
    steps 0x84010000 (start 0 0) (goesTo 0x10000 0) = true := by decide
theorem test_jmp_out_then_fetch_faults :
    (match step ({ start 0 0 with pc := 0x10000 } : State) with
      | .next t => t.runState == .faulted && t.faultCode == .addressOutOfBounds && t.pc == 0x10000 && t.queue == none
      | _ => false) = true := by decide
theorem test_call :
    steps 0x88000010 ({ start 0 0 with pc := 4 })
      (fun t => t.callStack == [8] && t.pc == 16 && t.queue == none && t.reg .sp == 0) = true := by decide
theorem test_call_at_capacity :
    steps 0x88000000 ({ start 0 0 with params := { totalSize := 65536, callStackCapacity := some 2 }, callStack := [4, 4] })
      (fun t => t.runState == .faulted && t.faultCode == .stackOverflow && t.callStack == [4, 4] && t.pc == 0) = true := by decide
theorem test_ret :
    steps 0x8C000000 ({ start 0 0 with pc := 20, callStack := [8] })
      (fun t => t.callStack == [] && t.pc == 8 && t.queue == none) = true := by decide
theorem test_ret_underflow :
    steps 0x8C000000 (start 3 0) (fun t => faults .stackUnderflow 3 t && t.queue == some 0x8C000000) = true := by decide
theorem test_halt :
    steps 0xC0000000 ({ start 0 0 with pc := 0x18, callStack := [4, 12] })
      (fun t => t.runState == .halted && t.pc == 0x1C && t.faultCode == .none && t.queue == some 0xC0000000 &&
      t.callStack == [4, 12]) = true := by decide
/-- R371: the word at 0 is all zeros. -/
theorem test_no_program_loaded :
    (match step State.reset with
      | .next t => faults .invalidInstruction 0 t && t.queue == some 0
      | _ => false) = true := by decide

/-! ### 95_test_vectors.md section 8 -/

theorem test_in :
    steps 0xE0000000 (startInput 9 [0x01, 0x02]) (gives 0x0201 0) = true ∧
    steps 0xE0400000 (startInput 9 [0x11, 0x22, 0x33, 0x44, 0x55, 0x66])
      (fun t => t.reg .bx == 0x44332211 && t.channel.input == []) = true := by decide
theorem test_in_exhausted :
    steps 0xE0000000 (start 9 0) (gives 0 0) = true := by decide
theorem test_out :
    steps 0xE4000000 (start 0x3FC00000 0) (fun t => t.channel.output == [[0x00, 0x00, 0xC0, 0x3F]]) = true ∧
    steps 0xE41FFFFF (start 0 0) (fun t => t.channel.output == [[0xFF, 0xFF, 0xFF, 0xFF]]) = true ∧
    steps 0xE4240000 (start 0 0) (fun t => t.channel.output == [[0x00, 0x00, 0x00, 0x40]]) = true := by decide
theorem test_insi :
    steps 0xE800FFFD (startInput 0 [0x61, 0x62]) (fun t => holds 0xFFFD [0x61, 0x62, 0x00] t && t.runState == .ready) = true ∧
    steps 0xE8000300 ((startMem 0 0x300 [0xFF, 0xFF]).supplyInput [[]]) (holds 0x300 [0x00, 0xFF]) = true := by decide
theorem test_insi_out_of_bounds :
    steps 0xE800FFFD (startInput 0 [0x61, 0x62, 0x63])
      (fun t => faults .addressOutOfBounds 0 t && holds 0xFFFD [0, 0, 0] t && t.channel.input == []) = true := by decide
theorem test_insw :
    steps 0xEE800000 ((startInput 0 [0x68, 0x65, 0x00, 0x6C, 0x6C, 0x6F]).setReg .si 0x100)
      (fun t => holds 0x100 [0x68, 0x65, 0x00, 0x00] t && t.reg .si == 0x100) = true := by decide
theorem test_outi :
    steps 0xF000EFFC (startMem 0 0xEFFC [0x48, 0x69, 0x0A, 0x00]) (fun t => t.channel.output == [[0x48, 0x69, 0x0A]]) = true ∧
    steps 0xF0000200 (start 0 0) (fun t => t.channel.output == [[]]) = true := by decide
theorem test_outi_without_terminator :
    steps 0xF000FFFC (startMem 0 0xFFFC [0x41, 0x41, 0x41, 0x41]) (faults .addressOutOfBounds 0) = true := by decide
theorem test_outw :
    steps 0xF6800000 ((startMem 0 0x100 [0x68, 0x65]).setReg .si 0x100) (fun t => t.channel.output == [[0x68, 0x65]]) = true ∧
    steps 0xF4000000 (start 0xFFFFFFFF 0) (faults .addressOutOfBounds 0xFFFFFFFF) = true := by decide

/-! ## Memory and host commands -/

/-- The reset Memory has the canonical form, and writing 0 removes an entry. -/
theorem test_memory_form : Memory.wf State.reset.mem ∧ Memory.write [(5, 7)] 5 0 = [] ∧
    Memory.write [(5, 7)] 3 1 = [(3, 1), (5, 7)] := by decide
/-- 95_test_vectors.md section 10. -/
theorem test_new_range : (hostNew { totalSize := 65535, callStackCapacity := none }).toOption = none ∧
    (hostNew { totalSize := 100000, callStackCapacity := none }).toOption.map (fun s => s.layout.stackStart) = some 95904 ∧
    (hostNew { totalSize := 8388609, callStackCapacity := none }).toOption = none := by decide
/-- R10: the least bounded capacity is 1 (log 2 for the error). -/
theorem test_new_capacity : (hostNew { totalSize := 65536, callStackCapacity := some 1 }).toOption.isSome = true ∧
    hostNew { totalSize := 65536, callStackCapacity := some 0 } = .error .capacityRange := by decide
/-- 95_test_vectors.md section 10: the default image of a 131072-byte machine on a 65536-byte one. -/
theorem test_load_refused : (hostLoad State.reset
    { textStart := 0, stackStart := 126976, stackSize := 4096, text := [0xC0000000], data := [] }).toOption = none := by decide

/-! ## The Assembler: R323 and 95_test_vectors.md section 9 -/

/-- The kind and line of the error of a source, for a 64 KiB machine. -/
def assembleError (source : String) : Option AsmError :=
  match assemble source.toList 65536 with
  | .ok _ => none
  | .error e => some e

/-- The worked example of R323. -/
theorem test_assemble_worked_example :
    (assemble ("; store and reload through the data segment\n.data\nv:  .word 0x12345678\nw:  .word 0\n.text\n" ++
      "    LODW AX, [v]\n    STRW [w], AX\n    MOVI BX, w          ; address of w\n    STRI BX, 1.5\n" ++
      "    LODW CX, w\n    HALT\n").toList 65536).toOption =
    some {
      textStart := 0
      stackStart := 61440
      stackSize := 4096
      text := [0x4C00EFF8, 0x5400EFFC, 0x4050EFFC, 0x5063FC00, 0x4D00EFFC, 0xC0000000]
      data := [0x78, 0x56, 0x34, 0x12, 0, 0, 0, 0] } := by decide +kernel
/-- A directive name begins right after its `.` (log 12). -/
theorem test_assemble_directive_name : assembleError ".text\nHALT" = none ∧
    assembleError ". text\nHALT" = some { kind := .invalidDirectiveValue, line := 1 } := by decide
/-- Rows of section 9.3. -/
theorem test_assemble_rejects :
    assembleError "MOVI AX,1.1" = some { kind := .invalidOperandSyntax, line := 1 } ∧
    assembleError "JMP nowhere" = some { kind := .undefinedSymbol, line := 1 } ∧
    assembleError "L: HALT\nL: HALT" = some { kind := .duplicateDirective, line := 2 } ∧
    assembleError ".data\n.word L" = some { kind := .invalidDirectiveValue, line := 2 } ∧
    assembleError ".stack_start 0\nHALT" = some { kind := .segmentLayoutError, line := 0 } := by decide

/-! ## Witnesses: a concrete state and operands for the hypotheses of every obligation that has some -/

/-- A machine in the midst of a run: a full word to spare on the memory stack, one free place on the Call Stack, PUSH SP next. -/
def machine : State :=
  { (startSp 0xF004).withFetchWord 32 0x58000008 with
    params := { totalSize := 65536, callStackCapacity := some 2 }
    callStack := [4]
    flags := 5 }

theorem machine_invariant : MachineInvariant machine := by
  refine ⟨by decide, by decide, by decide, by decide, by decide, by decide, ?_, by decide, by decide⟩
  intro c h
  cases h
  decide

/-- The same with SP at the upper end of the stack segment. -/
def machineTop : State := machine.setReg .sp 0x10000

theorem machineTop_invariant : MachineInvariant machineTop := by
  refine ⟨by decide, by decide, by decide, by decide, by decide, by decide, ?_, by decide, by decide⟩
  intro c h
  cases h
  decide

/-- The state an instruction answers. -/
def after (i : Instr) (s : State) : State :=
  match exec i s with
  | .next t => t
  | .fault _ => s
  | .refused _ => s

/-- The state a step answers. -/
def stepped (s : State) : State :=
  match step s with
  | .next t => t
  | .fault _ => s
  | .refused _ => s

/-- An image of one HALT, its only word just below the stack segment. -/
def haltImage : Image := { textStart := 61436, stackStart := 61440, stackSize := 4096, text := [0xC0000000], data := [] }

/-- A machine with HALT at the last word of Memory and PC there. -/
def lastWord : State := { startMem 0 65532 [0x00, 0x00, 0x00, 0xC0] with pc := 65532 }

theorem witness_EncodeAndDecodeAgree : (Instr.moviImmInt .ax 0xFFF80000).wf = true ∧
    decodeWord 0x40180000 = .ok (.moviImmInt .ax 0xFFF80000) := by decide
theorem witness_LegalWordsAreTheTableRows : (0x40100000, 0xFC300000) ∈ opcodeRows ∧
    (0x40180000#32).toNat &&& 0xFC300000 = 0x40100000 := by decide
theorem witness_InstructionBytesDecode : (Instr.strwRegAddr 0x7FFFFF .hx).wf = true := by decide
theorem witness_StepRunsTheDecodedInstruction : lastWord.runState = .ready ∧
    lastWord.pc.toNat + 4 ≤ lastWord.params.totalSize ∧
    decode (Memory.readBytes lastWord.mem lastWord.pc.toNat 4 ++ [7]) = .ok (.haltNone, [7]) := by decide
theorem witness_FetchAndDecodeFaults :
    (∃ s : State, s.runState = .ready ∧ s.pc = 65533 ∧ s.params.totalSize < s.pc.toNat + 4) ∧
    (∃ s : State, s.runState = .ready ∧ s.pc = 65532 ∧ s.pc.toNat + 4 ≤ s.params.totalSize ∧
      HoldsWord s s.pc.toNat 0xC0000001 ∧ decodeWord 0xC0000001 = .error .mustBeZero) :=
  ⟨⟨{ start 0 0 with pc := 65533 }, by decide⟩,
    ⟨{ startMem 0 65532 [0x01, 0x00, 0x00, 0xC0] with pc := 65532 }, by decide, by decide, by decide, by unfold HoldsWord; decide,
      by decide⟩⟩
theorem witness_TerminalStatesAreKept : machine.halt.runState = .halted ∧
    (machine.enterFault .stackOverflow).runState = .faulted := by decide
theorem witness_NoReachableStop : MachineInvariant machine := machine_invariant
theorem witness_InvariantKeptByEveryStep : MachineInvariant machine ∧ step machine = .next (stepped machine) :=
  ⟨machine_invariant, rfl⟩
theorem witness_InvariantKeptByHostCommands : (∃ s, hostNew { totalSize := 8388608, callStackCapacity := some 1 } = .ok s) ∧
    MachineInvariant machine ∧ ∃ t, hostLoad machine haltImage = .ok t :=
  ⟨⟨_, rfl⟩, machine_invariant, ⟨_, rfl⟩⟩
theorem witness_FaultsArePrecise :
    (∃ s : State, s.runState = .ready ∧ step s = .next (stepped s) ∧ (stepped s).runState = .faulted ∧
      s.pc = 65533 ∧ s.params.totalSize < s.pc.toNat + 4) ∧
    (∃ s : State, s.runState = .ready ∧ step s = .next (stepped s) ∧ (stepped s).runState = .faulted ∧
      s.pc.toNat + 4 ≤ s.params.totalSize) :=
  ⟨⟨{ machine with pc := 65533 }, by decide, rfl, by decide, by decide, by decide⟩,
    ⟨machine.setReg .sp 0xF003, by decide, rfl, by decide, by decide⟩⟩
theorem witness_ExecuteFaultsHaveExactlyTheirCauses : MachineInvariant machine ∧ machine.runState = .ready ∧
    (Instr.pushReg .sp).mnemonic = .push ∧ Instr.haltNone.mnemonic ∉ executeFaulters :=
  ⟨machine_invariant, by decide, by decide, by decide⟩
theorem witness_FlagWritersAndReadersAreComplete :
    (Instr.pushReg .sp).mnemonic ∉ flagWriters ∧ exec (.pushReg .sp) machine = .next (after (.pushReg .sp) machine) ∧
    (Instr.cmpwReg .ax .bx).mnemonic ∈ flagWriters ∧ (Instr.pushReg .sp).mnemonic ∉ flagReaders :=
  ⟨by decide, rfl, by decide, by decide⟩
theorem witness_OnlyTransfersRedirectPc : Instr.haltNone.mnemonic ∉ pcRedirectors ∧ machine.runState = .ready ∧
    exec .haltNone machine = .next (after .haltNone machine) ∧ (after .haltNone machine).runState ≠ .faulted :=
  ⟨by decide, by decide, rfl, by decide⟩
theorem witness_CallStackIsPrivateToCallAndRet : (Instr.pushReg .sp).mnemonic ≠ .call ∧
      (Instr.pushReg .sp).mnemonic ≠ .ret := by
  decide
theorem witness_ChannelIsPrivateToInputOutput : (Instr.pushReg .sp).mnemonic ∉ channelUsers := by decide
theorem witness_LayoutAndParametersAreConstant : exec (.pushReg .sp) machine = .next (after (.pushReg .sp) machine) ∧
    step machine = .next (stepped machine) := ⟨rfl, rfl⟩
theorem witness_QueueNeverMatters : lastWord.runState = .ready ∧ lastWord.pc.toNat + 4 ≤ lastWord.params.totalSize := by decide
theorem witness_OnlyStoresWriteMemory : (Instr.popReg .ax).mnemonic ∉ memoryWriters ∧
    exec (.popReg .ax) machine = .next (after (.popReg .ax) machine) := ⟨by decide, rfl⟩
/-- A zero sum, a rounded sum and the greatest finite values. -/
theorem witness_AddAndSubAreCorrectlyRounded : floatVal 0x80000000 = .fin true 0 ∧ floatVal 0x00800000 = .fin false (2 ^ 23) ∧
    floatVal 0x7F7FFFFF = .fin false ((2 ^ 24 - 1) * 2 ^ 253) := by decide
theorem witness_MulIsCorrectlyRounded : floatVal 0x80000001 = .fin true 1 ∧ floatVal 0x3F000000 = .fin false (2 ^ 148) ∧
    floatVal 0x7F7FFFFF = .fin false ((2 ^ 24 - 1) * 2 ^ 253) := by decide
theorem witness_NanAndInfinityRules : floatVal 0x7FC00000 = .nan ∧ floatVal 0x7F800000 = .inf false ∧
    floatVal 0xFF800000 = .inf true ∧ floatVal 0x80000000 = .fin true 0 ∧ floatVal 0x00000001 = .fin false 1 := by decide
theorem witness_MoveResult :
    wordOpcode 0x40000001 = 0x10 ∧ wordSk 0x40000001 = 0 ∧ wordOpcode 0x40300000 = 0x10 ∧ wordSk 0x40300000 = 3 ∧
    wordOpcode 0x44100001 = 0x11 ∧ wordSk 0x44100001 = 1 ∧ wordOpcode 0x44200001 = 0x11 ∧ wordSk 0x44200001 = 2 ∧
    wordOpcode 0x44300001 = 0x11 ∧ wordSk 0x44300001 = 3 ∧
    wordOpcode 0x48000001 = 0x12 ∧ wordSk 0x48000001 = 0 ∧ wordOpcode 0x48300000 = 0x12 ∧ wordSk 0x48300000 = 3 := by decide
/-- The last word of Memory, and one byte on. -/
theorem witness_LodwResult : (65532#32).toNat + 4 ≤ machine.params.totalSize ∧
    machine.params.totalSize < (65533#32).toNat + 4 := by decide
theorem witness_StrwResult : Memory.wf machine.mem ∧ (65532#32).toNat + 4 ≤ machine.params.totalSize ∧
    machine.params.totalSize < (65533#32).toNat + 4 := by decide
theorem witness_StriResult : Memory.wf (start 65532 65533).mem ∧
    ((start 65532 65533).reg .ax).toNat + 4 ≤ (start 65532 65533).params.totalSize ∧
    (start 65532 65533).params.totalSize < ((start 65532 65533).reg .bx).toNat + 4 ∧
    wordOpcode 0x50000000 = 0x14 ∧ wordSk 0x50000000 = 0 ∧ wordOpcode 0x50300000 = 0x14 ∧ wordSk 0x50300000 = 3 := by decide
/-- Both ends of each clause: SP = F004 and 10000 complete, F003 and 10001 fault. -/
theorem witness_PushResult :
    (∀ s ∈ [machine, machineTop], Memory.wf s.mem ∧ s.layout.stackStart + s.layout.stackSize ≤ s.params.totalSize ∧
      s.layout.stackStart + 4 ≤ (s.reg .sp).toNat ∧ (s.reg .sp).toNat ≤ s.layout.stackStart + s.layout.stackSize) ∧
    ((startSp 0xF003).reg .sp).toNat < (startSp 0xF003).layout.stackStart + 4 ∧
    (startSp 0x10001).layout.stackStart + (startSp 0x10001).layout.stackSize < ((startSp 0x10001).reg .sp).toNat := by decide
/-- Both ends of each clause: SP = F000 and FFFC complete, EFFF and FFFD fault. -/
theorem witness_PopResult :
    (∀ s ∈ [startSp 0xF000, startSp 0xFFFC], s.layout.stackStart + s.layout.stackSize ≤ s.params.totalSize ∧
      s.layout.stackStart ≤ (s.reg .sp).toNat ∧ (s.reg .sp).toNat + 4 ≤ s.layout.stackStart + s.layout.stackSize) ∧
    ((startSp 0xEFFF).reg .sp).toNat < (startSp 0xEFFF).layout.stackStart ∧
    (startSp 0xFFFD).layout.stackStart + (startSp 0xFFFD).layout.stackSize < ((startSp 0xFFFD).reg .sp).toNat + 4 := by decide
theorem witness_XcghResult : wordOpcode 0x60100001 = 0x18 ∧ wordSk 0x60100001 = 1 ∧ wordOpcode 0x60200001 = 0x18 ∧
    wordSk 0x60200001 = 2 ∧ wordOpcode 0x60300001 = 0x18 ∧ wordSk 0x60300001 = 3 := by decide
theorem witness_PushThenPopLaw :
    (MachineInvariant machine ∧ machine.layout.stackStart + 4 ≤ (machine.reg .sp).toNat ∧
      (machine.reg .sp).toNat ≤ machine.layout.stackStart + machine.layout.stackSize) ∧
    (MachineInvariant machineTop ∧ machineTop.layout.stackStart + 4 ≤ (machineTop.reg .sp).toNat ∧
      (machineTop.reg .sp).toNat ≤ machineTop.layout.stackStart + machineTop.layout.stackSize) :=
  ⟨⟨machine_invariant, by decide, by decide⟩, ⟨machineTop_invariant, by decide, by decide⟩⟩
/-- FLAGS words on which each condition of R235 holds and fails. -/
theorem witness_ConditionalJumpsResult :
    ((startFlags 1).flags.getLsbD 0 = true ∧ (startFlags 1).flags.getLsbD 1 = false ∧ (startFlags 1).flags.getLsbD 2 = false) ∧
    ((startFlags 2).flags.getLsbD 0 = false ∧ (startFlags 2).flags.getLsbD 1 = true ∧ (startFlags 2).flags.getLsbD 2 = false) ∧
    ((startFlags 4).flags.getLsbD 0 = false ∧ (startFlags 4).flags.getLsbD 1 = false ∧ (startFlags 4).flags.getLsbD 2 = true) ∧
    (startFlags 0).flags = 0 := by decide
theorem witness_CompareThenJumpLaw : floatVal ((start 0x7FC00000 0).reg .ax) = .nan ∧
    floatVal ((start 0 0xFFC00000).reg .bx) = .nan := by decide
/-- One place left, none left, and an unbounded Call Stack. -/
theorem witness_CallResult :
    (∀ c, machine.params.callStackCapacity = some c → machine.callStack.length < c) ∧
    (machine.callPush 8).params.callStackCapacity = some (machine.callPush 8).callStack.length ∧
    (∀ c, State.reset.params.callStackCapacity = some c → State.reset.callStack.length < c) :=
  ⟨fun c h => by cases h; decide, rfl, nofun⟩
theorem witness_RetResult : machine.callStack = 4 :: [] ∧ State.reset.callStack = [] := by decide
theorem witness_CallThenRetLaw : (∀ c, machine.params.callStackCapacity = some c → machine.callStack.length < c) ∧
    exec (.callAddr 16) machine = .next (after (.callAddr 16) machine) ∧
    (start 0 0 |>.callPush 4 |>.callPush 4).callStack = (after (.callAddr 16) machine).callStack :=
  ⟨fun c h => by cases h; decide, rfl, by decide⟩
theorem witness_HaltResult : Instr.pushReg .sp ≠ .haltNone ∧
    exec (.pushReg .sp) machine.halt = .next (after (.pushReg .sp) machine.halt) ∧
    (after (.pushReg .sp) machine.halt).runState = .halted := ⟨by decide, rfl, by decide⟩
/-- Two bytes and their terminator fit exactly at FFFD; three do not; the empty string fits at FFFF and not at 10000. -/
theorem witness_StringInputResult :
    (let s := startInput 0 [0x61, 0x62]; Memory.wf s.mem ∧
      0xFFFD + (stringPart (s.channel.input.headD [])).length + 1 ≤ s.params.totalSize) ∧
    (let s := startInput 0 [0x61, 0x62, 0x63]; s.params.totalSize < 0xFFFD + (stringPart (s.channel.input.headD [])).length + 1) ∧
    (let s := start 0 0; Memory.wf s.mem ∧ 0xFFFF + (stringPart (s.channel.input.headD [])).length + 1 ≤ s.params.totalSize ∧
      s.params.totalSize < 0x10000 + (stringPart (s.channel.input.headD [])).length + 1) := by decide
theorem witness_StringPartIsUpToTheFirstZero : 0x61 ∈ stringPart [0x61, 0x00, 0x62] := by decide
/-- A string that ends at the last byte, and a Memory whose last four bytes hold no terminator. -/
theorem witness_StringOutputResult :
    (let s := startMem 0 0xFFFC [0x48, 0x69, 0x0A, 0x00]; 0xFFFC + 3 < s.params.totalSize ∧ s.byteAt (0xFFFC + 3) = 0 ∧
      ∀ k < 3, s.byteAt (0xFFFC + k) ≠ 0) ∧
    (let s := startMem 0 0xFFFC [0x41, 0x41, 0x41, 0x41]; ∀ k, 0xFFFC ≤ k → k < s.params.totalSize → s.byteAt k ≠ 0) := by
  refine ⟨by decide, ?_⟩
  intro s k h1 h2
  change k < 65536 at h2
  obtain rfl | rfl | rfl | rfl : k = 65532 ∨ k = 65533 ∨ k = 65534 ∨ k = 65535 := by omega
  all_goals decide
theorem witness_MixedWidthAccesses : Memory.wf machine.mem ∧ 65531 + 5 ≤ machine.params.totalSize ∧
    65532 + 4 ≤ machine.params.totalSize ∧ machine.params.totalSize < 65533 + 4 := by decide
/-- The parameters of a machine of this size. -/
def sized (n : Nat) : Config.Params := { totalSize := n, callStackCapacity := none }
theorem witness_ConstructionRange :
    (∀ p ∈ [sized 65536, sized 8388608], (65536 ≤ p.totalSize ∧ p.totalSize ≤ 8388608) ∧ p.callStackCapacity ≠ some 0) ∧
    (sized 65535).totalSize < 65536 ∧ 8388608 < (sized 8388609).totalSize := by decide
theorem witness_ResetResult : machine.halt.runState ≠ .ready ∧ step machine.halt = .next machine.halt := ⟨by decide, rfl⟩
theorem witness_LoadResult : haltImage.fits machine.params.totalSize ∧
    ¬ ({ haltImage with textStart := 61437 } : Image).fits machine.params.totalSize := by decide
theorem witness_AssembledWordsAreLegal : assemble "HALT".toList 65536 =
      .ok { textStart := 0, stackStart := 61440, stackSize := 4096, text := [0xC0000000], data := [] } ∧
    (0xC0000000 : Word) ∈ [(0xC0000000 : Word)] := ⟨rfl, by decide⟩
theorem witness_AssembledImagesLoad : assemble "HALT".toList State.reset.params.totalSize =
    .ok { textStart := 0, stackStart := 61440, stackSize := 4096, text := [0xC0000000], data := [] } := rfl
/-- Both ends of the size range, and a machine with the least capacity. -/
theorem witness_CapacityIsPositiveOrUnbounded : (∀ n ∈ [65536, 8388608], 65536 ≤ n ∧ n ≤ 8388608) ∧
    ∃ s, hostNew { totalSize := 65536, callStackCapacity := some 1 } = .ok s ∧ s.params.callStackCapacity = some 1 :=
  ⟨by decide, _, rfl, rfl⟩

end Sys2Proof.Tests
end

/-! ## What an instruction can do -/

namespace Sys2Proof.Machine

/-- Everything an instruction of this mnemonic can do to a state: which operations it applies, and the guard of each.
`exec_answers` says that every instruction of the model does one of these. -/
inductive Effect (m : Mnemonic) (s : State) : State → Prop
  /-- A flag-writing result (R161, R181). -/
  | result (hm : m ∈ flagWriters) (ra : Reg) (r : Word) (z n co : Bool) :
      Effect m s ((s.setReg ra r).setFlags (flagsWord z n co)).advance
  /-- A comparison (R231). -/
  | compared (hm : m = .cmpw) (z n co : Bool) : Effect m s (s.setFlags (flagsWord z n co)).advance
  /-- A move into one register (R201 to R204). -/
  | moved (hm : m ∈ [.movi, .movw, .lodi, .lodw]) (ra : Reg) (v : Word) : Effect m s (s.setReg ra v).advance
  /-- Two register writes, in this order (R208, R209). -/
  | movedTwo (hm : m ∈ [.pop, .xcgh]) (ra rb : Reg) (v w : Word) :
      Effect m s ((s.setReg ra v).setReg rb w).advance
  /-- A store inside Memory (R205, R206). -/
  | stored (hm : m ∈ [.stri, .strw]) (a : Nat) (bs : List Byte) (ha : a + bs.length ≤ s.params.totalSize) :
      Effect m s (s.setMem (Memory.writeBytes s.mem a bs)).advance
  /-- A store inside Memory with a new SP (R207). -/
  | pushed (hm : m = .push) (a : Nat) (bs : List Byte) (ha : a + bs.length ≤ s.params.totalSize) (sp : Word) :
      Effect m s ((s.setMem (Memory.writeBytes s.mem a bs)).setReg .sp sp).advance
  /-- A string taken from the channel and stored inside Memory (R269). -/
  | stringStored (hm : m ∈ [.insi, .insw]) (a : Nat) (bs : List Byte) (ha : a + bs.length ≤ s.params.totalSize) :
      Effect m s (s.chanDrop.setMem (Memory.writeBytes s.mem a bs)).advance
  /-- A jump that is taken (R232, R235). -/
  | jumped (hm : m ∈ .jmp :: flagReaders) (a : Word) : Effect m s (s.redirect a)
  /-- A conditional jump that is not taken (R235). -/
  | notTaken (hm : m ∈ flagReaders) : Effect m s s.advance
  /-- A CALL with room on the Call Stack (R233). -/
  | called (hm : m = .call) (hroom : ¬ s.callStackFull) (a : Word) : Effect m s ((s.callPush (s.pc + 4)).redirect a)
  /-- A RET with an address on the Call Stack (R234). -/
  | returned (hm : m = .ret) (a : Word) (rest : List Word) (hcs : s.callStack = a :: rest) :
      Effect m s (s.callDrop.redirect a)
  /-- HALT (R260). -/
  | halted (hm : m = .halt) : Effect m s s.halt.advance
  /-- A word taken from the channel (R267). -/
  | wordRead (hm : m = .inn) (ra : Reg) (v : Word) : Effect m s (s.chanDrop.setReg ra v).advance
  /-- One write to the channel (R268, R271). -/
  | written (hm : m ∈ [.out, .outi, .outw]) (bs : List Byte) : Effect m s (s.chanWrite bs).advance
  /-- A fault that leaves the channel alone (R345). -/
  | faulted (hm : m ∈ executeFaulters) (c : FaultCode) (hc : c ≠ .none) : Effect m s (s.enterFault c)
  /-- A string that does not fit: its bytes are gone from the channel (R274). -/
  | stringFaulted (hm : m ∈ [.insi, .insw]) : Effect m s (s.chanDrop.enterFault .addressOutOfBounds)

/-- The result is a next state, and one of the effects of the mnemonic leads to it. -/
def Answers (m : Mnemonic) (s : State) (r : Result) : Prop := ∃ t, r = .next t ∧ Effect m s t

variable {m : Mnemonic} {s : State}

theorem finishFloat_answers (hm : m ∈ flagWriters) (ra : Reg) (r : Word) : Answers m s (finishFloat ra r s) :=
  ⟨_, finishFloat_eq ra r s, .result hm ..⟩

theorem finishBits_answers (hm : m ∈ flagWriters) (ra : Reg) (r : Word) (c : Bool) :
    Answers m s (finishBits ra r c s) :=
  ⟨_, finishBits_eq ra r c s, .result hm ..⟩

theorem cmpw_answers (ra : Reg) (src : Operand) : Answers .cmpw s (cmpw ra src s) := ⟨_, rfl, .compared rfl ..⟩

theorem finishMove_answers (hm : m ∈ [.movi, .movw, .lodi, .lodw]) (ra : Reg) (v : Word) :
    Answers m s (finishMove ra v s) :=
  ⟨_, finishMove_eq ra v s, .moved hm ..⟩

theorem lodw_answers (rg : Reg) (a : Word) : Answers .lodw s (execLodwRegAddr rg a s) := by
  rw [execLodwRegAddr_eq]
  split
  · exact ⟨_, rfl, .moved (by decide) ..⟩
  · exact ⟨_, rfl, .faulted (by decide) _ (by decide)⟩

theorem finishStore_answers (hm : m ∈ [.stri, .strw]) (a : Nat) (v : Word) : Answers m s (finishStore a v s) := by
  have hfaulter : m ∈ executeFaulters := by
    obtain rfl | rfl : m = .stri ∨ m = .strw := by simpa using hm
    all_goals decide
  rw [finishStore_eq]
  split
  · exact ⟨_, rfl, .stored hm _ _ (by simpa)⟩
  · exact ⟨_, rfl, .faulted hfaulter _ (by decide)⟩

theorem push_answers (src : Operand) : Answers .push s (push src s) := by
  rw [push_eq]
  split
  · split
    · exact ⟨_, rfl, .pushed rfl _ _ (by simpa) _⟩
    · exact ⟨_, rfl, .faulted (by decide) _ (by decide)⟩
  · exact ⟨_, rfl, .faulted (by decide) _ (by decide)⟩

theorem pop_answers (ra : Reg) : Answers .pop s (execPopReg ra s) := by
  rw [execPopReg_eq]
  split
  · split
    · exact ⟨_, rfl, .movedTwo (by decide) ..⟩
    · exact ⟨_, rfl, .faulted (by decide) _ (by decide)⟩
  · exact ⟨_, rfl, .faulted (by decide) _ (by decide)⟩

theorem jumpIf_answers (hm : m ∈ flagReaders) (taken : Bool) (a : Word) : Answers m s (jumpIf taken a s) := by
  cases taken with
  | true => exact ⟨_, rfl, .jumped (List.mem_cons_of_mem _ hm) a⟩
  | false => exact ⟨_, rfl, .notTaken hm⟩

theorem call_answers (a : Word) : Answers .call s (execCallAddr a s) := by
  rw [execCallAddr_eq]
  split
  · exact ⟨_, rfl, .faulted (by decide) _ (by decide)⟩
  · exact ⟨_, rfl, .called rfl ‹_› a⟩

theorem ret_answers : Answers .ret s (execRetNone s) := by
  cases hcs : s.callStack with
  | nil => exact ⟨_, execRetNone_fault s hcs, .faulted (by decide) _ (by decide)⟩
  | cons a rest => exact ⟨_, execRetNone_next a rest s hcs, .returned rfl a rest hcs⟩

theorem stringIn_answers (hm : m ∈ [.insi, .insw]) (a : Nat) : Answers m s (stringIn a s) := by
  rw [stringIn_eq]
  split
  · exact ⟨_, rfl, .stringStored hm _ _ (by simp; omega)⟩
  · exact ⟨_, rfl, .stringFaulted hm⟩

theorem stringOut_answers (hm : m ∈ [.outi, .outw]) (a : Nat) : Answers m s (stringOut a s) := by
  have hmem : m ∈ [.out, .outi, .outw] ∧ m ∈ executeFaulters := by
    obtain rfl | rfl : m = .outi ∨ m = .outw := by simpa using hm
    all_goals decide
  unfold stringOut
  split
  · exact ⟨_, rfl, .faulted hmem.2 _ (by decide)⟩
  · exact ⟨_, rfl, .written hmem.1 _⟩

/-- Every instruction answers a next state, by one of the effects of its mnemonic. -/
theorem exec_answers (i : Instr) (s : State) : Answers i.mnemonic s (exec i s) := by
  cases i <;> dsimp only [Instr.mnemonic]
  case addwReg | addwImmInt | addwImmFlt | subwReg | subwImmInt | subwImmFlt | mulReg | mulImmInt | mulImmFlt
    | incReg | decReg | negReg => exact finishFloat_answers (by decide) ..
  case andReg | andImmInt | andImmFlt | orReg | orImmInt | orImmFlt | xorReg | xorImmInt | xorImmFlt
    | notReg | shlReg | shlImmInt | shlImmFlt | shrReg | shrImmInt | shrImmFlt =>
    exact finishBits_answers (by decide) ..
  case moviImmInt | moviImmFlt | movwReg | lodiImmInt | lodiImmFlt => exact finishMove_answers (by decide) ..
  case lodwRegAddr => exact lodw_answers ..
  case striImmInt | striImmFlt | strwRegAddr => exact finishStore_answers (by decide) ..
  case pushReg | pushImmInt | pushImmFlt => exact push_answers _
  case popReg => exact pop_answers _
  case xcghReg => exact ⟨_, rfl, .movedTwo (by decide) ..⟩
  case cmpwReg | cmpwImmInt | cmpwImmFlt => exact cmpw_answers ..
  case jmpAddr a => exact ⟨_, rfl, .jumped (by decide) a⟩
  case callAddr => exact call_answers _
  case retNone => exact ret_answers
  case jeAddr | jneAddr | jgtAddr | jgeAddr | jltAddr | jleAddr | jsAddr | jcoAddr =>
    exact jumpIf_answers (by decide) ..
  case haltNone => exact ⟨_, rfl, .halted rfl⟩
  case inReg => exact ⟨_, rfl, .wordRead rfl ..⟩
  case outReg | outImmInt | outImmFlt => exact ⟨_, rfl, .written (by decide) _⟩
  case insiAddr | inswReg => exact stringIn_answers (by decide) _
  case outiAddr | outwReg => exact stringOut_answers (by decide) _

theorem exec_effect {i : Instr} {t : State} (h : exec i s = .next t) : Effect i.mnemonic s t := by
  obtain ⟨u, hu, heffect⟩ := exec_answers i s
  obtain rfl : u = t := by simpa [hu] using h
  exact heffect

end Sys2Proof.Machine

/-! ## The Segment Layout and the parameters are constant (R10, R36) -/

namespace Sys2Proof.Machine

theorem Effect.layout_params {m : Mnemonic} {s t : State} (h : Effect m s t) :
    t.layout = s.layout ∧ t.params = s.params := by
  cases h <;> exact ⟨rfl, rfl⟩

/-- Settles O18: no effect of an instruction writes them, and neither does what a step does around the instruction. -/
theorem layoutAndParametersAreConstant : Obligations.LayoutAndParametersAreConstant := by
  refine ⟨fun i s t h => (exec_effect h).layout_params, fun s t h => ?_⟩
  obtain ⟨rfl, -⟩ | ⟨-, -, rfl⟩ | ⟨w, e, -, -, -, rfl⟩ | ⟨w, i, -, -, -, hexec⟩ := step_next s t h
  · exact ⟨rfl, rfl⟩
  · exact ⟨rfl, rfl⟩
  · exact ⟨rfl, rfl⟩
  · simpa using (exec_effect hexec).layout_params

end Sys2Proof.Machine

/-! ## The machine's invariant: one rule per operation of the state -/

namespace Sys2Proof.Machine.MachineInvariant

variable {s : State}

theorem setReg (h : MachineInvariant s) (r : Reg) (v : Word) : MachineInvariant (s.setReg r v) := { h with }

theorem advance (h : MachineInvariant s) : MachineInvariant s.advance := { h with }

theorem redirect (h : MachineInvariant s) (a : Word) : MachineInvariant (s.redirect a) := { h with }

theorem setQueue (h : MachineInvariant s) (w : Word) : MachineInvariant (s.setQueue w) := { h with }

theorem chanDrop (h : MachineInvariant s) : MachineInvariant s.chanDrop := { h with }

theorem chanWrite (h : MachineInvariant s) (bs : List Byte) : MachineInvariant (s.chanWrite bs) := { h with }

theorem setFlags (h : MachineInvariant s) (z n co : Bool) : MachineInvariant (s.setFlags (flagsWord z n co)) :=
  { h with flagsReserved := flagsWord_reserved z n co }

theorem store (h : MachineInvariant s) {a : Nat} {bs : List Byte} (ha : a + bs.length ≤ s.params.totalSize) :
    MachineInvariant (s.setMem (Memory.writeBytes s.mem a bs)) :=
  { h with
    memory := Memory.writeBytes_wf bs s.mem a h.memory
    memoryBound := Memory.writeBytes_bound bs s.mem a _ h.memoryBound ha }

/-- Where the Call Stack is not full, one more address stays within the capacity (R41). -/
theorem callPush (h : MachineInvariant s) (hroom : ¬ s.callStackFull) (a : Word) : MachineInvariant (s.callPush a) :=
  { h with
    callDepth := fun c hc => by
      have hlt : ¬ c ≤ s.callStack.length := fun hle => hroom (s.callStackFull_iff.mpr ⟨c, hc, hle⟩)
      simp only [State.callPush_callStack, List.length_cons]
      omega }

theorem callDrop (h : MachineInvariant s) : MachineInvariant s.callDrop :=
  { h with
    callDepth := fun c hc => by
      have hle := h.callDepth c hc
      simp only [State.callDrop_callStack, List.length_tail]
      omega }

/-- A machine that halts was Ready, so no fault is recorded (R34). -/
theorem halt (h : MachineInvariant s) (hready : s.runState = .ready) : MachineInvariant s.halt :=
  { h with
    boundary := .inr (.inl rfl)
    faultCode := by
      have hnone : s.faultCode = .none := h.faultCode.mpr (by simp [hready])
      simp [hnone] }

theorem enterFault (h : MachineInvariant s) {c : FaultCode} (hc : c ≠ .none) : MachineInvariant (s.enterFault c) :=
  { h with
    boundary := .inr (.inr rfl)
    faultCode := by simp [hc] }

/-- Every effect of an instruction keeps the invariant: each is a composition of the operations above. -/
theorem effect {m : Mnemonic} {t : State} (h : MachineInvariant s) (hready : s.runState = .ready)
    (heffect : Effect m s t) : MachineInvariant t := by
  cases heffect with
  | result => exact ((h.setReg _ _).setFlags _ _ _).advance
  | compared => exact (h.setFlags _ _ _).advance
  | moved => exact (h.setReg _ _).advance
  | movedTwo => exact ((h.setReg _ _).setReg _ _).advance
  | stored _ a bs ha => exact (h.store ha).advance
  | pushed _ a bs ha => exact ((h.store ha).setReg _ _).advance
  | stringStored _ a bs ha => exact (h.chanDrop.store ha).advance
  | jumped => exact h.redirect _
  | notTaken => exact h.advance
  | called _ hroom => exact (h.callPush hroom _).redirect _
  | returned => exact h.callDrop.redirect _
  | halted => exact (h.halt hready).advance
  | wordRead => exact (h.chanDrop.setReg _ _).advance
  | written => exact (h.chanWrite _).advance
  | faulted _ c hc => exact h.enterFault hc
  | stringFaulted => exact h.chanDrop.enterFault (by decide)

end Sys2Proof.Machine.MachineInvariant

namespace Sys2Proof.Machine

/-- Settles O9: a terminal state stays, a fault of fetch or decode records its code, and an instruction runs from Ready
with the fetched word in the queue entry. -/
theorem invariantKeptByEveryStep : Obligations.InvariantKeptByEveryStep := by
  intro s t h hstep
  obtain ⟨rfl, -⟩ | ⟨-, -, rfl⟩ | ⟨w, e, -, -, -, rfl⟩ | ⟨w, i, hready, -, -, hexec⟩ := step_next s t hstep
  · exact h
  · exact h.enterFault (by decide)
  · exact (h.setQueue w).enterFault (by decide)
  · exact (h.setQueue w).effect hready (exec_effect hexec)

end Sys2Proof.Machine

/-! ## The range of CALL_STACK_CAPACITY (R10) -/

namespace Sys2Proof.Machine

theorem hostNew_capacity_zero (n : Nat) (hmin : 65536 ≤ n) (hmax : n ≤ 8388608) :
    hostNew { totalSize := n, callStackCapacity := some 0 } = .error .capacityRange := by
  rw [hostNew, if_pos ⟨hmin, hmax⟩, if_neg (by simp)]

/-- A legal capacity has room for a first address: the Call Stack of a constructed machine is not full. -/
theorem State.constructed_callStackFull (p : Config.Params) (h : p.capacityLegal) :
    ¬ (State.constructed p).callStackFull := by
  rw [State.callStackFull_iff]
  rintro ⟨c, hc, hle⟩
  obtain rfl : c = 0 := Nat.le_zero.mp hle
  exact h hc

/-- Settles O60: a constructed machine has a legal capacity and an empty Call Stack. -/
theorem capacityIsPositiveOrUnbounded : Obligations.CapacityIsPositiveOrUnbounded := by
  refine ⟨hostNew_capacity_zero, fun p s hnew => ?_⟩
  obtain ⟨-, hlegal, rfl⟩ := (hostNew_ok_iff p s).mp hnew
  refine ⟨fun c hc => Nat.pos_of_ne_zero ?_, fun a => ?_⟩
  · rintro rfl
    exact hlegal hc
  · have hcompletes := (execCallAddr_eq a _).trans (if_neg (State.constructed_callStackFull p hlegal))
    exact ⟨_, hcompletes, rfl, rfl⟩

end Sys2Proof.Machine

/-! ## Rounding to the nearest binary32 value (R162)

A magnitude pattern `k` (bits 30:0 of a word) has the value `magnitudeUnits k`, taken beyond the infinity too, as if the
exponents had no end. The rounding before its cut at the infinity, `roundUnbounded`, picks the nearest of these values, ties
to even; where it overflows then follows from that alone. -/

namespace Sys2Proof.Machine

/-! ### The values of the magnitude patterns -/

/-- The units of 2^-149 of a pattern of exponent and fraction bits, read as finite whatever the exponent (R11). -/
def magnitudeUnits (k : Nat) : Nat := floatUnits (k / 2 ^ 23) (k % 2 ^ 23)

/-- The pattern `e * 2^23 + m` counts `m` steps of `2^e`, the upper end of its binade included. -/
theorem magnitudeUnits_binade (e m : Nat) (hlow : e = 0 ∨ 2 ^ 23 ≤ m) (hhigh : m ≤ 2 ^ 24) :
    magnitudeUnits (e * 2 ^ 23 + m) = m * 2 ^ e := by
  unfold magnitudeUnits floatUnits
  obtain hsub | hnormal | rfl : m < 2 ^ 23 ∨ (2 ^ 23 ≤ m ∧ m < 2 ^ 24) ∨ m = 2 ^ 24 := by omega
  · obtain rfl : e = 0 := by omega
    rw [if_pos (by omega), show (0 * 2 ^ 23 + m) % 2 ^ 23 = m by omega]
    omega
  · have hdiv : (e * 2 ^ 23 + m) / 2 ^ 23 = e + 1 := by omega
    rw [hdiv, if_neg (by omega), show 2 ^ 23 + (e * 2 ^ 23 + m) % 2 ^ 23 = m by omega, Nat.add_sub_cancel]
  · have hdiv : (e * 2 ^ 23 + 2 ^ 24) / 2 ^ 23 = e + 2 := by omega
    rw [hdiv, if_neg (by omega), show (e * 2 ^ 23 + 2 ^ 24) % 2 ^ 23 = 0 by omega, show e + 2 - 1 = e + 1 by omega, pow_succ]
    ring

theorem magnitudeUnits_strictMono : StrictMono magnitudeUnits := by
  refine strictMono_nat_of_lt_succ fun k => ?_
  obtain ⟨e, m, rfl, hlow, hhigh⟩ : ∃ e m, k = e * 2 ^ 23 + m ∧ (e = 0 ∨ 2 ^ 23 ≤ m) ∧ m < 2 ^ 24 :=
    ⟨k / 2 ^ 23 - 1, k - (k / 2 ^ 23 - 1) * 2 ^ 23, by omega, by omega, by omega⟩
  rw [Nat.add_assoc, magnitudeUnits_binade e m hlow (by omega), magnitudeUnits_binade e (m + 1) (by omega) (by omega)]
  exact Nat.mul_lt_mul_of_pos_right (Nat.lt_succ_self m) (by positivity)

/-- `overflowUnits` is the midpoint of the greatest finite magnitude and the next one would there be. -/
theorem two_mul_overflowUnits :
    2 * overflowUnits = magnitudeUnits (infMagnitude - 1) + magnitudeUnits infMagnitude := by
  have hmax := magnitudeUnits_binade 253 (2 ^ 24 - 1) (by omega) (by omega)
  have hinf := magnitudeUnits_binade 253 (2 ^ 24) (by omega) (by omega)
  rw [show infMagnitude - 1 = 253 * 2 ^ 23 + (2 ^ 24 - 1) by decide, hmax,
    show infMagnitude = 253 * 2 ^ 23 + 2 ^ 24 by decide, hinf, overflowUnits]
  norm_num

/-! ### Words and their magnitude patterns -/

theorem floatExponent_eq (v : Word) : floatExponent v = v.toNat / 2 ^ 23 % 2 ^ 8 := by
  simp [floatExponent, Nat.shiftRight_eq_div_pow]

theorem floatFraction_eq (v : Word) : floatFraction v = v.toNat % 2 ^ 23 := by
  simp [floatFraction]

theorem floatNegative_eq (v : Word) : floatNegative v = decide (2 ^ 31 ≤ v.toNat) := by
  have hlt := v.isLt
  rw [floatNegative, BitVec.getLsbD, Nat.testBit_eq_decide_div_mod_eq]
  exact decide_eq_decide.mpr (by omega)

theorem packFloat_toNat (negative : Bool) (k : Nat) (hk : k < 2 ^ 31) :
    (packFloat negative k).toNat = (if negative then 2 ^ 31 else 0) + k := by
  rw [packFloat, BitVec.toNat_ofNat]
  exact Nat.mod_eq_of_lt (by split <;> omega)

theorem floatNegative_packFloat (negative : Bool) (k : Nat) (hk : k < 2 ^ 31) :
    floatNegative (packFloat negative k) = negative := by
  rw [floatNegative_eq, packFloat_toNat negative k hk]
  cases negative with
  | true => simp
  | false => simpa using hk

theorem floatExponent_packFloat (negative : Bool) (k : Nat) (hk : k < 2 ^ 31) :
    floatExponent (packFloat negative k) = k / 2 ^ 23 := by
  rw [floatExponent_eq, packFloat_toNat negative k hk]
  split <;> omega

theorem floatFraction_packFloat (negative : Bool) (k : Nat) (hk : k < 2 ^ 31) :
    floatFraction (packFloat negative k) = k % 2 ^ 23 := by
  rw [floatFraction_eq, packFloat_toNat negative k hk]
  split <;> omega

theorem packFloat_bit_zero (negative : Bool) (k : Nat) (hk : k < 2 ^ 31) :
    (packFloat negative k).getLsbD 0 = decide (k % 2 = 1) := by
  rw [BitVec.getLsbD, packFloat_toNat negative k hk, Nat.testBit_zero]
  exact decide_eq_decide.mpr (by split <;> omega)

theorem floatVal_packFloat_fin (negative : Bool) (k : Nat) (hk : k < infMagnitude) :
    floatVal (packFloat negative k) = .fin negative (magnitudeUnits k) := by
  have hinf : infMagnitude = 255 * 2 ^ 23 := by decide
  have hlt : k < 2 ^ 31 := by omega
  rw [floatVal, floatExponent_packFloat _ _ hlt, floatFraction_packFloat _ _ hlt, floatNegative_packFloat _ _ hlt,
    if_neg (by omega), magnitudeUnits]

theorem floatVal_packFloat_inf (negative : Bool) : floatVal (packFloat negative infMagnitude) = .inf negative := by
  cases negative <;> decide

/-- Every finite value is that of a magnitude pattern. -/
theorem units_of_floatVal_fin {c : Word} {n : Bool} {v : Nat} (h : floatVal c = .fin n v) :
    ∃ k, v = magnitudeUnits k := by
  refine ⟨c.toNat % 2 ^ 31, ?_⟩
  rw [floatVal] at h
  split at h
  · split at h <;> cases h
  · obtain ⟨-, rfl⟩ := FloatVal.fin.inj h
    rw [magnitudeUnits, floatExponent_eq, floatFraction_eq]
    congr 1
    · omega
    · omega

/-! ### The nearest value -/

/-- The value of the pattern `k` is nearest to `num / den` among all values of either sign, and `k` is even where
another value is equally near. -/
def NearestEven (num den k : Nat) : Prop :=
  ∀ (j : Nat) (w : Int), w = magnitudeUnits j ∨ w = -(magnitudeUnits j : Int) →
    |(magnitudeUnits k : Int) * den - num| ≤ |w * den - num| ∧
    (|(magnitudeUnits k : Int) * den - num| = |w * den - num| → w ≠ magnitudeUnits k → k % 2 = 0)

/-- Between two ends with no value strictly between them, the nearer end is nearest, and another value is equally near
only at the midpoint. -/
theorem nearer_end_is_nearest {low high num den below above w r : Int} (hden : 0 < den)
    (hlow : low * den + below = num) (hhigh : num + above = high * den) (hbelow : 0 ≤ below) (habove : 0 ≤ above)
    (hw : w ≤ low ∨ high ≤ w) (hr : (r = low ∧ below ≤ above) ∨ (r = high ∧ above ≤ below)) :
    |r * den - num| ≤ |w * den - num| ∧ (|r * den - num| = |w * den - num| → w ≠ r → below = above) := by
  have hwd : w * den ≤ low * den ∨ high * den ≤ w * den :=
    hw.imp (fun h => Int.mul_le_mul_of_nonneg_right h hden.le) (fun h => Int.mul_le_mul_of_nonneg_right h hden.le)
  have hne : w ≠ r → w * den ≠ r * den := fun h heq => h (Int.eq_of_mul_eq_mul_right hden.ne' heq)
  simp only [Int.abs_eq_natAbs]
  obtain ⟨rfl, hr⟩ | ⟨rfl, hr⟩ := hr <;> omega

/-- The value of every pattern lies at or below that of `k`, or at or above that of `k + 1`. -/
theorem magnitudeUnits_gap (k j : Nat) (w : Int) (hw : w = magnitudeUnits j ∨ w = -(magnitudeUnits j : Int)) :
    w ≤ magnitudeUnits k ∨ (magnitudeUnits (k + 1) : Int) ≤ w := by
  have hj : magnitudeUnits j ≤ magnitudeUnits k ∨ magnitudeUnits (k + 1) ≤ magnitudeUnits j :=
    (Nat.lt_or_ge k j).symm.imp (fun h => magnitudeUnits_strictMono.monotone h)
      (fun h => magnitudeUnits_strictMono.monotone h)
  omega

/-- Rounding between two neighbours: the nearer one, and at the midpoint the even one. -/
theorem nearestEven_of_neighbours {num den k r below above : Nat} (hden : 0 < den)
    (hlow : magnitudeUnits k * den + below = num) (hhigh : num + above = magnitudeUnits (k + 1) * den)
    (hr : (r = k ∧ below ≤ above ∧ (below = above → k % 2 = 0)) ∨
      (r = k + 1 ∧ above ≤ below ∧ (below = above → k % 2 = 1))) : NearestEven num den r := by
  intro j w hw
  have hgap := magnitudeUnits_gap k j w hw
  zify at hlow hhigh hden
  obtain ⟨rfl, hle, heven⟩ | ⟨rfl, hle, hodd⟩ := hr
  · obtain ⟨hnearest, htie⟩ := nearer_end_is_nearest hden hlow hhigh (by omega) (by omega) hgap
      (.inl ⟨rfl, by exact_mod_cast hle⟩)
    exact ⟨hnearest, fun h hne => heven (by exact_mod_cast htie h hne)⟩
  · obtain ⟨hnearest, htie⟩ := nearer_end_is_nearest hden hlow hhigh (by omega) (by omega) hgap
      (.inr ⟨rfl, by exact_mod_cast hle⟩)
    refine ⟨hnearest, fun h hne => ?_⟩
    have hodd := hodd (by exact_mod_cast htie h hne)
    omega

/-! ### The model's rounding -/

/-- The exponent of the binade of `num / den`: the steps there are `2^e` units. -/
def roundExponent (num den : Nat) : Nat := if num / den < 2 ^ 24 then 0 else Nat.log2 (num / den) - 23

/-- Whether the model rounds up, `ulp` being one step in parts of `1 / den`. -/
def roundsUp (num ulp : Nat) : Bool :=
  decide (ulp < 2 * (num % ulp)) || (2 * (num % ulp) == ulp && num / ulp % 2 == 1)

theorem roundsUp_iff (num ulp : Nat) : roundsUp num ulp = true ↔
    ulp < 2 * (num % ulp) ∨ (2 * (num % ulp) = ulp ∧ num / ulp % 2 = 1) := by
  simp [roundsUp]

/-- `roundMagnitude` before its cut at the infinity. -/
def roundUnbounded (num den : Nat) : Nat :=
  let e := roundExponent num den
  let ulp := den * 2 ^ e
  e * 2 ^ 23 + (if roundsUp num ulp then num / ulp + 1 else num / ulp)

theorem roundMagnitude_eq (num den : Nat) : roundMagnitude num den = min infMagnitude (roundUnbounded num den) := rfl

/-- The number of whole steps below `num / den` lies in the binade. -/
theorem steps_in_binade (num den : Nat) :
    (roundExponent num den = 0 ∨ 2 ^ 23 ≤ num / (den * 2 ^ roundExponent num den)) ∧
      num / (den * 2 ^ roundExponent num den) < 2 ^ 24 := by
  rw [← Nat.div_div_eq_div_mul, roundExponent]
  split
  · rename_i hsmall
    simpa using hsmall
  · rename_i hlarge
    have hne : num / den ≠ 0 := by omega
    have hlog : 24 ≤ Nat.log2 (num / den) := (Nat.le_log2 hne).mpr (by omega)
    obtain ⟨e, he⟩ : ∃ e, Nat.log2 (num / den) = e + 23 := ⟨_, (Nat.sub_add_cancel (by omega)).symm⟩
    have hself : 2 ^ (e + 23) ≤ num / den := he ▸ Nat.log2_self_le hne
    have hlt : num / den < 2 ^ (e + 24) := (Nat.log2_lt hne).mp (by omega)
    rw [pow_add] at hself hlt
    rw [he, Nat.add_sub_cancel]
    exact ⟨.inr ((Nat.le_div_iff_mul_le (by positivity)).mpr (by omega)),
      (Nat.div_lt_iff_lt_mul (by positivity)).mpr (by omega)⟩

theorem roundUnbounded_nearestEven (num den : Nat) (hden : 0 < den) : NearestEven num den (roundUnbounded num den) := by
  obtain ⟨hlow, hhigh⟩ := steps_in_binade num den
  have hsplit := Nat.div_add_mod num (den * 2 ^ roundExponent num den)
  have hrest := Nat.mod_lt num (show 0 < den * 2 ^ roundExponent num den by positivity)
  have hup := roundsUp_iff num (den * 2 ^ roundExponent num den)
  unfold roundUnbounded
  dsimp only
  generalize roundsUp num (den * 2 ^ roundExponent num den) = up at *
  generalize roundExponent num den = e at *
  generalize num / (den * 2 ^ e) = m at *
  generalize num % (den * 2 ^ e) = rest at *
  have hbelow : magnitudeUnits (e * 2 ^ 23 + m) * den = den * 2 ^ e * m := by
    rw [magnitudeUnits_binade e m hlow hhigh.le]; ring
  have habove : magnitudeUnits (e * 2 ^ 23 + m + 1) * den = den * 2 ^ e * m + den * 2 ^ e := by
    rw [Nat.add_assoc, magnitudeUnits_binade e (m + 1) (by omega) hhigh]; ring
  generalize den * 2 ^ e = ulp at *
  refine nearestEven_of_neighbours hden (hbelow ▸ hsplit) (show num + (ulp - rest) = _ by omega) ?_
  cases up with
  | true =>
    have hup := hup.mp rfl
    exact .inr ⟨(Nat.add_assoc ..).symm, by omega, by omega⟩
  | false =>
    have hdown := mt hup.mpr Bool.false_ne_true
    exact .inl ⟨by simp, by omega, by omega⟩

/-- A nearest pattern overflows exactly from the midpoint to the infinity on, which rounds to the even infinity. -/
theorem NearestEven.lt_infMagnitude_iff {num den k : Nat} (h : NearestEven num den k) (hden : 0 < den) :
    k < infMagnitude ↔ num < overflowUnits * den := by
  obtain ⟨hmax, -⟩ := h (infMagnitude - 1) _ (.inl rfl)
  obtain ⟨hinf, htie⟩ := h infMagnitude _ (.inl rfl)
  have hmid : 2 * (overflowUnits * den) =
      magnitudeUnits (infMagnitude - 1) * den + magnitudeUnits infMagnitude * den := by
    rw [← Nat.mul_assoc, two_mul_overflowUnits, Nat.add_mul]
  have hstep : magnitudeUnits (infMagnitude - 1) * den < magnitudeUnits infMagnitude * den :=
    Nat.mul_lt_mul_of_pos_right (magnitudeUnits_strictMono (by decide)) hden
  simp only [Int.abs_eq_natAbs] at hmax hinf htie
  zify at hmid hstep
  constructor
  · intro hk
    have hne : (magnitudeUnits infMagnitude : Int) ≠ magnitudeUnits k := by
      exact_mod_cast (magnitudeUnits_strictMono hk).ne'
    have htie := fun heq => htie heq hne
    obtain rfl | hlt : k = infMagnitude - 1 ∨ k < infMagnitude - 1 := by omega
    · have hodd : (infMagnitude - 1) % 2 = 1 := by decide
      omega
    · have hlt : (magnitudeUnits k * den : Int) < magnitudeUnits (infMagnitude - 1) * den := by
        exact_mod_cast Nat.mul_lt_mul_of_pos_right (magnitudeUnits_strictMono hlt) hden
      omega
  · intro hnum
    by_contra hk
    have hle : (magnitudeUnits infMagnitude * den : Int) ≤ magnitudeUnits k * den := by
      exact_mod_cast Nat.mul_le_mul_right den (magnitudeUnits_strictMono.monotone (Nat.le_of_not_lt hk))
    omega

@[simp] theorem signedUnits_natAbs (negative : Bool) (u : Nat) : (signedUnits negative u).natAbs = u := by
  cases negative <;> simp [signedUnits]

/-- A nearest pattern is nearest with either sign: changing all signs keeps the distances. -/
theorem NearestEven.signed {num den k : Nat} (h : NearestEven num den k) (negative n : Bool) (j : Nat) :
    |signedUnits negative (magnitudeUnits k) * den - signedUnits negative num| ≤
        |signedUnits n (magnitudeUnits j) * den - signedUnits negative num| ∧
      (|signedUnits negative (magnitudeUnits k) * den - signedUnits negative num| =
          |signedUnits n (magnitudeUnits j) * den - signedUnits negative num| →
        signedUnits n (magnitudeUnits j) ≠ signedUnits negative (magnitudeUnits k) → k % 2 = 0) := by
  have hsign (n : Bool) : signedUnits n (magnitudeUnits j) = magnitudeUnits j ∨
      signedUnits n (magnitudeUnits j) = -(magnitudeUnits j : Int) := by cases n <;> simp [signedUnits]
  cases negative with
  | false => exact h j _ (hsign n)
  | true =>
    obtain ⟨hle, htie⟩ := h j (-signedUnits n (magnitudeUnits j)) (by have := hsign n; omega)
    have hflip (x : Int) : |x * den - -(num : Int)| = |-x * den - num| := by rw [← abs_neg]; congr 1; ring
    have htrue (u : Nat) : signedUnits true u = -(u : Int) := rfl
    simp only [htrue, hflip, neg_neg]
    exact ⟨hle, fun heq hne => htie heq (by omega)⟩

/-- The rounding of the model, with a sign, is correct rounding in the sense of `RoundsTo`. -/
theorem roundsTo_packFloat_roundMagnitude (negative : Bool) (num den : Nat) (hden : 0 < den) :
    RoundsTo (signedUnits negative num) den negative (packFloat negative (roundMagnitude num den)) := by
  have hnearest := roundUnbounded_nearestEven num den hden
  have hfinite := hnearest.lt_infMagnitude_iff hden
  rw [roundMagnitude_eq]
  generalize roundUnbounded num den = k at *
  unfold RoundsTo
  rw [signedUnits_natAbs]
  split
  · rename_i hlt
    have hk : k < infMagnitude := hfinite.mpr hlt
    rw [min_eq_right hk.le]
    refine ⟨magnitudeUnits k, floatVal_packFloat_fin negative k hk, fun c n v hc => ?_⟩
    obtain ⟨j, rfl⟩ := units_of_floatVal_fin hc
    obtain ⟨hle, htie⟩ := hnearest.signed negative n j
    refine ⟨hle, fun heq hne => ?_⟩
    rw [packFloat_bit_zero negative k (hk.trans (by decide)), htie heq hne]
    rfl
  · rename_i hge
    rw [min_eq_left (Nat.le_of_not_lt (mt hfinite.mp hge))]
    exact floatVal_packFloat_inf negative

/-! ### Sums, differences and products of finite values -/

/-- An integer is its magnitude with its own sign, and with any sign where it is zero. -/
theorem signedUnits_sign_natAbs (x : Int) (zeroSign : Bool) :
    signedUnits (if x = 0 then zeroSign else decide (x < 0)) x.natAbs = x := by
  split
  · rename_i hx
    simp [hx, signedUnits]
  · simp only [signedUnits, decide_eq_true_eq]
    omega

theorem roundsTo_signed (x : Int) (zeroSign : Bool) :
    RoundsTo x 1 (if x = 0 then zeroSign else decide (x < 0))
      (packFloat (if x = 0 then zeroSign else decide (x < 0)) (roundMagnitude x.natAbs 1)) := by
  simpa only [signedUnits_sign_natAbs] using
    roundsTo_packFloat_roundMagnitude (if x = 0 then zeroSign else decide (x < 0)) x.natAbs 1 Nat.one_pos

/-- The model's sum of finite values in one equation: a zero sum is the rounding of 0 too. -/
theorem floatSum_fin (n n' : Bool) (u u' : Nat) :
    let x := signedUnits n u + signedUnits n' u'
    floatSum (.fin n u) (.fin n' u') =
      some (packFloat (if x = 0 then n && n' else decide (x < 0)) (roundMagnitude x.natAbs 1)) := by
  intro x
  have hround : roundMagnitude 0 1 = 0 := by decide
  show (if x = 0 then _ else _) = _
  split
  · rename_i hx
    simp [hx, hround]
  · rfl

theorem signedUnits_not (n : Bool) (u : Nat) : signedUnits (!n) u = -signedUnits n u := by
  cases n <;> simp [signedUnits]

/-- Settles O26: sum and difference are one rounded integer with its own sign, or with the sign rule of an exact zero. -/
theorem addAndSubAreCorrectlyRounded : Obligations.AddAndSubAreCorrectlyRounded := by
  intro op a b n n' u u' ha hb
  constructor
  · rw [floatAdd, ha, hb, floatSum_fin]
    exact roundsTo_signed _ _
  · rw [floatSub, ha, hb, floatOpposite, floatSum_fin, signedUnits_not, ← Int.sub_eq_add_neg]
    exact roundsTo_signed _ _

/-- Settles O27: the product of the magnitudes counts units of 2^-298, which is `num / 2^149` units of 2^-149. -/
theorem mulIsCorrectlyRounded : Obligations.MulIsCorrectlyRounded := by
  intro op a b n n' u u' ha hb
  rw [floatMul, ha, hb]
  exact roundsTo_packFloat_roundMagnitude _ _ _ (by positivity)

end Sys2Proof.Machine

/-! ## The invariant of a constructed machine (R45, R370) -/

namespace Sys2Proof.Machine

/-- The default layout is valid on every legal Memory: the smallest one already holds the stack segment (R71, R73). -/
theorem State.constructed_invariant {p : Config.Params}
    (hsize : Config.minTotalSize ≤ p.totalSize ∧ p.totalSize ≤ Config.maxTotalSize) (hcapacity : p.capacityLegal) :
    MachineInvariant (State.constructed p) where
  size := hsize
  capacity := hcapacity
  memory := Memory.wf_nil
  memoryBound := nofun
  flagsReserved := by simp [State.constructed]
  layout := by
    obtain ⟨hmin, -⟩ := hsize
    simp only [Config.minTotalSize] at hmin
    simp only [layoutValid, State.constructed, SegmentLayout.default, Config.defaultStackSize]
    omega
  callDepth _ _ := Nat.zero_le _
  boundary := .inl rfl
  faultCode := by simp [State.constructed]

/-- Settles O10: reset is the construction with the default parameters. -/
theorem invariantHoldsAtReset : Obligations.InvariantHoldsAtReset :=
  State.constructed_invariant (by decide) (by decide)

end Sys2Proof.Machine

/-! ## Every step from a cycle boundary answers a next state (R140, R148, R153) -/

namespace Sys2Proof.Machine

/-- A decode error is the machine's own fault, and every instruction answers a next state. -/
theorem stepWord_answers_next (w : Word) (s : State) : ∃ t, stepWord w s = .next t := by
  cases hdecode : decodeWord w with
  | error e => exact ⟨s.enterFault .invalidInstruction, by simp only [stepWord, hdecode, raiseFault]⟩
  | ok i =>
    obtain ⟨t, hexec, -⟩ := exec_answers i s
    exact ⟨t, by simp only [stepWord, hdecode, hexec]⟩

theorem step_ready_answers_next (s : State) (hready : s.runState = .ready) : ∃ t, step s = .next t := by
  cases hfetch : s.fetchWord with
  | none => exact ⟨_, step_unfetched s hready hfetch⟩
  | some w =>
    rw [step_fetched s w hready hfetch]
    exact stepWord_answers_next w _

/-- Settles O8: between cycles a machine is Ready, or in a terminal state that the step keeps. -/
theorem noReachableStop : Obligations.NoReachableStop := by
  intro s h
  obtain hready | hterminal := h.boundary
  · exact step_ready_answers_next s hready
  · exact ⟨s, step_terminal s hterminal⟩

end Sys2Proof.Machine

/-! ## The queue entry of an earlier cycle (R40, R381) -/

namespace Sys2Proof.Machine

/-- The state with another queue entry. -/
def State.withQueue (s : State) (q : Option Word) : State := { s with queue := q }

theorem mapNext_withQueue_withQueue (q q' : Option Word) (r : Result) :
    mapNext (fun t => t.withQueue q') (mapNext (fun t => t.withQueue q) r) = mapNext (fun t => t.withQueue q') r := by
  cases r <;> rfl

/-- No cycle starts within a cycle (R140; log 7). -/
theorem step_notAtBoundary (s : State) (h : s.runState ∈ [.fetching, .decoding, .executing]) :
    step s = .fault .notAtBoundary := by
  obtain h | h | h : s.runState = .fetching ∨ s.runState = .decoding ∨ s.runState = .executing := by simpa using h
  all_goals simp only [step, h]

/-- A fetch that succeeds does not read the queue entry and overwrites it (R141). -/
theorem step_withQueue_of_fetched (s : State) (q : Option Word) (w : Word) (hready : s.runState = .ready)
    (hfetch : s.fetchWord = some w) : step (s.withQueue q) = step s :=
  (step_fetched (s.withQueue q) w hready hfetch).trans (step_fetched s w hready hfetch).symm

/-- A step that fetches nothing neither reads nor writes the queue entry. -/
theorem step_withQueue_of_not_fetched (s : State) (q : Option Word)
    (hfetch : s.runState = .ready → s.fetchWord = none) :
    step (s.withQueue q) = mapNext (fun t => t.withQueue q) (step s) := by
  cases hrun : s.runState with
  | ready => rw [step_unfetched s hrun (hfetch hrun), step_unfetched (s.withQueue q) hrun (hfetch hrun)]; rfl
  | halted | faulted =>
    have hterminal : s.runState = .halted ∨ s.runState = .faulted := by simp [hrun]
    rw [step_terminal s hterminal, step_terminal (s.withQueue q) hterminal]; rfl
  | fetching | decoding | executing =>
    have hphase : s.runState ∈ [.fetching, .decoding, .executing] := by simp [hrun]
    rw [step_notAtBoundary s hphase, step_notAtBoundary (s.withQueue q) hphase]; rfl

/-- Settles O19: a step that fetches overwrites the entry, and any other step carries it through. -/
theorem queueNeverMatters : Obligations.QueueNeverMatters := by
  refine fun s q => ⟨?_, fun hready hrange => ?_⟩
  · by_cases hfetch : s.runState = .ready ∧ ∃ w, s.fetchWord = some w
    · obtain ⟨hready, w, hw⟩ := hfetch
      exact congrArg _ (step_withQueue_of_fetched s q w hready hw)
    · have hnone : s.runState = .ready → s.fetchWord = none := fun hready =>
        Option.eq_none_iff_forall_ne_some.mpr fun w hw => hfetch ⟨hready, w, hw⟩
      exact (congrArg _ (step_withQueue_of_not_fetched s q hnone)).trans (mapNext_withQueue_withQueue q none _)
  · have hfetch : s.fetchWord = some (wordOfBytes (Memory.readBytes s.mem s.pc.toNat 4)) :=
      (State.memRead_some s _ _ _).mpr ⟨hrange, rfl⟩
    exact step_withQueue_of_fetched s q _ hready hfetch

end Sys2Proof.Machine

/-! ## Noninterference: an update of the state that an instruction neither reads nor writes

An instruction commutes with an update of the state that keeps what it reads and commutes with the operations it applies.
Which operations these are is a matter of the spec's instruction classes (R31, R41, R266). -/

namespace Sys2Proof.Machine

@[simp] theorem mapNext_next (f : State → State) (s : State) : mapNext f (.next s) = .next (f s) := rfl

/-- The update `f` keeps what an instruction of this mnemonic reads and commutes with the operations it applies. The fields
without a condition on the mnemonic concern what any instruction may use. -/
structure Independent (m : Mnemonic) (f : State → State) : Prop where
  pc : ∀ s, (f s).pc = s.pc := by intros; rfl
  params : ∀ s, (f s).params = s.params := by intros; rfl
  layout : ∀ s, (f s).layout = s.layout := by intros; rfl
  mem : ∀ s, (f s).mem = s.mem := by intros; rfl
  reg : ∀ s r, (f s).reg r = s.reg r := by intros; rfl
  setReg : ∀ s r v, f (s.setReg r v) = (f s).setReg r v := by intros; rfl
  setMem : ∀ s mem, f (s.setMem mem) = (f s).setMem mem := by intros; rfl
  advance : ∀ s, f s.advance = (f s).advance := by intros; rfl
  redirect : ∀ s a, f (s.redirect a) = (f s).redirect a := by intros; rfl
  halt : ∀ s, f s.halt = (f s).halt := by intros; rfl
  enterFault : ∀ s c, f (s.enterFault c) = (f s).enterFault c := by intros; rfl
  /-- The flag readers (R31). -/
  flags : m ∈ flagReaders → ∀ s, (f s).flags = s.flags := by intros; rfl
  /-- The flag writers (R31). -/
  setFlags : m ∈ flagWriters → ∀ s fl, f (s.setFlags fl) = (f s).setFlags fl := by intros; rfl
  /-- The I/O instructions (R266). -/
  chanHead : m ∈ channelUsers → ∀ s, (f s).chanHead = s.chanHead := by intros; rfl
  chanDrop : m ∈ channelUsers → ∀ s, f s.chanDrop = (f s).chanDrop := by intros; rfl
  chanWrite : m ∈ channelUsers → ∀ s bs, f (s.chanWrite bs) = (f s).chanWrite bs := by intros; rfl
  /-- CALL and RET (R41). -/
  callStack : m ∈ [.call, .ret] → ∀ s, (f s).callStack = s.callStack := by intros; rfl
  callPush : m ∈ [.call, .ret] → ∀ s a, f (s.callPush a) = (f s).callPush a := by intros; rfl
  callDrop : m ∈ [.call, .ret] → ∀ s, f s.callDrop = (f s).callDrop := by intros; rfl

namespace Independent

variable {m : Mnemonic} {f : State → State} (h : Independent m f) (s : State)
include h

theorem value (src : Operand) : src.value (f s) = src.value s := by
  cases src with
  | reg r => exact h.reg s r
  | immInt v => rfl
  | immFlt v => rfl
  | addr a => rfl

/-! ### The meanings

Where an operation gets values that were read from the state, they are equal before and after the update. -/

theorem finishFloat (hm : m ∈ flagWriters) (ra : Reg) {r r' : Word} (hr : r' = r) :
    finishFloat ra r' (f s) = mapNext f (finishFloat ra r s) := by
  simp only [hr, finishFloat_eq, mapNext_next, h.advance, h.setFlags hm, h.setReg]

theorem finishBits (hm : m ∈ flagWriters) (ra : Reg) {r r' : Word} (hr : r' = r) {c c' : Bool} (hc : c' = c) :
    finishBits ra r' c' (f s) = mapNext f (finishBits ra r c s) := by
  simp only [hr, hc, finishBits_eq, mapNext_next, h.advance, h.setFlags hm, h.setReg]

theorem cmpw (hm : m ∈ flagWriters) (ra : Reg) (src : Operand) : cmpw ra src (f s) = mapNext f (cmpw ra src s) := by
  simp only [Machine.cmpw, mapNext_next, h.advance, h.setFlags hm, h.reg, h.value]

theorem finishMove (ra : Reg) {v v' : Word} (hv : v' = v) :
    finishMove ra v' (f s) = mapNext f (finishMove ra v s) := by
  simp only [hv, finishMove_eq, mapNext_next, h.advance, h.setReg]

theorem lodw (rg : Reg) (a : Word) : execLodwRegAddr rg a (f s) = mapNext f (execLodwRegAddr rg a s) := by
  simp only [execLodwRegAddr_eq, h.params, h.mem]
  split <;> simp only [mapNext_next, h.advance, h.setReg, h.enterFault]

theorem finishStore {a a' : Nat} (ha : a' = a) {v v' : Word} (hv : v' = v) :
    finishStore a' v' (f s) = mapNext f (finishStore a v s) := by
  simp only [ha, hv, finishStore_eq, h.params, h.mem]
  split <;> simp only [mapNext_next, h.advance, h.setMem, h.enterFault]

theorem push (src : Operand) : push src (f s) = mapNext f (push src s) := by
  simp only [push_eq, h.params, h.layout, h.mem, h.reg, h.value]
  split
  · split <;> simp only [mapNext_next, h.advance, h.setReg, h.setMem, h.enterFault]
  · rw [mapNext_next, h.enterFault]

theorem pop (ra : Reg) : execPopReg ra (f s) = mapNext f (execPopReg ra s) := by
  simp only [execPopReg_eq, h.params, h.layout, h.mem, h.reg]
  split
  · split <;> simp only [mapNext_next, h.advance, h.setReg, h.enterFault]
  · rw [mapNext_next, h.enterFault]

theorem xcgh (ra rb : Reg) : execXcghReg ra rb (f s) = mapNext f (execXcghReg ra rb s) := by
  simp only [execXcghReg, mapNext_next, h.advance, h.setReg, h.reg]

theorem jumpIf {taken taken' : Bool} (htaken : taken' = taken) (a : Word) :
    jumpIf taken' a (f s) = mapNext f (jumpIf taken a s) := by
  subst htaken
  cases taken' with
  | true => exact congrArg _ (h.redirect s a).symm
  | false => exact congrArg _ (h.advance s).symm

theorem callStackFull (hm : m ∈ [.call, .ret]) : (f s).callStackFull = s.callStackFull := by
  simp only [State.callStackFull, h.params, h.callStack hm]

theorem call (hm : m ∈ [.call, .ret]) (a : Word) : execCallAddr a (f s) = mapNext f (execCallAddr a s) := by
  simp only [execCallAddr_eq, h.callStackFull s hm, h.pc]
  split <;> simp only [mapNext_next, h.redirect, h.callPush hm, h.enterFault]

theorem ret (hm : m ∈ [.call, .ret]) : execRetNone (f s) = mapNext f (execRetNone s) := by
  cases hcs : s.callStack with
  | nil =>
    rw [execRetNone_fault s hcs, execRetNone_fault (f s) ((h.callStack hm s).trans hcs), mapNext_next, h.enterFault]
  | cons a rest =>
    rw [execRetNone_next a rest s hcs, execRetNone_next a rest (f s) ((h.callStack hm s).trans hcs), mapNext_next,
      h.redirect, h.callDrop hm]

theorem haltNone : execHaltNone (f s) = mapNext f (execHaltNone s) := by
  simp only [execHaltNone, mapNext_next, h.advance, h.halt]

theorem inn (hm : m ∈ channelUsers) (ra : Reg) : execInReg ra (f s) = mapNext f (execInReg ra s) := by
  simp only [execInReg, mapNext_next, h.advance, h.setReg, h.chanDrop hm, h.chanHead hm]

theorem out (hm : m ∈ channelUsers) (src : Operand) : out src (f s) = mapNext f (out src s) := by
  simp only [Machine.out, mapNext_next, h.advance, h.chanWrite hm, h.value]

theorem stringIn (hm : m ∈ channelUsers) {a a' : Nat} (ha : a' = a) :
    stringIn a' (f s) = mapNext f (stringIn a s) := by
  simp only [ha, stringIn_eq, h.params, h.mem, h.chanHead hm]
  split <;> simp only [mapNext_next, h.advance, h.setMem, h.chanDrop hm, h.enterFault]

theorem stringOut (hm : m ∈ channelUsers) {a a' : Nat} (ha : a' = a) :
    stringOut a' (f s) = mapNext f (stringOut a s) := by
  subst ha
  cases hlength : Memory.stringLength s.mem a' (s.params.totalSize - a') with
  | none => simp only [Machine.stringOut, h.params, h.mem, hlength, raiseFault, mapNext_next, h.enterFault]
  | some n => simp only [Machine.stringOut, h.params, h.mem, hlength, mapNext_next, h.advance, h.chanWrite hm]

end Independent

/-- An instruction commutes with every update that is independent of its mnemonic. -/
theorem exec_independent {i : Instr} {f : State → State} (h : Independent i.mnemonic f) (s : State) :
    exec i (f s) = mapNext f (exec i s) := by
  cases i <;> dsimp only [Instr.mnemonic] at h
  case addwReg | addwImmInt | addwImmFlt | subwReg | subwImmInt | subwImmFlt | mulReg | mulImmInt | mulImmFlt
    | incReg | decReg | negReg => exact h.finishFloat s (by decide) _ (by simp only [h.reg, h.value])
  case andReg | andImmInt | andImmFlt | orReg | orImmInt | orImmFlt | xorReg | xorImmInt | xorImmFlt
    | notReg | shlReg | shlImmInt | shlImmFlt | shrReg | shrImmInt | shrImmFlt =>
    exact h.finishBits s (by decide) _ (by simp only [h.reg, h.value]) (by simp only [h.reg, h.value])
  case moviImmInt | moviImmFlt | movwReg | lodiImmInt | lodiImmFlt =>
    exact h.finishMove s _ (by simp only [h.reg, h.value])
  case lodwRegAddr => exact h.lodw s _ _
  case striImmInt | striImmFlt | strwRegAddr =>
    exact h.finishStore s (by simp only [h.reg]) (by simp only [h.reg, h.value])
  case pushReg | pushImmInt | pushImmFlt => exact h.push s _
  case popReg => exact h.pop s _
  case xcghReg => exact h.xcgh s _ _
  case cmpwReg | cmpwImmInt | cmpwImmFlt => exact h.cmpw s (by decide) _ _
  case jmpAddr a => exact congrArg _ (h.redirect s a).symm
  case callAddr => exact h.call s (by decide) _
  case retNone => exact h.ret s (by decide)
  case jeAddr | jneAddr | jgtAddr | jgeAddr | jltAddr | jleAddr | jsAddr | jcoAddr =>
    exact h.jumpIf s (by rw [h.flags (by decide)]) _
  case haltNone => exact h.haltNone s
  case inReg => exact h.inn s (by decide) _
  case outReg | outImmInt | outImmFlt => exact h.out s (by decide) _
  case insiAddr | inswReg => exact h.stringIn s (by decide) (by simp only [h.reg])
  case outiAddr | outwReg => exact h.stringOut s (by decide) (by simp only [h.reg])

/-- Settles O16: setting the Call Stack is independent of every mnemonic but CALL and RET. -/
theorem callStackIsPrivateToCallAndRet : Obligations.CallStackIsPrivateToCallAndRet := by
  intro i s cs hcall hret
  have hneither : i.mnemonic ∉ [.call, .ret] := by simp [hcall, hret]
  have h : Independent i.mnemonic (fun t => { t with callStack := cs }) :=
    { callStack := fun hm => absurd hm hneither
      callPush := fun hm => absurd hm hneither
      callDrop := fun hm => absurd hm hneither }
  exact exec_independent h s

/-! ## The FLAGS register (R31) -/

/-- Only an effect of a flag writer sets FLAGS. -/
theorem Effect.flags {m : Mnemonic} {s t : State} (heffect : Effect m s t) (hm : m ∉ flagWriters) :
    t.flags = s.flags := by
  cases heffect with
  | result hwriter => exact absurd hwriter hm
  | compared hcmpw => exact absurd (hcmpw ▸ by decide) hm
  | _ => rfl

theorem finishFloat_setFlags (ra : Reg) (r : Word) (s : State) (fl : Word) :
    finishFloat ra r (s.setFlags fl) = finishFloat ra r s := rfl

theorem finishBits_setFlags (ra : Reg) (r : Word) (c : Bool) (s : State) (fl : Word) :
    finishBits ra r c (s.setFlags fl) = finishBits ra r c s := rfl

theorem cmpw_setFlags (ra : Reg) (src : Operand) (s : State) (fl : Word) :
    cmpw ra src (s.setFlags fl) = cmpw ra src s := by
  cases src <;> rfl

/-- A flag writer overwrites all of FLAGS and reads nothing of it. -/
theorem exec_setFlags_of_writer (i : Instr) (s : State) (fl : Word) (hm : i.mnemonic ∈ flagWriters) :
    exec i (s.setFlags fl) = exec i s := by
  cases i <;> dsimp only [Instr.mnemonic] at hm
  case addwReg | addwImmInt | addwImmFlt | subwReg | subwImmInt | subwImmFlt | mulReg | mulImmInt | mulImmFlt
    | incReg | decReg | negReg => exact finishFloat_setFlags ..
  case andReg | andImmInt | andImmFlt | orReg | orImmInt | orImmFlt | xorReg | xorImmInt | xorImmFlt
    | notReg | shlReg | shlImmInt | shlImmFlt | shrReg | shrImmInt | shrImmFlt => exact finishBits_setFlags ..
  case cmpwReg | cmpwImmInt | cmpwImmFlt => exact cmpw_setFlags ..
  all_goals exact absurd hm (by decide)

/-- Settles O14: setting FLAGS is undone by the writers, and independent of every mnemonic that is neither a writer nor
a reader. -/
theorem flagWritersAndReadersAreComplete : Obligations.FlagWritersAndReadersAreComplete := by
  refine ⟨fun i s t hm h => (exec_effect h).flags hm, exec_setFlags_of_writer, fun i s fl hwriter hreader => ?_⟩
  have h : Independent i.mnemonic (fun t => t.setFlags fl) :=
    { flags := fun hm => absurd hm hreader
      setFlags := fun hm => absurd hm hwriter }
  exact exec_independent h s

end Sys2Proof.Machine

/-! ## Who writes Memory (R68) -/

namespace Sys2Proof.Machine

/-- Only a store, a PUSH and a string input that completes write Memory. -/
theorem Effect.keepsMemory {m : Mnemonic} {s t : State} (heffect : Effect m s t) (hm : m ∉ memoryWriters) :
    KeepsMemory s t := by
  intro a
  cases heffect with
  | stored hstore =>
    obtain rfl | rfl : m = .stri ∨ m = .strw := by simpa using hstore
    all_goals exact absurd (by decide) hm
  | pushed hpush => exact absurd (hpush ▸ by decide) hm
  | stringStored hstring =>
    obtain rfl | rfl : m = .insi ∨ m = .insw := by simpa using hstring
    all_goals exact absurd (by decide) hm
  | _ => rfl

/-- Settles O20: of the effects of an instruction only those of the five writers store. -/
theorem onlyStoresWriteMemory : Obligations.OnlyStoresWriteMemory :=
  fun _ _ _ hm hexec => (exec_effect hexec).keepsMemory hm

end Sys2Proof.Machine

/-! ## Reads of a stored word (R61 to R66) -/

namespace Sys2Proof.Machine

theorem Memory.readBytes_getD (m : List Host.Cell) (a n k : Nat) :
    (Memory.readBytes m a n).getD k 0 = if k < n then Memory.read m (a + k) else 0 := by
  induction n generalizing a k with
  | zero => simp [Memory.readBytes]
  | succ n ih =>
    cases k with
    | zero => simp [Memory.readBytes]
    | succ k =>
      rw [Memory.readBytes, List.getD_cons_succ, ih, show a + 1 + k = a + (k + 1) by omega]
      simp only [Nat.succ_lt_succ_iff]

/-- A read in range answers the value whose bit `i`, below the `8 n` bits read, is bit `i % 8` of the byte at `a + i / 8`. -/
theorem State.memRead_of_bits {s : State} {a n : Nat} {w : Word} (hrange : a + n ≤ s.params.totalSize)
    (hbits : ∀ i < 32, w.getLsbD i = (decide (i < 8 * n) && (s.byteAt (a + i / 8)).getLsbD (i % 8))) :
    s.memRead a n = some w := by
  refine (State.memRead_some s a n w).mpr ⟨hrange, BitVec.eq_of_getLsbD_eq fun i hi => ?_⟩
  rw [hbits i hi, wordOfBytes_bit _ i hi, Memory.readBytes_getD]
  by_cases hin : i < 8 * n
  · simp [hin, show i / 8 < n by omega, State.byteAt]
  · simp [hin, show ¬ i / 8 < n by omega]

theorem State.memWrite_params {s t : State} {a n : Nat} {v : Word} (hstore : s.memWrite a n v = some t) :
    t.params = s.params := by
  obtain ⟨-, rfl⟩ := (State.memWrite_some s t a n v).mp hstore
  rfl

section StoredWord

variable {s t : State} {a : Nat} {v : Word} (hwf : Memory.wf s.mem) (hstore : s.memWrite a 4 v = some t)
include hwf hstore

theorem State.memWrite_wf : Memory.wf t.mem := by
  obtain ⟨-, rfl⟩ := (State.memWrite_some s t a 4 v).mp hstore
  exact Memory.writeBytes_wf _ _ _ hwf

/-- The stored word's own bytes: byte `k` holds its bits from `8 k` on (R61). -/
theorem State.memWrite_byteAt_bit {k j : Nat} (hk : k < 4) (hj : j < 8) :
    (t.byteAt (a + k)).getLsbD j = v.getLsbD (8 * k + j) := by
  obtain ⟨-, rfl⟩ := (State.memWrite_some s t a 4 v).mp hstore
  rw [State.byteAt_writeBytes s a _ _ hwf, bytesOfWord_length, if_pos (by omega), Nat.add_sub_cancel_left,
    bytesOfWord_bit v 4 k j hk hj]

/-- A store touches no byte outside its four (R64). -/
theorem State.memWrite_keepsMemoryOutside : KeepsMemoryOutside a 4 s t := by
  obtain ⟨-, rfl⟩ := (State.memWrite_some s t a 4 v).mp hstore
  intro k hk
  rw [State.byteAt_writeBytes s a _ _ hwf, bytesOfWord_length, if_neg (by omega)]

/-- A read of `n` bytes that lies within the stored word, `k` bytes after its start, answers those bytes of it, zero-extended
(R62, R63). -/
theorem State.memRead_within_store {k n : Nat} (hkn : k + n ≤ 4) :
    t.memRead (a + k) n = some ((v.extractLsb' (8 * k) (8 * n)).setWidth 32) := by
  obtain ⟨hrange, -⟩ := (State.memWrite_some s t a 4 v).mp hstore
  rw [← State.memWrite_params hstore] at hrange
  refine State.memRead_of_bits (by omega) fun i hi => ?_
  by_cases hin : i < 8 * n
  · have hbit := State.memWrite_byteAt_bit hwf hstore (show k + i / 8 < 4 by omega) (Nat.mod_lt i (by decide : 0 < 8))
    simp [hi, hin, Nat.add_assoc, hbit, show 8 * (k + i / 8) + i % 8 = 8 * k + i by omega]
  · simp [hin]

/-- A read of four bytes from the stored word's second byte on takes its upper three bytes and the byte after it (R62). -/
theorem State.memRead_across_store (hrange : a + 5 ≤ s.params.totalSize) :
    t.memRead (a + 1) 4 = some (v >>> 8 ||| (s.byteAt (a + 4)).setWidth 32 <<< 24) := by
  rw [← State.memWrite_params hstore] at hrange
  refine State.memRead_of_bits (by omega) fun i hi => ?_
  by_cases hin : i < 24
  · have hbit := State.memWrite_byteAt_bit hwf hstore (show 1 + i / 8 < 4 by omega) (Nat.mod_lt i (by decide : 0 < 8))
    simp [hi, hin, Nat.add_assoc, hbit, show 8 * (1 + i / 8) + i % 8 = 8 + i by omega]
  · have hafter := State.memWrite_keepsMemoryOutside hwf hstore (a + 4) (by omega)
    simp [hi, hin, Nat.add_assoc, show 1 + i / 8 = 4 by omega, hafter, show i % 8 = i - 24 by omega,
      BitVec.getLsbD_of_ge v (8 + i) (by omega)]

end StoredWord

/-- A field of a word, zero-extended, is a shift and a mask. -/
theorem setWidth_extract_eq_shift_and_mask (v : Word) (k n : Nat) :
    (v.extractLsb' k n).setWidth 32 = v >>> k &&& BitVec.ofNat 32 (2 ^ n - 1) := by
  apply BitVec.eq_of_getLsbD_eq
  intro i hi
  simp only [BitVec.getLsbD_setWidth, BitVec.getLsbD_extractLsb', BitVec.getLsbD_and, BitVec.getLsbD_ushiftRight,
    BitVec.getLsbD_ofNat, Nat.testBit_two_pow_sub_one, hi, decide_true, Bool.true_and]
  exact Bool.and_comm ..

/-- The upper part of a word, zero-extended, is a shift. -/
theorem setWidth_extract_eq_shift (v : Word) (k n : Nat) (h : k + n = 32) :
    (v.extractLsb' k n).setWidth 32 = v >>> k := by
  apply BitVec.eq_of_getLsbD_eq
  intro i hi
  by_cases hin : i < n
  · simp [hi, hin]
  · simp [hin, BitVec.getLsbD_of_ge v (k + i) (by omega)]

/-- Settles O54: the reads within the word and the one across its end, each from the bytes the write has stored. -/
theorem mixedWidthAccesses : Obligations.MixedWidthAccesses := by
  refine fun s a v hwf => ⟨fun hrange => ?_, fun hrange => ?_⟩
  · have hstore := (State.memWrite_some s _ a 4 v).mpr ⟨hrange, rfl⟩
    have hread {k n : Nat} (hkn : k + n ≤ 4) := State.memRead_within_store hwf hstore hkn
    refine ⟨_, hstore, ?_, ?_, ?_, ?_, ?_, State.memRead_across_store hwf hstore,
      State.memWrite_keepsMemoryOutside hwf hstore, State.memWrite_wf hwf hstore⟩
    · simpa using hread (k := 0) (n := 4) (by decide)
    · simpa [setWidth_extract_eq_shift_and_mask] using hread (k := 0) (n := 1) (by decide)
    · simpa [setWidth_extract_eq_shift_and_mask] using hread (k := 1) (n := 1) (by decide)
    · simpa [setWidth_extract_eq_shift_and_mask] using hread (k := 0) (n := 2) (by decide)
    · simpa [setWidth_extract_eq_shift] using hread (k := 2) (n := 2) (by decide)
  · exact ⟨(State.memWrite_none s a 4 v).mpr hrange, (State.memRead_none s a 4).mpr hrange⟩

end Sys2Proof.Machine

/-! ## An assembled image loads (R74, R316, R374) -/

namespace Sys2Proof.Machine

/-- Every instruction line becomes one word (R319). -/
theorem pass2Lines_length {symbols : SymbolTable} {code : List AsmCode} {ws : List Word}
    (h : pass2Lines symbols code = .ok ws) : ws.length = code.length := by
  induction code generalizing ws with
  | nil =>
    obtain rfl : [] = ws := by simpa [pass2Lines] using h
    rfl
  | cons c cs ih =>
    unfold pass2Lines at h
    split at h
    · cases h
    · split at h
      · cases h
      · next i _ _ rest hrest =>
        obtain rfl : encode i :: rest = ws := by simpa using h
        rw [List.length_cons, List.length_cons, ih hrest]

/-- Everything an assembled image comes from: a Pass 1 whose layout has passed the check, and the words of Pass 2 (R315 to R319). -/
theorem assemble_ok {source : Text} {totalSize : Nat} {img : Image} (h : assemble source totalSize = .ok img) :
    ∃ (p : Pass1) (ws : List Word), p.layoutOk totalSize ∧ pass2Lines (p.symbols totalSize) p.code = .ok ws ∧
      img = { textStart := p.finalTextStart, stackStart := (p.finalStackStart totalSize).toNat
              stackSize := p.finalStackSize, text := ws, data := p.data } := by
  unfold assemble at h
  split at h
  · cases h
  · next p _ =>
    split at h
    · next hlayout =>
      split at h
      · cases h
      · next ws hwords => exact ⟨p, ws, hlayout, hwords, by simpa [eq_comm] using h⟩
    · cases h

/-- The check between the passes is the check of `load`: the image's numbers are those of Pass 1, and a `stack_start` that has
passed it is not negative. -/
theorem assembled_fits {source : Text} {totalSize : Nat} {img : Image} (h : assemble source totalSize = .ok img) :
    img.fits totalSize := by
  obtain ⟨p, ws, hlayout, hwords, rfl⟩ := assemble_ok h
  have hstart : ((p.finalStackStart totalSize).toNat : Int) = p.finalStackStart totalSize := by
    obtain ⟨⟨-, -, -, hstack, -⟩, -⟩ := hlayout
    exact Int.toNat_of_nonneg hstack
  simpa only [Image.fits, hstart, pass2Lines_length hwords] using hlayout

@[simp] theorem Image.textBytes_length (img : Image) : img.textBytes.length = 4 * img.text.length := by
  simp [Image.textBytes, List.length_flatMap, Nat.mul_comm]

theorem State.memWriteBytes_of_le {s : State} {a : Nat} {bs : List Byte} (h : a + bs.length ≤ s.params.totalSize) :
    s.memWriteBytes a bs = some (s.setMem (Memory.writeBytes s.mem a bs)) :=
  (State.memWriteBytes_some s _ a bs).mpr ⟨h, rfl⟩

/-- With a valid layout both segments lie within Memory, so `load` cannot fail (R374). -/
theorem hostLoad_of_fits (s : State) (img : Image) (hfits : img.fits s.params.totalSize) :
    hostLoad s img = .ok (hostReset { s with
      mem := Memory.writeBytes (Memory.writeBytes [] img.textStart img.textBytes)
        (img.stackStart - img.data.length) img.data
      layout := { textStart := img.textStart, stackStart := img.stackStart, stackSize := img.stackSize } }) := by
  obtain ⟨⟨-, htext, hdata, -, hstack⟩, -⟩ := id hfits
  have htextRange : img.textStart + img.textBytes.length ≤ s.params.totalSize := by
    rw [Image.textBytes_length]; omega
  have hdataRange : img.stackStart - img.data.length + img.data.length ≤ s.params.totalSize := by omega
  rw [hostLoad, if_pos hfits]
  dsimp only
  rw [State.memWriteBytes_of_le (by exact htextRange)]
  dsimp only
  rw [State.memWriteBytes_of_le (by exact hdataRange)]
  rfl

/-- Settles O59: the Assembler's layout check is the one `load` makes. -/
theorem assembledImagesLoad : Obligations.AssembledImagesLoad :=
  fun _ s img h => ⟨assembled_fits h, _, hostLoad_of_fits s img (assembled_fits h)⟩

end Sys2Proof.Machine

/-! ## Decoding an encoded instruction (R115, R116)

One lemma per format: what its decoder answers on the word its encoder makes. -/

namespace Sys2Proof

theorem wordOpcode_encode (i : Instr) : wordOpcode (encode i) = i.mnemonic.opcode := by
  cases i
  case retNone | haltNone => exact wordOpcode_encodeN _
  case incReg | decReg | negReg | notReg | popReg | inReg | inswReg | outwReg => exact wordOpcode_encodeR ..
  case pushReg | pushImmInt | pushImmFlt | outReg | outImmInt | outImmFlt => exact wordOpcode_encodeS ..
  case jmpAddr | callAddr | jeAddr | jneAddr | jgtAddr | jgeAddr | jltAddr | jleAddr | jsAddr | jcoAddr
    | insiAddr | outiAddr => exact wordOpcode_encodeA ..
  case lodwRegAddr | strwRegAddr => exact wordOpcode_encodeRA ..
  all_goals exact wordOpcode_encodeRS ..

theorem ofOpcode_encode (i : Instr) : Mnemonic.ofOpcode (wordOpcode (encode i)) = some i.mnemonic := by
  rw [wordOpcode_encode, Mnemonic.ofOpcode_opcode]

/-! ### Representable values are read back (R112, R114) -/

/-- Bits 31:19 of a representable integer are all equal. -/
theorem getLsbD_of_immIntRepresentable {v : Word} (h : immIntRepresentable v = true) :
    ∃ b, ∀ i, 19 ≤ i → i < 32 → v.getLsbD i = b := by
  have hfield (i : Nat) (hlow : 19 ≤ i) (hhigh : i < 32) : v.getLsbD i = (v.extractLsb' 19 13).getLsbD (i - 19) := by
    simp [show i - 19 < 13 by omega, show 19 + (i - 19) = i by omega]
  obtain hzeros | hones : v.extractLsb' 19 13 = 0#13 ∨ v.extractLsb' 19 13 = BitVec.allOnes 13 := by
    simpa [immIntRepresentable] using h
  · exact ⟨false, fun i hlow hhigh => by rw [hfield i hlow hhigh, hzeros, BitVec.getLsbD_zero]⟩
  · refine ⟨true, fun i hlow hhigh => ?_⟩
    rw [hfield i hlow hhigh, hones, BitVec.getLsbD_allOnes]
    exact decide_eq_true (by omega)

/-- The sign extension copies bit 19 into bits 31:20, where a representable integer has that bit. -/
theorem immIntOfPay_extract {v : Word} (h : immIntRepresentable v = true) : immIntOfPay (v.extractLsb' 0 20) = v := by
  obtain ⟨b, hsign⟩ := getLsbD_of_immIntRepresentable h
  apply BitVec.eq_of_getLsbD_eq
  intro i hi
  rw [immIntOfPay, BitVec.getLsbD_signExtend]
  by_cases hlow : i < 20
  · simp [hi, hlow]
  · have hmsb : (v.extractLsb' 0 20).msb = v.getLsbD 19 := by simp [BitVec.msb_eq_getLsbD_last]
    rw [if_neg hlow, hmsb, hsign 19 (by decide) (by decide), hsign i (by omega) hi]
    simp [hi]

theorem immFltOfPay_extract {v : Word} (h : immFltRepresentable v = true) : immFltOfPay (v.extractLsb' 12 20) = v := by
  have hzero : v.extractLsb' 0 12 = 0#12 := by simpa [immFltRepresentable] using h
  rw [immFltOfPay, ← hzero]
  exact (BitVec.extractLsb'_append_extractLsb'_eq_extractLsb' rfl).trans (extract_whole v)

theorem zero_append_extract_of_addrFits {a : Word} (h : addrFits a = true) : (0#9 ++ a.extractLsb' 0 23 : Word) = a := by
  have hzero : a.extractLsb' 23 9 = 0#9 := by simpa [addrFits] using h
  rw [← hzero]
  exact (BitVec.extractLsb'_append_extractLsb'_eq_extractLsb' rfl).trans (extract_whole a)

/-! ### The formats (R105 to R109) -/

theorem decodeN_encodeN (m : Mnemonic) (i : Instr) : decodeN (encodeN m) i = .ok i :=
  if_pos (extract_append_low m.opcode 0#26 0 26 (Nat.le_refl _))

theorem decodeR_encodeR (m : Mnemonic) (ra : Reg) (mk : Reg → Instr) : decodeR (encodeR m ra) mk = .ok (mk ra) := by
  have hzero : (encodeR m ra).extractLsb' 0 22 = 0 := extract_encodeRS m ra 0#22 0 22 (Nat.le_refl _)
  rw [decodeR, if_pos hzero, encodeR_eq, wordRa_encodeRS]

theorem wordAddr_encodeA {m : Mnemonic} {a : Word} (h : addrFits a = true) : wordAddr (encodeA m a) = a := by
  rw [wordAddr, addrField_encodeA, zero_append_extract_of_addrFits h]

theorem wordAddr_encodeRA {m : Mnemonic} {rg : Reg} {a : Word} (h : addrFits a = true) :
    wordAddr (encodeRA m rg a) = a := by
  rw [wordAddr, addrField_encodeRA, zero_append_extract_of_addrFits h]

theorem decodeA_encodeA {m : Mnemonic} {a : Word} (h : addrFits a = true) (mk : Word → Instr) :
    decodeA (encodeA m a) mk = .ok (mk a) := by
  have hzero : (encodeA m a).extractLsb' 23 3 = 0 :=
    (extract_append_high (m.opcode ++ 0#3) (a.extractLsb' 0 23) 23 3 (Nat.le_refl _)).trans
      (extract_append_low m.opcode 0#3 0 3 (Nat.le_refl _))
  rw [decodeA, if_pos hzero, wordAddr_encodeA h]

/-- Three bits name the registers AX to HX. -/
theorem wordRg_encodeRA {m : Mnemonic} {rg : Reg} {a : Word} (h : rg.isGeneral = true) :
    wordRg (encodeRA m rg a) = rg := by
  have hfield : (encodeRA m rg a).extractLsb' 23 3 = rg.num.extractLsb' 0 3 :=
    (extract_append_high (m.opcode ++ rg.num.extractLsb' 0 3) (a.extractLsb' 0 23) 23 3 (Nat.le_refl _)).trans
      ((extract_append_low m.opcode (rg.num.extractLsb' 0 3) 0 3 (Nat.le_refl _)).trans (extract_whole _))
  rw [wordRg, hfield]
  revert h
  cases rg <;> decide

section Source

variable (m : Mnemonic) (ra : Reg)

theorem wordSk_encodeRS (src : BitVec 22) : wordSk (encodeRS m ra src) = src.extractLsb' 20 2 :=
  extract_encodeRS m ra src 20 2 (Nat.le_refl _)

theorem decodeSource_encodeSrcReg (rb : Reg) (mk : Reg → Instr) (onInt onFlt : Option (Word → Instr)) :
    decodeSource (encodeRS m ra (encodeSrcReg rb)) (some mk) onInt onFlt = .ok (mk rb) := by
  have hzero : (encodeRS m ra (encodeSrcReg rb)).extractLsb' 4 16 = 0 :=
    (extract_encodeRS m ra _ 4 16 (by decide)).trans
      ((extract_append_high (0#2 ++ 0#16) rb.num 4 16 (Nat.le_refl _)).trans (by decide))
  have hrb : (encodeRS m ra (encodeSrcReg rb)).extractLsb' 0 4 = rb.num :=
    (extract_encodeRS m ra _ 0 4 (by decide)).trans
      ((extract_append_low (0#2 ++ 0#16) rb.num 0 4 (Nat.le_refl _)).trans (extract_whole _))
  simp [decodeSource, wordSk_encodeRS, sk_encodeSrcReg, hzero, wordRb, hrb]

theorem decodeSource_encodeSrcInt {v : Word} (h : immIntRepresentable v = true) (onReg : Option (Reg → Instr))
    (mk : Word → Instr) (onFlt : Option (Word → Instr)) :
    decodeSource (encodeRS m ra (encodeSrcInt v)) onReg (some mk) onFlt = .ok (mk v) := by
  have hpay : wordPay (encodeRS m ra (encodeSrcInt v)) = v.extractLsb' 0 20 :=
    (extract_encodeRS m ra _ 0 20 (by decide)).trans
      ((extract_append_low 1#2 (v.extractLsb' 0 20) 0 20 (Nat.le_refl _)).trans (extract_whole _))
  simp [decodeSource, wordSk_encodeRS, sk_encodeSrcInt, hpay, immIntOfPay_extract h]

theorem decodeSource_encodeSrcFlt {v : Word} (h : immFltRepresentable v = true) (onReg : Option (Reg → Instr))
    (onInt : Option (Word → Instr)) (mk : Word → Instr) :
    decodeSource (encodeRS m ra (encodeSrcFlt v)) onReg onInt (some mk) = .ok (mk v) := by
  have hpay : wordPay (encodeRS m ra (encodeSrcFlt v)) = v.extractLsb' 12 20 :=
    (extract_encodeRS m ra _ 0 20 (by decide)).trans
      ((extract_append_low 2#2 (v.extractLsb' 12 20) 0 20 (Nat.le_refl _)).trans (extract_whole _))
  simp [decodeSource, wordSk_encodeRS, sk_encodeSrcFlt, hpay, immFltOfPay_extract h]

/-- Format S is format RS with zeros for the register. -/
theorem decodeS_encodeS (src : BitVec 22) (onReg : Option (Reg → Instr)) (onInt onFlt : Option (Word → Instr)) :
    decodeS (encodeS m src) onReg onInt onFlt = decodeSource (encodeRS m .ax src) onReg onInt onFlt := by
  have hzero : (encodeS m src).extractLsb' 22 4 = 0 :=
    (extract_append_high (m.opcode ++ 0#4) src 22 4 (Nat.le_refl _)).trans
      (extract_append_low m.opcode 0#4 0 4 (Nat.le_refl _))
  rw [decodeS, if_pos hzero, encodeS_eq]

end Source

/-- The decoder answers a well-formed instruction on the word that encodes it: the opcode selects the row, and the row's format
reads back the operands. -/
theorem decodeWord_encode (i : Instr) (h : i.wf = true) : decodeWord (encode i) = .ok i := by
  have hopcode := ofOpcode_encode i
  cases i <;> rw [decodeWord, hopcode] <;> dsimp only [Instr.mnemonic, encode]
  case retNone | haltNone => exact decodeN_encodeN ..
  case incReg | decReg | negReg | notReg | popReg | inReg | inswReg | outwReg => exact decodeR_encodeR ..
  case jmpAddr | callAddr | jeAddr | jneAddr | jgtAddr | jgeAddr | jltAddr | jleAddr | jsAddr | jcoAddr
    | insiAddr | outiAddr => exact decodeA_encodeA h _
  case lodwRegAddr | strwRegAddr =>
    obtain ⟨hgeneral, hfits⟩ := Bool.and_eq_true_iff.mp h
    rw [wordRg_encodeRA hgeneral, wordAddr_encodeRA hfits]
  case pushReg | outReg => rw [decodeS_encodeS, decodeSource_encodeSrcReg]
  case pushImmInt | outImmInt => rw [decodeS_encodeS, decodeSource_encodeSrcInt _ _ h]
  case pushImmFlt | outImmFlt => rw [decodeS_encodeS, decodeSource_encodeSrcFlt _ _ h]
  all_goals rw [wordRa_encodeRS]
  case addwReg | subwReg | mulReg | andReg | orReg | xorReg | shlReg | shrReg | movwReg | xcghReg | cmpwReg =>
    exact decodeSource_encodeSrcReg ..
  case addwImmInt | subwImmInt | mulImmInt | andImmInt | orImmInt | xorImmInt | shlImmInt | shrImmInt | moviImmInt
    | lodiImmInt | striImmInt | cmpwImmInt => exact decodeSource_encodeSrcInt _ _ h ..
  all_goals exact decodeSource_encodeSrcFlt _ _ h ..

end Sys2Proof

namespace Sys2Proof.Machine

/-- The four bytes of a word are put together to that word (R61). -/
theorem wordOfBytes4_bytes (w : Word) :
    wordOfBytes4 (w.extractLsb' 0 8) (w.extractLsb' 8 8) (w.extractLsb' 16 8) (w.extractLsb' 24 8) = w := by
  rw [wordOfBytes4_eq]
  exact (congrArg wordOfBytes (bytesOfWord4_eq w)).trans (wordOfBytes_bytesOfWord w)

/-- Settles O3: the decoder puts the four bytes together to the word and decodes it. -/
theorem instructionBytesDecode : Obligations.InstructionBytesDecode := by
  refine fun i rest hi => ⟨_, _, _, _, ?_, rfl, rfl, rfl, rfl⟩
  simp only [List.cons_append, List.nil_append, decode, wordOfBytes4_bytes, decodeWord_encode i hi]

end Sys2Proof.Machine

/-! ## Encoding a decoded instruction (R115, R116)

A word is put together again from its fields, and each format's decoder answers only instructions whose encoding is the word. -/

namespace Sys2Proof

/-! ### A word is its fields (R103) -/

theorem opcode_append_rest (w : Word) : (wordOpcode w ++ w.extractLsb' 0 26 : Word) = w :=
  (BitVec.extractLsb'_append_extractLsb'_eq_extractLsb' rfl).trans (extract_whole w)

theorem opcode_append_ra_append_source (w : Word) :
    (wordOpcode w ++ w.extractLsb' 22 4 ++ w.extractLsb' 0 22 : Word) = w := by
  have hhigh : (wordOpcode w ++ w.extractLsb' 22 4 : BitVec 10) = w.extractLsb' 22 10 :=
    BitVec.extractLsb'_append_extractLsb'_eq_extractLsb' rfl
  rw [hhigh]
  exact (BitVec.extractLsb'_append_extractLsb'_eq_extractLsb' rfl).trans (extract_whole w)

theorem opcode_append_rg_append_addr (w : Word) :
    (wordOpcode w ++ w.extractLsb' 23 3 ++ w.extractLsb' 0 23 : Word) = w := by
  have hhigh : (wordOpcode w ++ w.extractLsb' 23 3 : BitVec 9) = w.extractLsb' 23 9 :=
    BitVec.extractLsb'_append_extractLsb'_eq_extractLsb' rfl
  rw [hhigh]
  exact (BitVec.extractLsb'_append_extractLsb'_eq_extractLsb' rfl).trans (extract_whole w)

theorem sk_append_pay (w : Word) : (wordSk w ++ wordPay w : BitVec 22) = w.extractLsb' 0 22 :=
  BitVec.extractLsb'_append_extractLsb'_eq_extractLsb' rfl

theorem zeros_append_rb (w : Word) : (w.extractLsb' 4 16 ++ w.extractLsb' 0 4 : BitVec 20) = wordPay w :=
  BitVec.extractLsb'_append_extractLsb'_eq_extractLsb' rfl

theorem wordRa_num (w : Word) : (wordRa w).num = w.extractLsb' 22 4 := Reg.num_ofNum _

theorem wordRb_num (w : Word) : (wordRb w).num = w.extractLsb' 0 4 := Reg.num_ofNum _

theorem wordRg_num (w : Word) : (wordRg w).num.extractLsb' 0 3 = w.extractLsb' 23 3 := by
  rw [wordRg, Reg.num_ofNum, extract_append_low _ _ 0 3 (Nat.le_refl _), extract_whole]

theorem wordRg_isGeneral (w : Word) : (wordRg w).isGeneral = true := by
  rw [wordRg]
  generalize w.extractLsb' 23 3 = n
  revert n
  decide

/-! ### What the decoder reads is representable, and is written back (R110, R112, R114) -/

/-- The bits above a payload copy its sign. -/
theorem getLsbD_immIntOfPay_of_le {p : BitVec 20} {i : Nat} (hlow : 19 ≤ i) (hhigh : i < 32) :
    (immIntOfPay p).getLsbD i = p.msb := by
  rw [immIntOfPay, BitVec.getLsbD_signExtend]
  by_cases hi : i < 20
  · obtain rfl : i = 19 := by omega
    simp [BitVec.msb_eq_getLsbD_last]
  · simp [hi, hhigh]

theorem immIntRepresentable_immIntOfPay (p : BitVec 20) : immIntRepresentable (immIntOfPay p) = true := by
  have hsign (i : Nat) (hi : i < 13) : ((immIntOfPay p).extractLsb' 19 13).getLsbD i = p.msb := by
    rw [BitVec.getLsbD_extractLsb', getLsbD_immIntOfPay_of_le (by omega) (by omega), decide_eq_true hi, Bool.true_and]
  rw [immIntRepresentable, Bool.or_eq_true, beq_iff_eq, beq_iff_eq]
  cases hmsb : p.msb
  · exact .inl (BitVec.eq_of_getLsbD_eq fun i hi => by rw [hsign i hi, hmsb]; exact BitVec.getLsbD_zero.symm)
  · refine .inr (BitVec.eq_of_getLsbD_eq (y := BitVec.allOnes 13) fun i hi => ?_)
    rw [hsign i hi, hmsb, BitVec.getLsbD_allOnes, decide_eq_true hi]

theorem extract_immIntOfPay (p : BitVec 20) : (immIntOfPay p).extractLsb' 0 20 = p := by
  apply BitVec.eq_of_getLsbD_eq
  intro i hi
  rw [BitVec.getLsbD_extractLsb', Nat.zero_add, immIntOfPay, BitVec.getLsbD_signExtend]
  simp [hi, show i < 32 by omega]

theorem immFltRepresentable_immFltOfPay (p : BitVec 20) : immFltRepresentable (immFltOfPay p) = true := by
  rw [immFltRepresentable, beq_iff_eq]
  exact extract_append_low p 0#12 0 12 (Nat.le_refl _)

theorem extract_immFltOfPay (p : BitVec 20) : (immFltOfPay p).extractLsb' 12 20 = p :=
  (extract_append_high p 0#12 12 20 (Nat.le_refl _)).trans (extract_whole p)

theorem addrFits_wordAddr (w : Word) : addrFits (wordAddr w) = true := by
  rw [addrFits, beq_iff_eq]
  exact (extract_append_high 0#9 (w.extractLsb' 0 23) 23 9 (Nat.le_refl _)).trans (extract_whole _)

theorem extract_wordAddr (w : Word) : (wordAddr w).extractLsb' 0 23 = w.extractLsb' 0 23 :=
  (extract_append_low 0#9 (w.extractLsb' 0 23) 0 23 (Nat.le_refl _)).trans (extract_whole _)

/-! ### When each format decodes, and to what (R105 to R109, R116) -/

section Formats

variable {w : Word} {i : Instr}

theorem ite_error_eq_ok_iff {c : Prop} [Decidable c] {r : Except DecodeError Instr} {e : DecodeError} :
    (if c then r else .error e) = .ok i ↔ c ∧ r = .ok i := by
  by_cases hc : c
  · rw [if_pos hc, and_iff_right hc]
  · rw [if_neg hc, iff_false_intro hc, false_and, iff_false]
    exact nofun

theorem decodeN_eq_ok_iff {j : Instr} : decodeN w j = .ok i ↔ w.extractLsb' 0 26 = 0 ∧ j = i := by
  rw [decodeN, ite_error_eq_ok_iff, Except.ok.injEq]

theorem decodeR_eq_ok_iff {mk : Reg → Instr} :
    decodeR w mk = .ok i ↔ w.extractLsb' 0 22 = 0 ∧ mk (wordRa w) = i := by
  rw [decodeR, ite_error_eq_ok_iff, Except.ok.injEq]

theorem decodeA_eq_ok_iff {mk : Word → Instr} :
    decodeA w mk = .ok i ↔ w.extractLsb' 23 3 = 0 ∧ mk (wordAddr w) = i := by
  rw [decodeA, ite_error_eq_ok_iff, Except.ok.injEq]

theorem decodeSource_eq_ok_iff {onReg : Option (Reg → Instr)} {onInt onFlt : Option (Word → Instr)} :
    decodeSource w onReg onInt onFlt = .ok i ↔
      (∃ mk, onReg = some mk ∧ (wordSk w = 0 ∧ w.extractLsb' 4 16 = 0) ∧ mk (wordRb w) = i) ∨
      (∃ mk, onInt = some mk ∧ wordSk w = 1 ∧ mk (immIntOfPay (wordPay w)) = i) ∨
      (∃ mk, onFlt = some mk ∧ wordSk w = 2 ∧ mk (immFltOfPay (wordPay w)) = i) := by
  have hkinds : ∀ sk : BitVec 2, sk = 0 ∨ sk = 1 ∨ sk = 2 ∨ sk = 3 := by decide
  obtain hsk | hsk | hsk | hsk := hkinds (wordSk w)
  · cases onReg <;> simp [decodeSource, hsk, ite_error_eq_ok_iff]
  · cases onInt <;> simp [decodeSource, hsk]
  · cases onFlt <;> simp [decodeSource, hsk]
  · simp [decodeSource, hsk]

theorem decodeS_eq_ok_iff {onReg : Option (Reg → Instr)} {onInt onFlt : Option (Word → Instr)} :
    decodeS w onReg onInt onFlt = .ok i ↔ w.extractLsb' 22 4 = 0 ∧ decodeSource w onReg onInt onFlt = .ok i := by
  rw [decodeS, ite_error_eq_ok_iff]

end Formats

/-! ### Each format's encoder puts the fields together (R115) -/

section Encoders

variable {m : Mnemonic} {w : Word}

theorem encodeN_of_fields (hop : m.opcode = wordOpcode w) (hzero : w.extractLsb' 0 26 = 0) : encodeN m = w := by
  have hw := opcode_append_rest w
  rwa [← hop, hzero] at hw

theorem encodeRS_of_fields {src : BitVec 22} (hop : m.opcode = wordOpcode w) (hsrc : src = w.extractLsb' 0 22) :
    encodeRS m (wordRa w) src = w := by
  rw [encodeRS, hop, wordRa_num, hsrc, opcode_append_ra_append_source]

theorem encodeR_of_fields (hop : m.opcode = wordOpcode w) (hzero : w.extractLsb' 0 22 = 0) :
    encodeR m (wordRa w) = w :=
  encodeRS_of_fields hop hzero.symm

theorem encodeA_of_fields (hop : m.opcode = wordOpcode w) (hzero : w.extractLsb' 23 3 = 0) :
    encodeA m (wordAddr w) = w := by
  have hw := opcode_append_rg_append_addr w
  rwa [← hop, hzero, ← extract_wordAddr] at hw

theorem encodeRA_of_fields (hop : m.opcode = wordOpcode w) : encodeRA m (wordRg w) (wordAddr w) = w := by
  rw [encodeRA, hop, wordRg_num, extract_wordAddr, opcode_append_rg_append_addr]

theorem encodeSrcReg_of_fields (hsk : wordSk w = 0) (hzero : w.extractLsb' 4 16 = 0) :
    encodeSrcReg (wordRb w) = w.extractLsb' 0 22 := by
  rw [← sk_append_pay, ← zeros_append_rb, hsk, hzero, ← wordRb_num]
  exact BitVec.append_assoc

theorem encodeSrcInt_of_fields (hsk : wordSk w = 1) :
    encodeSrcInt (immIntOfPay (wordPay w)) = w.extractLsb' 0 22 := by
  rw [encodeSrcInt, extract_immIntOfPay, ← sk_append_pay, hsk]
  rfl

theorem encodeSrcFlt_of_fields (hsk : wordSk w = 2) :
    encodeSrcFlt (immFltOfPay (wordPay w)) = w.extractLsb' 0 22 := by
  rw [encodeSrcFlt, extract_immFltOfPay, ← sk_append_pay, hsk]
  rfl

theorem wordRa_eq_ax (hzero : w.extractLsb' 22 4 = 0) : wordRa w = .ax := by
  rw [wordRa, hzero]
  rfl

end Encoders

/-! ### Each format's decoder answers what encodes to the word -/

/-- `w` is the word that R115 gives the abstract instruction `i` of R114. -/
def Instr.EncodesTo (i : Instr) (w : Word) : Prop := i.wf = true ∧ encode i = w

/-- The three source kinds of an opcode's row, as far as it allows them, are written as R115 says. -/
structure SourceForms (m : Mnemonic) (ra : Reg) (onReg : Option (Reg → Instr)) (onInt onFlt : Option (Word → Instr)) :
    Prop where
  reg : ∀ mk, onReg = some mk → ∀ rb, (mk rb).EncodesTo (encodeRS m ra (encodeSrcReg rb))
  int : ∀ mk, onInt = some mk → ∀ v, immIntRepresentable v = true →
    (mk v).EncodesTo (encodeRS m ra (encodeSrcInt v))
  flt : ∀ mk, onFlt = some mk → ∀ v, immFltRepresentable v = true →
    (mk v).EncodesTo (encodeRS m ra (encodeSrcFlt v))

section Sound

variable {m : Mnemonic} {w : Word} {i : Instr} (hop : m.opcode = wordOpcode w)
include hop

theorem encodesTo_of_decodeN {j : Instr} (h : decodeN w j = .ok i) (hj : j.EncodesTo (encodeN m)) :
    i.EncodesTo w := by
  obtain ⟨hzero, rfl⟩ := decodeN_eq_ok_iff.mp h
  rwa [encodeN_of_fields hop hzero] at hj

theorem encodesTo_of_decodeR {mk : Reg → Instr} (h : decodeR w mk = .ok i)
    (hmk : ∀ ra, (mk ra).EncodesTo (encodeR m ra)) : i.EncodesTo w := by
  obtain ⟨hzero, rfl⟩ := decodeR_eq_ok_iff.mp h
  have hra := hmk (wordRa w)
  rwa [encodeR_of_fields hop hzero] at hra

theorem encodesTo_of_decodeA {mk : Word → Instr} (h : decodeA w mk = .ok i)
    (hmk : ∀ a, addrFits a = true → (mk a).EncodesTo (encodeA m a)) : i.EncodesTo w := by
  obtain ⟨hzero, rfl⟩ := decodeA_eq_ok_iff.mp h
  have ha := hmk (wordAddr w) (addrFits_wordAddr w)
  rwa [encodeA_of_fields hop hzero] at ha

theorem encodesTo_of_decodeSource {onReg : Option (Reg → Instr)} {onInt onFlt : Option (Word → Instr)}
    (h : decodeSource w onReg onInt onFlt = .ok i) (hforms : SourceForms m (wordRa w) onReg onInt onFlt) :
    i.EncodesTo w := by
  obtain ⟨mk, hmk, ⟨hsk, hzero⟩, rfl⟩ | ⟨mk, hmk, hsk, rfl⟩ | ⟨mk, hmk, hsk, rfl⟩ := decodeSource_eq_ok_iff.mp h
  · have hreg := hforms.reg mk hmk (wordRb w)
    rwa [encodeRS_of_fields hop (encodeSrcReg_of_fields hsk hzero)] at hreg
  · have hint := hforms.int mk hmk _ (immIntRepresentable_immIntOfPay (wordPay w))
    rwa [encodeRS_of_fields hop (encodeSrcInt_of_fields hsk)] at hint
  · have hflt := hforms.flt mk hmk _ (immFltRepresentable_immFltOfPay (wordPay w))
    rwa [encodeRS_of_fields hop (encodeSrcFlt_of_fields hsk)] at hflt

theorem encodesTo_of_decodeS {onReg : Option (Reg → Instr)} {onInt onFlt : Option (Word → Instr)}
    (h : decodeS w onReg onInt onFlt = .ok i) (hforms : SourceForms m .ax onReg onInt onFlt) : i.EncodesTo w := by
  obtain ⟨hzero, hsource⟩ := decodeS_eq_ok_iff.mp h
  rw [← wordRa_eq_ax hzero] at hforms
  exact encodesTo_of_decodeSource hop hsource hforms

end Sound

/-- The opcode of a word that decodes is that of a mnemonic. -/
theorem mnemonic_of_decodeWord {w : Word} {i : Instr} (h : decodeWord w = .ok i) :
    ∃ m, Mnemonic.ofOpcode (wordOpcode w) = some m := by
  rw [decodeWord] at h
  cases hm : Mnemonic.ofOpcode (wordOpcode w) with
  | none => simp [hm] at h
  | some m => exact ⟨m, rfl⟩

theorem encodesTo_of_decodeWord {w : Word} {i : Instr} (h : decodeWord w = .ok i) : i.EncodesTo w := by
  obtain ⟨m, hm⟩ := mnemonic_of_decodeWord h
  have hop := Mnemonic.opcode_of_ofOpcode _ _ hm
  rw [decodeWord, hm] at h
  cases m <;> dsimp only at h
  case ret | halt => exact encodesTo_of_decodeN hop h ⟨rfl, rfl⟩
  case inc | dec | neg | not | pop | inn | insw | outw =>
    exact encodesTo_of_decodeR hop h fun _ => ⟨rfl, rfl⟩
  case jmp | call | je | jne | jgt | jge | jlt | jle | js | jco | insi | outi =>
    exact encodesTo_of_decodeA hop h fun _ hfits => ⟨hfits, rfl⟩
  case lodw | strw =>
    obtain rfl := Except.ok.inj h
    exact ⟨Bool.and_eq_true_iff.mpr ⟨wordRg_isGeneral w, addrFits_wordAddr w⟩, encodeRA_of_fields hop⟩
  case push | out =>
    exact encodesTo_of_decodeS hop h
      ⟨fun | _, rfl, _ => ⟨rfl, rfl⟩, fun | _, rfl, _, hv => ⟨hv, rfl⟩, fun | _, rfl, _, hv => ⟨hv, rfl⟩⟩
  case movw | xcgh =>
    exact encodesTo_of_decodeSource hop h ⟨fun | _, rfl, _ => ⟨rfl, rfl⟩, nofun, nofun⟩
  case movi | lodi | stri =>
    exact encodesTo_of_decodeSource hop h ⟨nofun, fun | _, rfl, _, hv => ⟨hv, rfl⟩, fun | _, rfl, _, hv => ⟨hv, rfl⟩⟩
  case addw | subw | mul | and | or | xor | shl | shr | cmpw =>
    exact encodesTo_of_decodeSource hop h
      ⟨fun | _, rfl, _ => ⟨rfl, rfl⟩, fun | _, rfl, _, hv => ⟨hv, rfl⟩, fun | _, rfl, _, hv => ⟨hv, rfl⟩⟩

end Sys2Proof

namespace Sys2Proof.Machine

/-- Settles O1: each format's encoder and decoder undo each other; a word that decodes is the encoding of what it decodes to, so
two that decode alike are equal. -/
theorem encodeAndDecodeAgree : Obligations.EncodeAndDecodeAgree :=
  ⟨decodeWord_encode, fun _ _ h => encodesTo_of_decodeWord h, fun _ _ _ h h' =>
    (encodesTo_of_decodeWord h).2.symm.trans (encodesTo_of_decodeWord h').2⟩

end Sys2Proof.Machine

/-! ## Legal words and the rows of the opcode table (R103, R104, R118)

A row's mask keeps whole fields of the word, so matching the row says what those fields are; these are the conditions under which
the row's format decodes. -/

namespace Sys2Proof.Machine

/-- The word matches the row (30_encoding.md's opening). -/
def MatchesRow (w : Word) (row : Nat × Nat) : Prop := w.toNat &&& row.2 = row.1

/-- The word matches one of the rows. -/
def MatchesSome (w : Word) (rows : List (Nat × Nat)) : Prop := ∃ row ∈ rows, MatchesRow w row

@[simp] theorem matchesSome_nil (w : Word) : ¬ MatchesSome w [] := by simp [MatchesSome]

@[simp] theorem matchesSome_cons (w : Word) (row : Nat × Nat) (rows : List (Nat × Nat)) :
    MatchesSome w (row :: rows) ↔ MatchesRow w row ∨ MatchesSome w rows := List.exists_mem_cons_iff ..

theorem matchesSome_singleton (w : Word) (row : Nat × Nat) : MatchesSome w [row] ↔ MatchesRow w row := by simp

@[simp] theorem matchesSome_append (w : Word) (rows rows' : List (Nat × Nat)) :
    MatchesSome w (rows ++ rows') ↔ MatchesSome w rows ∨ MatchesSome w rows' := by
  simp only [MatchesSome, List.mem_append, or_and_right, exists_or]

/-! ### Masks of whole fields -/

theorem append_and_append_eq_iff {m n : Nat} {x mx cx : BitVec m} {y my cy : BitVec n} :
    (x ++ y) &&& (mx ++ my) = cx ++ cy ↔ x &&& mx = cx ∧ y &&& my = cy := by
  rw [BitVec.and_append]
  refine ⟨fun h => ⟨?_, ?_⟩, fun ⟨hx, hy⟩ => by rw [hx, hy]⟩
  · simpa only [BitVec.extractLsb'_append_eq_left] using congrArg (BitVec.extractLsb' n m) h
  · simpa only [BitVec.extractLsb'_append_eq_right] using congrArg (BitVec.extractLsb' 0 n) h

section Rows

variable {w : Word} {value mask : Nat}

/-- A row whose mask and value are those of a concatenation of fields. -/
theorem matchesRow_iff {n : Nat} {x m v : BitVec n} (hw : x.toNat = w.toNat) (hvalue : value = v.toNat)
    (hmask : mask = m.toNat) : MatchesRow w (value, mask) ↔ x &&& m = v := by
  rw [MatchesRow, ← hw, hvalue, hmask, ← BitVec.toNat_and, BitVec.toNat_inj]

/-- A row that keeps the opcode, and masks two fields below it. -/
theorem matchesRow_fields_iff {k n : Nat} {op : BitVec 6} {y my cy : BitVec k} {z mz cz : BitVec n}
    (hw : (op ++ y ++ z).toNat = w.toNat) (hvalue : value = (op ++ cy ++ cz).toNat)
    (hmask : mask = (BitVec.allOnes 6 ++ my ++ mz).toNat) :
    MatchesRow w (value, mask) ↔ y &&& my = cy ∧ z &&& mz = cz :=
  calc MatchesRow w (value, mask)
    _ ↔ (op ++ y ++ z) &&& (BitVec.allOnes 6 ++ my ++ mz) = op ++ cy ++ cz := matchesRow_iff hw hvalue hmask
    _ ↔ (op ++ y) &&& (BitVec.allOnes 6 ++ my) = op ++ cy ∧ z &&& mz = cz := append_and_append_eq_iff
    _ ↔ y &&& my = cy ∧ z &&& mz = cz :=
      and_congr_left' (append_and_append_eq_iff.trans (and_iff_right BitVec.and_allOnes))

/-- Source kind 00: the mask keeps `sk` and the zeros above `rb`. -/
theorem source_and_regMask_iff :
    w.extractLsb' 0 22 &&& (BitVec.allOnes 2 ++ (BitVec.allOnes 16 ++ 0#4)) = 0#2 ++ (0#16 ++ 0#4) ↔
      wordSk w = 0 ∧ w.extractLsb' 4 16 = 0 := by
  rw [← sk_append_pay, ← zeros_append_rb, append_and_append_eq_iff, append_and_append_eq_iff]
  simp only [BitVec.and_allOnes, BitVec.and_zero, and_true, BitVec.ofNat_eq_ofNat]

/-- Source kinds 01 and 10: the mask keeps `sk` alone. -/
theorem source_and_immMask_iff {sk : BitVec 2} :
    w.extractLsb' 0 22 &&& (BitVec.allOnes 2 ++ 0#20) = sk ++ 0#20 ↔ wordSk w = sk := by
  rw [← sk_append_pay, append_and_append_eq_iff]
  simp only [BitVec.and_allOnes, BitVec.and_zero, and_true]

/-! ### What matching a row of each format says -/

theorem matches_rowsN_iff : MatchesSome w (rowsN (wordOpcode w).toNat) ↔ w.extractLsb' 0 26 = 0 := by
  have hvalue : ∀ op : BitVec 6, op.toNat * 2 ^ 26 = (op ++ 0#26).toNat := by decide
  have hw := congrArg BitVec.toNat (opcode_append_rest w)
  rw [rowsN, matchesSome_singleton,
    matchesRow_iff (m := BitVec.allOnes 6 ++ BitVec.allOnes 26) hw (hvalue _) (by decide),
    append_and_append_eq_iff, BitVec.and_allOnes, BitVec.and_allOnes]
  exact and_iff_right rfl

theorem matches_rowsR_iff : MatchesSome w (rowsR (wordOpcode w).toNat) ↔ w.extractLsb' 0 22 = 0 := by
  have hvalue : ∀ op : BitVec 6, op.toNat * 2 ^ 26 = (op ++ 0#4 ++ 0#22).toNat := by decide
  have hw := congrArg BitVec.toNat (opcode_append_ra_append_source w)
  rw [rowsR, matchesSome_singleton,
    matchesRow_fields_iff (my := 0#4) (mz := BitVec.allOnes 22) hw (hvalue _) (by decide),
    BitVec.and_zero, BitVec.and_allOnes]
  exact and_iff_right rfl

/-- The value of a row of formats A and RA. -/
theorem addrRow_value (op : BitVec 6) : op.toNat * 2 ^ 26 = (op ++ 0#3 ++ 0#23).toNat := by
  revert op
  decide

theorem matches_rowsA_iff : MatchesSome w (rowsA (wordOpcode w).toNat) ↔ w.extractLsb' 23 3 = 0 := by
  have hw := congrArg BitVec.toNat (opcode_append_rg_append_addr w)
  rw [rowsA, matchesSome_singleton,
    matchesRow_fields_iff (my := BitVec.allOnes 3) (mz := 0#23) hw (addrRow_value _) (by decide),
    BitVec.and_zero, BitVec.and_allOnes]
  exact and_iff_left rfl

theorem matches_rowsRA (w : Word) : MatchesSome w (rowsRA (wordOpcode w).toNat) := by
  have hw := congrArg BitVec.toNat (opcode_append_rg_append_addr w)
  rw [rowsRA, matchesSome_singleton,
    matchesRow_fields_iff (my := 0#3) (mz := 0#23) hw (addrRow_value _) (by decide)]
  exact ⟨BitVec.and_zero, BitVec.and_zero⟩

/-- The row of source kind 00: format RS leaves bits 25:22 open, format S keeps them. -/
theorem matchesRow_regKind_iff {mra : BitVec 4}
    (hmask : mask = (BitVec.allOnes 6 ++ mra ++ (BitVec.allOnes 2 ++ (BitVec.allOnes 16 ++ 0#4))).toNat) :
    MatchesRow w ((wordOpcode w).toNat * 2 ^ 26, mask) ↔
      w.extractLsb' 22 4 &&& mra = 0 ∧ wordSk w = 0 ∧ w.extractLsb' 4 16 = 0 := by
  have hvalue : ∀ op : BitVec 6, op.toNat * 2 ^ 26 = (op ++ 0#4 ++ (0#2 ++ (0#16 ++ 0#4))).toNat := by decide
  have hw := congrArg BitVec.toNat (opcode_append_ra_append_source w)
  rw [matchesRow_fields_iff hw (hvalue _) hmask]
  exact and_congr_right' source_and_regMask_iff

/-- The rows of source kinds 01 and 10, in the same two formats. -/
theorem matchesRow_immKind_iff {mra : BitVec 4} (sk : BitVec 2)
    (hmask : mask = (BitVec.allOnes 6 ++ mra ++ (BitVec.allOnes 2 ++ 0#20)).toNat) :
    MatchesRow w ((wordOpcode w).toNat * 2 ^ 26 + sk.toNat * 2 ^ 20, mask) ↔
      w.extractLsb' 22 4 &&& mra = 0 ∧ wordSk w = sk := by
  have hvalue : ∀ (op : BitVec 6) (sk : BitVec 2),
    op.toNat * 2 ^ 26 + sk.toNat * 2 ^ 20 = (op ++ 0#4 ++ (sk ++ 0#20)).toNat := by decide
  have hw := congrArg BitVec.toNat (opcode_append_ra_append_source w)
  rw [matchesRow_fields_iff hw (hvalue _ _) hmask]
  exact and_congr_right' source_and_immMask_iff

theorem matches_rowsRSReg_iff :
    MatchesSome w (rowsRSReg (wordOpcode w).toNat) ↔ wordSk w = 0 ∧ w.extractLsb' 4 16 = 0 := by
  rw [rowsRSReg, matchesSome_singleton, matchesRow_regKind_iff (mra := 0) (by decide)]
  exact and_iff_right BitVec.and_zero

theorem matches_rowsRSImm_iff :
    MatchesSome w (rowsRSImm (wordOpcode w).toNat) ↔ wordSk w = 1 ∨ wordSk w = 2 := by
  have himm (sk : BitVec 2) := (matchesRow_immKind_iff (w := w) (mask := 0xFC300000) (mra := 0) sk (by decide)).trans
    (and_iff_right BitVec.and_zero)
  rw [rowsRSImm, matchesSome_cons, matchesSome_singleton]
  exact or_congr (himm 1) (himm 2)

theorem matches_rowsS_iff :
    MatchesSome w (rowsS (wordOpcode w).toNat) ↔
      w.extractLsb' 22 4 = 0 ∧ (wordSk w = 0 ∧ w.extractLsb' 4 16 = 0 ∨ wordSk w = 1 ∨ wordSk w = 2) := by
  have hreg := matchesRow_regKind_iff (w := w) (mask := 0xFFFFFFF0) (mra := BitVec.allOnes 4) (by decide)
  have himm (sk) := matchesRow_immKind_iff (w := w) (mask := 0xFFF00000) (mra := BitVec.allOnes 4) sk (by decide)
  simp only [BitVec.and_allOnes] at hreg himm
  rw [rowsS, matchesSome_cons, matchesSome_cons, matchesSome_singleton, and_or_left, and_or_left]
  exact or_congr hreg (or_congr (himm 1) (himm 2))

/-! ### Each format decodes exactly the words that match one of its rows -/

theorem decodeN_legal_iff {j : Instr} :
    (∃ i, decodeN w j = .ok i) ↔ MatchesSome w (rowsN (wordOpcode w).toNat) := by
  simp only [matches_rowsN_iff, decodeN_eq_ok_iff, exists_and_left, exists_eq', and_true]

theorem decodeR_legal_iff {mk : Reg → Instr} :
    (∃ i, decodeR w mk = .ok i) ↔ MatchesSome w (rowsR (wordOpcode w).toNat) := by
  simp only [matches_rowsR_iff, decodeR_eq_ok_iff, exists_and_left, exists_eq', and_true]

theorem decodeA_legal_iff {mk : Word → Instr} :
    (∃ i, decodeA w mk = .ok i) ↔ MatchesSome w (rowsA (wordOpcode w).toNat) := by
  simp only [matches_rowsA_iff, decodeA_eq_ok_iff, exists_and_left, exists_eq', and_true]

/-- A source decodes when its kind is one the opcode allows, and a register's upper bits are zero. -/
theorem decodeSource_legal_iff {onReg : Option (Reg → Instr)} {onInt onFlt : Option (Word → Instr)} :
    (∃ i, decodeSource w onReg onInt onFlt = .ok i) ↔
      onReg.isSome ∧ wordSk w = 0 ∧ w.extractLsb' 4 16 = 0 ∨ onInt.isSome ∧ wordSk w = 1 ∨
        onFlt.isSome ∧ wordSk w = 2 := by
  simp only [decodeSource_eq_ok_iff, exists_or]
  refine or_congr ?_ (or_congr ?_ ?_)
  · cases onReg <;> simp
  · cases onInt <;> simp
  · cases onFlt <;> simp

theorem decodeSource_all_legal_iff {mkReg : Reg → Instr} {mkInt mkFlt : Word → Instr} :
    (∃ i, decodeSource w (some mkReg) (some mkInt) (some mkFlt) = .ok i) ↔
      MatchesSome w (rowsRSReg (wordOpcode w).toNat ++ rowsRSImm (wordOpcode w).toNat) := by
  simp [decodeSource_legal_iff, matches_rowsRSReg_iff, matches_rowsRSImm_iff]

theorem decodeSource_imm_legal_iff {mkInt mkFlt : Word → Instr} :
    (∃ i, decodeSource w none (some mkInt) (some mkFlt) = .ok i) ↔
      MatchesSome w (rowsRSImm (wordOpcode w).toNat) := by
  simp [decodeSource_legal_iff, matches_rowsRSImm_iff]

theorem decodeSource_reg_legal_iff {mkReg : Reg → Instr} :
    (∃ i, decodeSource w (some mkReg) none none = .ok i) ↔ MatchesSome w (rowsRSReg (wordOpcode w).toNat) := by
  simp [decodeSource_legal_iff, matches_rowsRSReg_iff]

theorem decodeS_legal_iff {mkReg : Reg → Instr} {mkInt mkFlt : Word → Instr} :
    (∃ i, decodeS w (some mkReg) (some mkInt) (some mkFlt) = .ok i) ↔
      MatchesSome w (rowsS (wordOpcode w).toNat) := by
  simp [decodeS_eq_ok_iff, decodeSource_legal_iff, matches_rowsS_iff]

end Rows

/-! ### The table, opcode by opcode -/

/-- The rows of the table for one opcode. -/
def rowsOf (op : BitVec 6) : List (Nat × Nat) := opcodeRows.filter (fun row => row.1 / 2 ^ 26 = op.toNat)

theorem rowsOf_of_unassigned (op : BitVec 6) (h : Mnemonic.ofOpcode op = none) : rowsOf op = [] := by
  revert op
  decide

/-- Every mask keeps the whole opcode, so a word matches rows of its own opcode alone. -/
theorem mem_rowsOf_of_matchesRow {w : Word} {row : Nat × Nat} (hrow : row ∈ opcodeRows) (h : MatchesRow w row) :
    row ∈ rowsOf (wordOpcode w) := by
  have hmask : ∀ row ∈ opcodeRows, row.2 / 2 ^ 26 = 2 ^ 6 - 1 := by decide
  have hop : (wordOpcode w).toNat = w.toNat / 2 ^ 26 % 2 ^ 6 := by
    rw [wordOpcode, BitVec.extractLsb'_toNat, Nat.shiftRight_eq_div_pow]
  refine List.mem_filter.mpr ⟨hrow, decide_eq_true ?_⟩
  rw [hop, ← h, Nat.and_div_two_pow, hmask row hrow, Nat.and_two_pow_sub_one_eq_mod]

theorem matchesSome_opcodeRows_iff {w : Word} :
    MatchesSome w opcodeRows ↔ MatchesSome w (rowsOf (wordOpcode w)) :=
  ⟨fun ⟨row, hrow, h⟩ => ⟨row, mem_rowsOf_of_matchesRow hrow h, h⟩,
    fun ⟨row, hrow, h⟩ => ⟨row, (List.mem_filter.mp hrow).1, h⟩⟩

/-- Rows of one opcode differ under both their masks. -/
theorem rowsOf_disjoint (op : BitVec 6) :
    ∀ row ∈ rowsOf op, ∀ row' ∈ rowsOf op, row.1 &&& row'.2 = row'.1 &&& row.2 → row = row' := by
  revert op
  decide

/-- The opcode selects the format (R104), and the format's rows are all the table has for that opcode. -/
theorem decodeWord_legal_iff (w : Word) :
    (∃ i, decodeWord w = .ok i) ↔ MatchesSome w (rowsOf (wordOpcode w)) := by
  cases hm : Mnemonic.ofOpcode (wordOpcode w) with
  | none => simp [decodeWord, hm, rowsOf_of_unassigned _ hm]
  | some m =>
    have hop := Mnemonic.opcode_of_ofOpcode _ _ hm
    have hrows (rows : Nat → List (Nat × Nat)) (h : rowsOf m.opcode = rows m.opcode.toNat) :
        rowsOf (wordOpcode w) = rows (wordOpcode w).toNat := hop ▸ h
    rw [decodeWord, hm]
    cases m <;> dsimp only
    case ret | halt => rw [hrows rowsN rfl, decodeN_legal_iff]
    case inc | dec | neg | not | pop | inn | insw | outw => rw [hrows rowsR rfl, decodeR_legal_iff]
    case jmp | call | je | jne | jgt | jge | jlt | jle | js | jco | insi | outi =>
      rw [hrows rowsA rfl, decodeA_legal_iff]
    case lodw | strw => simp [hrows rowsRA rfl, matches_rowsRA w]
    case push | out => rw [hrows rowsS rfl, decodeS_legal_iff]
    case movw | xcgh => rw [hrows rowsRSReg rfl, decodeSource_reg_legal_iff]
    case movi | lodi | stri => rw [hrows rowsRSImm rfl, decodeSource_imm_legal_iff]
    case addw | subw | mul | and | or | xor | shl | shr | cmpw =>
      rw [hrows (fun op => rowsRSReg op ++ rowsRSImm op) rfl, decodeSource_all_legal_iff]

/-- Two rows that one word matches agree under both masks, and are rows of one opcode. -/
theorem matchesRow_unique {w : Word} {row row' : Nat × Nat} (hrow : row ∈ opcodeRows) (hrow' : row' ∈ opcodeRows)
    (h : MatchesRow w row) (h' : MatchesRow w row') : row = row' := by
  have hagree : row.1 &&& row'.2 = row'.1 &&& row.2 :=
    calc row.1 &&& row'.2
      _ = w.toNat &&& row.2 &&& row'.2 := by rw [h]
      _ = w.toNat &&& row'.2 &&& row.2 := Nat.and_right_comm ..
      _ = row'.1 &&& row.2 := by rw [h']
  exact rowsOf_disjoint _ row (mem_rowsOf_of_matchesRow hrow h) row' (mem_rowsOf_of_matchesRow hrow' h') hagree

/-- Settles O2: a word decodes by the rows of its opcode, and these are the only rows of the table it can match. -/
theorem legalWordsAreTheTableRows : Obligations.LegalWordsAreTheTableRows :=
  ⟨fun w => (decodeWord_legal_iff w).trans matchesSome_opcodeRows_iff.symm,
    fun _ _ hrow _ hrow' => matchesRow_unique hrow hrow'⟩

end Sys2Proof.Machine

/-! ## The fetched word (R61, R141) -/

namespace Sys2Proof.Machine

/-- Byte `k` of a word read from Memory, bit by bit. -/
theorem State.holdsWord_of_memRead {s : State} {a : Nat} {w : Word} (hread : s.memRead a 4 = some w) :
    HoldsWord s a w := by
  obtain ⟨-, rfl⟩ := (State.memRead_some s a 4 w).mp hread
  intro k hk
  apply BitVec.eq_of_getLsbD_eq
  intro j hj
  have hbit := wordOfBytes_bit (Memory.readBytes s.mem a 4) (8 * k + j) (by omega)
  rw [Memory.readBytes_getD, if_pos (by omega), show (8 * k + j) / 8 = k by omega,
    show (8 * k + j) % 8 = j by omega] at hbit
  simp [hj, hbit, State.byteAt]

/-- Four bytes in Memory that hold a word are read as that word. -/
theorem State.memRead_of_holdsWord {s : State} {a : Nat} {w : Word} (hrange : a + 4 ≤ s.params.totalSize)
    (hw : HoldsWord s a w) : s.memRead a 4 = some w := by
  refine State.memRead_of_bits hrange fun i hi => ?_
  rw [hw (i / 8) (by omega)]
  simp [hi, Nat.mod_lt, Nat.div_add_mod]

theorem State.fetchWord_eq_some_iff (s : State) (w : Word) :
    s.fetchWord = some w ↔ s.pc.toNat + 4 ≤ s.params.totalSize ∧ HoldsWord s s.pc.toNat w :=
  ⟨fun h => ⟨((State.memRead_some s _ _ w).mp h).1, State.holdsWord_of_memRead h⟩,
    fun h => State.memRead_of_holdsWord h.1 h.2⟩

theorem State.fetchWord_eq_none_iff (s : State) : s.fetchWord = none ↔ s.params.totalSize < s.pc.toNat + 4 :=
  State.memRead_none s _ 4

/-- The decoder on bytes of Memory reads the word they form. -/
theorem decode_readBytes_eq_ok_iff (m : List Host.Cell) (a : Nat) (rest : List Byte) (i : Instr) :
    decode (Memory.readBytes m a 4 ++ rest) = .ok (i, rest) ↔
      decodeWord (wordOfBytes (Memory.readBytes m a 4)) = .ok i := by
  simp only [Memory.readBytes, List.cons_append, List.nil_append, decode, wordOfBytes4_eq]
  generalize decodeWord _ = answer
  cases answer with
  | ok j => simp
  | error e => simp

end Sys2Proof.Machine

/-! ## The cycle: fetch, decode, execute, and the terminal states (R141 to R153) -/

namespace Sys2Proof.Machine

theorem stepWord_of_ok {w : Word} {i : Instr} (s : State) (hdecode : decodeWord w = .ok i) :
    stepWord w s = exec i s := by
  simp only [stepWord, hdecode]

theorem stepWord_of_error {w : Word} {e : DecodeError} (s : State) (hdecode : decodeWord w = .error e) :
    stepWord w s = .next (s.enterFault .invalidInstruction) := by
  simp only [stepWord, hdecode, raiseFault]

/-- Settles O5: the fetch reads the four bytes the decoder is given. -/
theorem stepRunsTheDecodedInstruction : Obligations.StepRunsTheDecodedInstruction := by
  intro s i rest hready hrange hdecode
  have hfetch : s.fetchWord = some (wordOfBytes (Memory.readBytes s.mem s.pc.toNat 4)) :=
    (State.memRead_some s _ _ _).mpr ⟨hrange, rfl⟩
  exact (step_fetched s _ hready hfetch).trans
    (stepWord_of_ok _ ((decode_readBytes_eq_ok_iff s.mem s.pc.toNat rest i).mp hdecode))

/-- Settles O6: `enterFault` on the state itself where the fetch raises, and on the state with the fetched word where
that word does not decode. -/
theorem fetchAndDecodeFaults : Obligations.FetchAndDecodeFaults := by
  refine fun s hready => ⟨fun hrange => ?_, fun w e hrange hw hdecode => ?_⟩
  · exact step_unfetched s hready ((State.fetchWord_eq_none_iff s).mpr hrange)
  · have hfetch := (State.fetchWord_eq_some_iff s w).mpr ⟨hrange, hw⟩
    exact (step_fetched s w hready hfetch).trans (stepWord_of_error _ hdecode)

theorem State.terminal_iff (s : State) : s.terminal = true ↔ s.runState = .halted ∨ s.runState = .faulted := by
  simp [State.terminal]

/-- The loop of `run` does not enter a terminal state's cycle (R151). -/
theorem hostRun_terminal (cycles : Nat) (s : State) (h : s.terminal = true) : hostRun cycles s = .next s := by
  cases cycles with
  | zero => rfl
  | succ cycles => rw [hostRun, if_pos h]

/-- Any number of steps of the core from a state that its step keeps. -/
theorem core_run_of_step_eq (cycles : Nat) (s : State) (h : step s = .next s) :
    Sys2Proof.core.run cycles s = .next s := by
  induction cycles with
  | zero => rfl
  | succ cycles ih =>
    have hstep : Sys2Proof.core.step s = .next s := h
    simp only [Host.Core.run, hstep, ih]

/-- Settles O7: a step keeps the state, so any number of steps does, and the loop of `run` performs none. -/
theorem terminalStatesAreKept : Obligations.TerminalStatesAreKept := fun s cycles h =>
  have hstep := step_terminal s h
  ⟨hstep, hostRun_terminal cycles s (s.terminal_iff.mpr h), core_run_of_step_eq cycles s hstep⟩

end Sys2Proof.Machine

/-! ## Which instructions redirect PC (R145) -/

namespace Sys2Proof.Machine

theorem flagReaders_subset_pcRedirectors : flagReaders ⊆ pcRedirectors := by decide

/-- Only a taken jump, a CALL and a RET redirect PC; every other effect without a fault is a default advance. -/
theorem Effect.advancesPc {m : Mnemonic} {s t : State} (heffect : Effect m s t) (hm : m ∉ pcRedirectors)
    (hrun : t.runState ≠ .faulted) : AdvancesPc s t := by
  cases heffect with
  | jumped hjump =>
    obtain rfl | hreader := List.mem_cons.mp hjump
    · exact absurd (by decide) hm
    · exact absurd (flagReaders_subset_pcRedirectors hreader) hm
  | called hcall => exact absurd (hcall ▸ by decide) hm
  | returned hret => exact absurd (hret ▸ by decide) hm
  | faulted | stringFaulted => exact absurd rfl hrun
  | _ => exact ⟨rfl, rfl⟩

/-- Settles O15: of the effects of an instruction only those of the redirectors and the faults are no default advance. -/
theorem onlyTransfersRedirectPc : Obligations.OnlyTransfersRedirectPc :=
  fun _ _ _ hm _ hexec hrun => (exec_effect hexec).advancesPc hm hrun

end Sys2Proof.Machine

/-! ## Faults are precise (R146, R147, R274, R345) -/

namespace Sys2Proof.Machine

/-- An instruction that ends in Faulted has entered the fault from its own state, or from that state after one read of the
channel (R274). -/
theorem Effect.entersFault {m : Mnemonic} {s t : State} (heffect : Effect m s t) (hrun : s.runState ≠ .faulted)
    (hfaulted : t.runState = .faulted) : ∃ c ≠ .none, t = s.enterFault c ∨ t = s.chanDrop.enterFault c := by
  cases heffect with
  | faulted _ c hc => exact ⟨c, hc, .inl rfl⟩
  | stringFaulted => exact ⟨_, by decide, .inr rfl⟩
  | halted => cases hfaulted
  | _ => exact absurd hfaulted hrun

/-- Every way a step from Ready can fault: in the fetch, which leaves the queue entry; or later, with the fetched word in it and
at most one read of the channel done. -/
theorem step_ready_faulted {s t : State} (hready : s.runState = .ready) (hstep : step s = .next t)
    (hfaulted : t.runState = .faulted) :
    (s.fetchWord = none ∧ t = s.enterFault .addressOutOfBounds) ∨
    ∃ w, s.fetchWord = some w ∧
      ∃ c ≠ .none, t = (s.setQueue w).enterFault c ∨ t = (s.setQueue w).chanDrop.enterFault c := by
  obtain ⟨rfl, -⟩ | ⟨-, hfetch, rfl⟩ | ⟨w, e, -, hfetch, -, rfl⟩ | ⟨w, i, -, hfetch, -, hexec⟩ := step_next s t hstep
  · simp [hready] at hfaulted
  · exact .inl ⟨hfetch, rfl⟩
  · exact .inr ⟨w, hfetch, _, by decide, .inl rfl⟩
  · have hrun : (s.setQueue w).runState ≠ .faulted := by simp [hready]
    exact .inr ⟨w, hfetch, (exec_effect hexec).entersFault hrun hfaulted⟩

/-- Settles O12: a fault of the fetch has entered the fault from the state itself, and any later one from the state with the
fetched word, so the frame of each clause is that of `enterFault`, `setQueue` and `chanDrop`. -/
theorem faultsArePrecise : Obligations.FaultsArePrecise := by
  intro s t hready hstep hfaulted
  have hkept : step t = .next t := step_terminal t (.inr hfaulted)
  obtain ⟨hfetch, rfl⟩ | ⟨w, hfetch, c, hc, hentered⟩ := step_ready_faulted hready hstep hfaulted
  · have hout := (State.fetchWord_eq_none_iff s).mp hfetch
    exact ⟨rfl, by simp, fun _ => ⟨rfl, rfl⟩, fun hin => absurd hin (by omega), rfl, .inl rfl, hkept⟩
  · obtain ⟨hin, hw⟩ := (State.fetchWord_eq_some_iff s w).mp hfetch
    have hnotOut : ¬ s.params.totalSize < s.pc.toNat + 4 := by omega
    obtain rfl | rfl := hentered
    all_goals refine ⟨rfl, hc, fun hout => absurd hout hnotOut, fun _ => ⟨w, rfl, hw⟩, rfl, ?_, hkept⟩
    · exact .inl rfl
    · exact .inr rfl

end Sys2Proof.Machine

/-! ## The float view of special patterns (R11, R162) -/

namespace Sys2Proof.Machine

/-- Every word is its sign, its exponent and its fraction put together (R11). -/
theorem packFloat_fields (v : Word) :
    packFloat (floatNegative v) (floatExponent v * 2 ^ 23 + floatFraction v) = v := by
  have hlt := v.isLt
  apply BitVec.eq_of_toNat_eq
  rw [floatNegative_eq, floatExponent_eq, floatFraction_eq, packFloat_toNat _ _ (by omega)]
  simp only [decide_eq_true_eq]
  split <;> omega

theorem floatUnits_eq_zero_iff (e f : Nat) : floatUnits e f = 0 ↔ e = 0 ∧ f = 0 := by
  unfold floatUnits
  split
  · simp [*]
  · have hpos : 0 < (2 ^ 23 + f) * 2 ^ (e - 1) := by positivity
    omega

/-- The only pattern of a zero is its sign alone. -/
theorem floatVal_eq_zero_iff (v : Word) (n : Bool) : floatVal v = .fin n 0 ↔ v = packFloat n 0 := by
  constructor
  · intro h
    rw [floatVal] at h
    split at h
    · split at h <;> cases h
    · obtain ⟨hsign, hunits⟩ := FloatVal.fin.inj h
      obtain ⟨hexponent, hfraction⟩ := (floatUnits_eq_zero_iff _ _).mp hunits
      rw [← packFloat_fields v, hsign, hexponent, hfraction, Nat.zero_mul, Nat.add_zero]
  · rintro rfl
    cases n <;> decide

theorem isNaN_iff (v : Word) : isNaN v = true ↔ floatVal v = .nan := by
  rw [isNaN, floatVal]
  by_cases hexponent : floatExponent v = 255 <;> by_cases hfraction : floatFraction v = 0 <;> simp [hexponent, hfraction]

/-- A NaN pattern has exponent 0xFF and a fraction that is not zero. -/
theorem floatVal_packFloat_nan (negative : Bool) (f : Nat) (hpos : 0 < f) (hlt : f < 2 ^ 23) :
    floatVal (packFloat negative (infMagnitude + f)) = .nan := by
  have hinf : infMagnitude = 255 * 2 ^ 23 := by decide
  have hbound : infMagnitude + f < 2 ^ 31 := by omega
  rw [floatVal, floatExponent_packFloat _ _ hbound, floatFraction_packFloat _ _ hbound, if_pos (by omega),
    if_neg (by omega)]

/-- `nan_result` is a NaN, whichever it is (R162, log 3). -/
theorem floatVal_nanResultWord (op : Config.FloatOp) (a b : Word) : floatVal (nanResultWord op a b) = .nan :=
  floatVal_packFloat_nan _ _ (Nat.succ_pos _) (Nat.succ_lt_succ (Config.nanResult op a b).fractionLessOne.isLt)

/-! ### Comparison with zero (R231) -/

theorem floatEq_zero_iff (x : FloatVal) : floatEq x (.fin false 0) = true ↔ ∃ n, x = .fin n 0 := by
  cases x with
  | nan => simp [floatEq]
  | inf n => simp [floatEq]
  | fin n u => cases n <;> simp [floatEq, signedUnits]

/-- What is less than zero has its sign set and is neither a NaN nor `-0`. -/
theorem floatLt_zero_iff (v : Word) : floatLt (floatVal v) (.fin false 0) = true ↔
    floatNegative v = true ∧ floatVal v ≠ .nan ∧ floatVal v ≠ .fin true 0 := by
  rw [floatVal]
  split
  · split
    · simp [floatLt]
    · simp [floatLt]
  · cases floatNegative v <;> simp [floatLt, signedUnits, Nat.pos_iff_ne_zero]

/-- `FloatFlags(r)` tests bit patterns; they are the patterns of the values R161 speaks of. -/
theorem floatFlags_flagsAre (r : Word) :
    FlagsAre (floatEq (floatVal r) (.fin false 0) = true) (floatLt (floatVal r) (.fin false 0) = true)
      (floatVal r = .nan) (floatFlags r) := by
  have hplus : packFloat false 0 = 0x00000000#32 := rfl
  have hminus : packFloat true 0 = 0x80000000#32 := rfl
  refine ⟨?_, ?_, ?_, flagsWord_reserved ..⟩
  · simp [floatFlags, floatEq_zero_iff, floatVal_eq_zero_iff, hplus, hminus]
  · rw [floatLt_zero_iff, ne_eq, ne_eq, ← isNaN_iff, floatVal_eq_zero_iff, hminus]
    simp [floatFlags, floatNegative, and_assoc]
  · rw [floatFlags, flagCO_flagsWord, isNaN_iff]

end Sys2Proof.Machine

/-! ## Flag-writing results (R161, R181) -/

namespace Sys2Proof.Machine

/-- A register write, a FLAGS write and the default advance, with the frame that the three leave. -/
theorem writesRegisterAndFlags_next {fl : Word} {z n co : Prop} (hflags : FlagsAre z n co fl) (ra : Reg) (r : Word)
    (s : State) : WritesRegisterAndFlags ra r z n co s ((s.setReg ra r).setFlags fl).advance :=
  ⟨by simp, hflags, ⟨rfl, rfl⟩, fun q hq => State.setReg_reg_other s ra r q (by simpa using hq), fun _ => rfl, rfl, rfl,
    rfl, rfl, rfl, rfl⟩

/-- An instruction whose meaning is to finish a float result completes, with the flags of that result's value. -/
theorem completes_of_finishFloat {i : Instr} {s : State} {ra : Reg} {r : Word} (h : exec i s = finishFloat ra r s) :
    Completes i s (WritesFloat ra r s) :=
  ⟨_, h.trans (finishFloat_eq ra r s), writesRegisterAndFlags_next (floatFlags_flagsAre r) ra r s⟩

end Sys2Proof.Machine

/-! ## Arithmetic instructions (R163 to R168) -/

namespace Sys2Proof.Machine

/-- Settles O21: each source form encodes as its row says and finishes the sum of `ra` and its source. -/
theorem addwResult : Obligations.AddwResult :=
  ⟨fun _ _ => ⟨rfl, fun _ => completes_of_finishFloat rfl⟩,
    fun _ _ => ⟨rfl, fun _ => completes_of_finishFloat rfl⟩,
    fun _ _ => ⟨rfl, fun _ => completes_of_finishFloat rfl⟩⟩

/-- Settles O22: each source form encodes as its row says and finishes the difference of `ra` and its source. -/
theorem subwResult : Obligations.SubwResult :=
  ⟨fun _ _ => ⟨rfl, fun _ => completes_of_finishFloat rfl⟩,
    fun _ _ => ⟨rfl, fun _ => completes_of_finishFloat rfl⟩,
    fun _ _ => ⟨rfl, fun _ => completes_of_finishFloat rfl⟩⟩

/-- Settles O23: each source form encodes as its row says and finishes the product of `ra` and its source. -/
theorem mulResult : Obligations.MulResult :=
  ⟨fun _ _ => ⟨rfl, fun _ => completes_of_finishFloat rfl⟩,
    fun _ _ => ⟨rfl, fun _ => completes_of_finishFloat rfl⟩,
    fun _ _ => ⟨rfl, fun _ => completes_of_finishFloat rfl⟩⟩

/-- Settles O24: both finish a float result whose second operand is `floatOne`. -/
theorem incAndDecResult : Obligations.IncAndDecResult :=
  ⟨fun _ => ⟨rfl, fun _ => completes_of_finishFloat rfl⟩, fun _ => ⟨rfl, fun _ => completes_of_finishFloat rfl⟩⟩

theorem getLsbD_xor_signBit (v : Word) (k : Nat) :
    (v ^^^ 0x80000000).getLsbD k = (v.getLsbD k ^^ decide (k = 31)) := by
  have hbit : (0x80000000 : Word) = BitVec.twoPow 32 31 := rfl
  rw [BitVec.getLsbD_xor, hbit, BitVec.getLsbD_twoPow]
  simp [eq_comm]

/-- Settles O25: NEG finishes the exclusive-or with the sign bit, and two of these cancel. -/
theorem negResult : Obligations.NegResult := by
  refine fun ra => ⟨rfl, fun s => ?_⟩
  obtain ⟨t, hexec, hwrites⟩ :
      Completes (.negReg ra) s (WritesFloat ra (s.reg ra ^^^ 0x80000000) s) := completes_of_finishFloat rfl
  obtain ⟨u, hexec', htwice, -⟩ :
      Completes (.negReg ra) t (WritesFloat ra (t.reg ra ^^^ 0x80000000) t) := completes_of_finishFloat rfl
  have hneg : t.reg ra = s.reg ra ^^^ 0x80000000 := hwrites.1
  have hrestored : u.reg ra = s.reg ra := by
    rw [htwice, hneg, BitVec.xor_assoc, BitVec.xor_self, BitVec.xor_zero]
  refine ⟨t, hexec, hwrites, fun k hk => ?_, ?_, u, hexec', hrestored⟩
  · rw [hneg, getLsbD_xor_signBit, decide_eq_false hk.ne, Bool.xor_false]
  · rw [hneg, getLsbD_xor_signBit, decide_eq_true rfl, Bool.xor_true]

end Sys2Proof.Machine

/-! ## NaN operands and infinities (R162) -/

namespace Sys2Proof.Machine

@[simp] theorem floatSum_nan_left (x : FloatVal) : floatSum .nan x = none := rfl

@[simp] theorem floatSum_nan_right (x : FloatVal) : floatSum x .nan = none := by cases x <;> rfl

@[simp] theorem floatProduct_nan_left (x : FloatVal) : floatProduct .nan x = none := rfl

@[simp] theorem floatProduct_nan_right (x : FloatVal) : floatProduct x .nan = none := by cases x <;> rfl

variable (op : Config.FloatOp) {a b : Word} {n n' : Bool} {u : Nat}

theorem float_operations_nan (h : floatVal a = .nan ∨ floatVal b = .nan) :
    floatAdd op a b = nanResultWord op a b ∧ floatSub op a b = nanResultWord op a b ∧
      floatMul op a b = nanResultWord op a b := by
  obtain h | h := h <;> simp [floatAdd, floatSub, floatMul, floatOpposite, h]

/-- Infinities of one sign add, those of two signs subtract; the other two are invalid operations. -/
theorem floatAdd_floatSub_inf_inf (ha : floatVal a = .inf n) (hb : floatVal b = .inf n') :
    if n = n' then floatVal (floatAdd op a b) = .inf n ∧ floatSub op a b = nanResultWord op a b
    else floatAdd op a b = nanResultWord op a b ∧ floatVal (floatSub op a b) = .inf n := by
  rw [floatAdd, floatSub, ha, hb]
  obtain rfl | rfl := Bool.eq_or_eq_not n n'
  · simp [floatOpposite, floatSum, floatVal_packFloat_inf]
  · simp [floatOpposite, floatSum, floatVal_packFloat_inf]

theorem floatMul_inf_inf (ha : floatVal a = .inf n) (hb : floatVal b = .inf n') :
    floatVal (floatMul op a b) = .inf (n != n') := by
  rw [floatMul, ha, hb]
  exact floatVal_packFloat_inf _

/-- An infinity outweighs a finite term on either side, and a subtracted one changes its sign. -/
theorem floatAdd_floatSub_inf_fin (ha : floatVal a = .inf n) (hb : floatVal b = .fin n' u) :
    floatVal (floatAdd op a b) = .inf n ∧ floatVal (floatAdd op b a) = .inf n ∧
      floatVal (floatSub op a b) = .inf n ∧ floatVal (floatSub op b a) = .inf (!n) := by
  simp only [floatAdd, floatSub, ha, hb]
  exact ⟨floatVal_packFloat_inf n, floatVal_packFloat_inf n, floatVal_packFloat_inf n, floatVal_packFloat_inf (!n)⟩

/-- An infinity times zero is invalid; times any other finite factor it is an infinity. -/
theorem floatMul_inf_fin (ha : floatVal a = .inf n) (hb : floatVal b = .fin n' u) :
    if u = 0 then floatMul op a b = nanResultWord op a b ∧ floatMul op b a = nanResultWord op b a
    else floatVal (floatMul op a b) = .inf (n != n') ∧ floatVal (floatMul op b a) = .inf (n != n') := by
  simp only [floatMul, ha, hb, floatProduct]
  split
  · exact ⟨rfl, rfl⟩
  · exact ⟨floatVal_packFloat_inf _, bne_comm (a := n) ▸ floatVal_packFloat_inf _⟩

/-- Settles O28: a clause each for the free NaN, a NaN operand, two infinities, and an infinity with a finite operand. -/
theorem nanAndInfinityRules : Obligations.NanAndInfinityRules := by
  refine ⟨floatVal_nanResultWord, fun op _ _ => float_operations_nan op, fun op a b n n' ha hb => ?_,
    fun op a b n n' u ha hb => ?_⟩
  · exact ⟨floatAdd_floatSub_inf_inf op ha hb, floatMul_inf_inf op ha hb⟩
  · obtain ⟨hadd, hadd', hsub, hsub'⟩ := floatAdd_floatSub_inf_fin op ha hb
    exact ⟨hadd, hadd', hsub, hsub', floatMul_inf_fin op ha hb⟩

end Sys2Proof.Machine

/-! ## Bitwise results and shift amounts (R180, R181, R186, R187) -/

namespace Sys2Proof.Machine

/-- `BitFlags(r, c)`, with the condition that the carry `c` stands for. -/
theorem bitFlags_flagsAre {c : Bool} {carry : Prop} (hcarry : c = true ↔ carry) (r : Word) :
    FlagsAre (r = 0) (r.getLsbD 31 = true) carry (bitFlags r c) := by
  refine ⟨?_, ?_, ?_, flagsWord_reserved ..⟩
  · rw [bitFlags, flagZ_flagsWord, beq_iff_eq]
  · rw [bitFlags, flagS_flagsWord]
  · rw [bitFlags, flagCO_flagsWord, hcarry]

/-- An instruction whose meaning is to finish a bitwise result completes, with the flags of that result and of its carry. -/
theorem completes_of_finishBits {i : Instr} {s : State} {ra : Reg} {r : Word} {c : Bool} {carry : Prop}
    (h : exec i s = finishBits ra r c s) (hcarry : c = true ↔ carry) : Completes i s (WritesBits ra r carry s) :=
  ⟨_, h.trans (finishBits_eq ra r c s), writesRegisterAndFlags_next (bitFlags_flagsAre hcarry r) ra r s⟩

/-- The low five bits are the residue modulo 32 (R180). -/
theorem shiftAmount_eq_mod (v : Word) : shiftAmount v = v.toNat % 32 := by
  rw [shiftAmount, BitVec.extractLsb'_toNat, Nat.shiftRight_zero]

theorem shiftLeft_eq_ofNat_mul (a : Word) (n : Nat) : a <<< n = BitVec.ofNat 32 (a.toNat * 2 ^ n) := by
  apply BitVec.eq_of_toNat_eq
  rw [BitVec.toNat_shiftLeft, BitVec.toNat_ofNat, Nat.shiftLeft_eq]

theorem ushiftRight_eq_ofNat_div (a : Word) (n : Nat) : a >>> n = BitVec.ofNat 32 (a.toNat / 2 ^ n) := by
  rw [← Nat.shiftRight_eq_div_pow, ← BitVec.toNat_ushiftRight, BitVec.ofNat_toNat, BitVec.setWidth_eq]

theorem carryLeft_iff (a : Word) (n : Nat) : carryLeft a n = true ↔ n ≠ 0 ∧ a.getLsbD (32 - n) = true := by
  by_cases hn : n = 0 <;> simp [carryLeft, hn]

theorem carryRight_iff (a : Word) (n : Nat) : carryRight a n = true ↔ n ≠ 0 ∧ a.getLsbD (n - 1) = true := by
  by_cases hn : n = 0 <;> simp [carryRight, hn]

end Sys2Proof.Machine

/-! ## Bitwise instructions (R182 to R187) -/

namespace Sys2Proof.Machine

/-- A left shift in any source form completes, its value and carry given by arithmetic on the old register (R186). -/
theorem completes_of_shl {i : Instr} {s : State} {ra : Reg} (src : Operand) (h : exec i s = shl ra src s) :
    Completes i s (WritesBits ra (BitVec.ofNat 32 ((s.reg ra).toNat * 2 ^ ((src.value s).toNat % 32)))
      ((src.value s).toNat % 32 ≠ 0 ∧ (s.reg ra).getLsbD (32 - (src.value s).toNat % 32) = true) s) := by
  rw [← shiftAmount_eq_mod, ← shiftLeft_eq_ofNat_mul]
  exact completes_of_finishBits h (carryLeft_iff ..)

/-- A right shift in any source form completes, its value and carry given by arithmetic on the old register (R187). -/
theorem completes_of_shr {i : Instr} {s : State} {ra : Reg} (src : Operand) (h : exec i s = shr ra src s) :
    Completes i s (WritesBits ra (BitVec.ofNat 32 ((s.reg ra).toNat / 2 ^ ((src.value s).toNat % 32)))
      ((src.value s).toNat % 32 ≠ 0 ∧ (s.reg ra).getLsbD ((src.value s).toNat % 32 - 1) = true) s) := by
  rw [← shiftAmount_eq_mod, ← ushiftRight_eq_ofNat_div]
  exact completes_of_finishBits h (carryRight_iff ..)

/-- Settles O31: each source form encodes as its row says and is the left shift of `ra` by its source. -/
theorem shlResult : Obligations.ShlResult :=
  ⟨fun _ rb => ⟨rfl, fun _ => completes_of_shl (.reg rb) rfl⟩,
    fun _ v => ⟨rfl, fun _ => completes_of_shl (.immInt v) rfl⟩,
    fun _ v => ⟨rfl, fun _ => completes_of_shl (.immFlt v) rfl⟩⟩

/-- Settles O32: each source form encodes as its row says and is the right shift of `ra` by its source. -/
theorem shrResult : Obligations.ShrResult :=
  ⟨fun _ rb => ⟨rfl, fun _ => completes_of_shr (.reg rb) rfl⟩,
    fun _ v => ⟨rfl, fun _ => completes_of_shr (.immInt v) rfl⟩,
    fun _ v => ⟨rfl, fun _ => completes_of_shr (.immFlt v) rfl⟩⟩

/-- An instruction that finishes a bitwise result with no carry completes with CO 0 (R182 to R185). -/
theorem completes_without_carry {i : Instr} {s : State} {ra : Reg} {r : Word} (h : exec i s = finishBits ra r false s) :
    Completes i s (WritesBits ra r False s) :=
  completes_of_finishBits h Bool.false_eq_true.to_iff

/-- Settles O29: each source form of the three encodes as its row says and finishes its result with no carry. -/
theorem andOrXorResult : Obligations.AndOrXorResult := by
  refine ⟨⟨?_, ?_, ?_⟩, ⟨?_, ?_, ?_⟩, ⟨?_, ?_, ?_⟩⟩
  all_goals exact fun _ _ => ⟨rfl, fun _ => completes_without_carry rfl⟩

/-- Settles O30: NOT finishes the exclusive-or with all ones, which is the complement. -/
theorem notResult : Obligations.NotResult := by
  refine fun ra => ⟨rfl, fun s => ?_⟩
  have hnot : exec (.notReg ra) s = finishBits ra (~~~ s.reg ra) false s :=
    congrArg (finishBits ra · false s) BitVec.xor_allOnes
  exact completes_without_carry hnot

end Sys2Proof.Machine

/-! ## Source kinds that do not decode (R111, R118) -/

namespace Sys2Proof.Machine

theorem decodeWord_error_iff (w : Word) :
    (∃ e, decodeWord w = .error e) ↔ ¬ MatchesSome w (rowsOf (wordOpcode w)) := by
  rw [← decodeWord_legal_iff]
  cases decodeWord w with
  | error e => simp
  | ok i => simp

/-- An opcode whose rows are those of an immediate source refuses the other two source kinds. -/
theorem sourceKindsIllegal_of_rowsRSImm {op : BitVec 6} (hrows : rowsOf op = rowsRSImm op.toNat) :
    SourceKindsIllegal op [0, 3] := by
  rintro w rfl hsk
  rw [decodeWord_error_iff, hrows, matches_rowsRSImm_iff]
  obtain hsk | hsk : wordSk w = 0 ∨ wordSk w = 3 := by simpa using hsk
  all_goals simp [hsk]

/-- An opcode whose row is that of a register source refuses the other three source kinds. -/
theorem sourceKindsIllegal_of_rowsRSReg {op : BitVec 6} (hrows : rowsOf op = rowsRSReg op.toNat) :
    SourceKindsIllegal op [1, 2, 3] := by
  rintro w rfl hsk
  rw [decodeWord_error_iff, hrows, matches_rowsRSReg_iff]
  rintro ⟨hzero, -⟩
  simp [hzero] at hsk

end Sys2Proof.Machine

/-! ## The frames of moves and stores (R145, R200) -/

namespace Sys2Proof.Machine

variable {s t : State} {changed : List Reg} {base len : Nat} {r : Reg}

theorem KeepsRegistersBut.setReg (h : KeepsRegistersBut changed s t) (hr : r ∈ changed) (v : Word) :
    KeepsRegistersBut changed s (t.setReg r v) := by
  intro q hq
  have hne : q ≠ r := fun heq => hq (heq ▸ hr)
  rw [State.setReg_reg_other t r v q hne, h q hq]

theorem movesOnly_advance (changed : List Reg) (s : State) : MovesOnly changed s s.advance :=
  ⟨rfl, ⟨rfl, rfl⟩, fun _ _ => rfl, fun _ => rfl, rfl, rfl, rfl, rfl, rfl, rfl⟩

theorem MovesOnly.setReg (h : MovesOnly changed s t.advance) (hr : r ∈ changed) (v : Word) :
    MovesOnly changed s (t.setReg r v).advance := by
  obtain ⟨hflags, hpc, hregs, hrest⟩ := h
  exact ⟨hflags, hpc, hregs.setReg hr v, hrest⟩

theorem StoresOnly.setReg (h : StoresOnly changed base len s t.advance) (hr : r ∈ changed) (v : Word) :
    StoresOnly changed base len s (t.setReg r v).advance := by
  obtain ⟨hflags, hpc, hregs, hrest⟩ := h
  exact ⟨hflags, hpc, hregs.setReg hr v, hrest⟩

end Sys2Proof.Machine

/-! ## Moves between registers (R201 to R203, R209) -/

namespace Sys2Proof.Machine

/-- An instruction whose meaning is to finish a move completes with the value in its register. -/
theorem completes_of_finishMove {i : Instr} {s : State} {ra : Reg} {v : Word} (h : exec i s = finishMove ra v s) :
    Completes i s (fun t => t.reg ra = v ∧ MovesOnly [ra] s t) :=
  ⟨_, h.trans (finishMove_eq ra v s), State.setReg_reg_same s ra v,
    (movesOnly_advance [ra] s).setReg List.mem_cons_self v⟩

/-- Settles O33: each form encodes as its row says and finishes the move of its source, and the rows of each opcode leave no other
source kind. -/
theorem moveResult : Obligations.MoveResult := by
  refine ⟨⟨?_, ?_, sourceKindsIllegal_of_rowsRSImm rfl⟩, ⟨?_, sourceKindsIllegal_of_rowsRSReg rfl⟩,
    ⟨?_, ?_, sourceKindsIllegal_of_rowsRSImm rfl⟩⟩
  all_goals exact fun _ _ => ⟨rfl, fun _ => completes_of_finishMove rfl⟩

/-- Settles O39: the second write decides where the two registers are one, and then both values are that register's own. -/
theorem xcghResult : Obligations.XcghResult := by
  refine ⟨fun ra rb => ⟨rfl, fun s => ⟨_, rfl, ?_, ?_, ?_⟩⟩, sourceKindsIllegal_of_rowsRSReg rfl⟩
  · by_cases heq : ra = rb
    · simp [heq]
    · simp [State.setReg_reg_other _ rb _ ra heq]
  · simp
  · exact ((movesOnly_advance [ra, rb] s).setReg (by simp) _).setReg (by simp) _

end Sys2Proof.Machine

/-! ## A word moved between a register and Memory (R204 to R206) -/

namespace Sys2Proof.Machine

/-- Settles O34: in range the word read is the one the four bytes hold, and it is moved into `rg`. -/
theorem lodwResult : Obligations.LodwResult := by
  refine fun rg a => ⟨rfl, fun s => ⟨fun hrange => ?_, fun hout => ?_⟩⟩
  · have hread := (State.memRead_some s a.toNat 4 _).mpr ⟨hrange, rfl⟩
    have hexec : exec (.lodwRegAddr rg a) s = finishMove rg (wordOfBytes (Memory.readBytes s.mem a.toNat 4)) s :=
      (execLodwRegAddr_eq rg a s).trans (if_pos hrange)
    obtain ⟨t, hnext, hreg, hmoves⟩ := completes_of_finishMove hexec
    exact ⟨t, hnext, hreg ▸ State.holdsWord_of_memRead hread, hmoves⟩
  · exact (execLodwRegAddr_eq rg a s).trans (if_neg (by omega))

/-- A completed store of the word `v` at `a`: its four bytes, the listed registers and PC may have changed, and nothing else. -/
def StoresWord (changed : List Reg) (a : Nat) (v : Word) (s t : State) : Prop :=
  HoldsWord t a v ∧ StoresOnly changed a 4 s t ∧ t.channel = s.channel

theorem StoresWord.setReg {s t : State} {changed : List Reg} {a : Nat} {v : Word} {r : Reg}
    (h : StoresWord changed a v s t.advance) (hr : r ∈ changed) (w : Word) :
    StoresWord changed a v s (t.setReg r w).advance := by
  obtain ⟨hword, hstores, hchannel⟩ := h
  exact ⟨hword, hstores.setReg hr w, hchannel⟩

/-- A store in range, and the default advance. -/
theorem storesWord_writeBytes {s : State} {a : Nat} (hwf : Memory.wf s.mem) (hrange : a + 4 ≤ s.params.totalSize)
    (changed : List Reg) (v : Word) :
    StoresWord changed a v s (s.setMem (Memory.writeBytes s.mem a (bytesOfWord v 4))).advance := by
  have hstore := (State.memWrite_some s _ a 4 v).mpr ⟨hrange, rfl⟩
  have hread := State.memRead_within_store hwf hstore (k := 0) (n := 4) (by decide)
  have hword := State.holdsWord_of_memRead (w := v) (by simpa using hread)
  have houtside := State.memWrite_keepsMemoryOutside hwf hstore
  exact ⟨hword, ⟨rfl, ⟨rfl, rfl⟩, fun _ _ => rfl, houtside, rfl, rfl, rfl, rfl, rfl⟩, rfl⟩

section FinishStore

variable {i : Instr} {s : State} {a : Nat} {v : Word} (h : exec i s = finishStore a v s)
include h

theorem completes_of_finishStore (hwf : Memory.wf s.mem) (hrange : a + 4 ≤ s.params.totalSize) :
    Completes i s (StoresWord [] a v s) :=
  ⟨_, h.trans ((finishStore_eq a v s).trans (if_pos hrange)), storesWord_writeBytes hwf hrange [] v⟩

theorem takesFault_of_finishStore (hout : s.params.totalSize < a + 4) : TakesFault i s .addressOutOfBounds :=
  h.trans ((finishStore_eq a v s).trans (if_neg (by omega)))

end FinishStore

/-- Settles O35: STRW finishes the store of `rg` at its address. -/
theorem strwResult : Obligations.StrwResult :=
  fun _ _ => ⟨rfl, fun _ => ⟨completes_of_finishStore rfl, takesFault_of_finishStore rfl⟩⟩

/-- Settles O36: both forms finish the store of the immediate at the address that `ra` holds. -/
theorem striResult : Obligations.StriResult := by
  refine ⟨?_, ?_, sourceKindsIllegal_of_rowsRSImm rfl⟩
  all_goals exact fun _ _ => ⟨rfl, fun _ => ⟨completes_of_finishStore rfl, takesFault_of_finishStore rfl⟩⟩

end Sys2Proof.Machine

/-! ## The memory stack (R207, R208, R210) -/

namespace Sys2Proof.Machine

/-- Whether the four bytes below `n` lie in the stack segment, without negative numbers. -/
theorem SegmentLayout.inStack_sub_four_iff (l : SegmentLayout) (n : Nat) :
    l.inStack ((n : Int) - 4) ↔ l.stackStart + 4 ≤ n ∧ n ≤ l.stackStart + l.stackSize := by
  rw [SegmentLayout.inStack, SegmentLayout.stackEnd_eq]
  omega

theorem SegmentLayout.inStack_natCast_iff (l : SegmentLayout) (n : Nat) :
    l.inStack (n : Int) ↔ l.stackStart ≤ n ∧ n + 4 ≤ l.stackStart + l.stackSize := by
  rw [SegmentLayout.inStack, SegmentLayout.stackEnd_eq]
  omega

/-- A completed PUSH of `v` (R207). -/
def PushesWord (v : Word) (s t : State) : Prop :=
  (t.reg .sp).toNat = (s.reg .sp).toNat - 4 ∧ StoresWord [.sp] ((s.reg .sp).toNat - 4) v s t

/-- A completed POP into `ra` (R208). -/
def PopsWord (ra : Reg) (s t : State) : Prop :=
  HoldsWord s (s.reg .sp).toNat (t.reg ra) ∧ (ra ≠ .sp → t.reg .sp = s.reg .sp + 4) ∧ MovesOnly [ra, .sp] s t

section Stack

variable {s : State}

theorem completes_of_push {i : Instr} (src : Operand) (h : exec i s = push src s) (hwf : Memory.wf s.mem)
    (hinside : s.layout.stackStart + s.layout.stackSize ≤ s.params.totalSize)
    (hlow : s.layout.stackStart + 4 ≤ (s.reg .sp).toNat)
    (hhigh : (s.reg .sp).toNat ≤ s.layout.stackStart + s.layout.stackSize) :
    Completes i s (PushesWord (src.value s) s) := by
  have hstack := (s.layout.inStack_sub_four_iff (s.reg .sp).toNat).mpr ⟨hlow, hhigh⟩
  have hrange : (s.reg .sp).toNat - 4 + 4 ≤ s.params.totalSize := by omega
  rw [push_eq, if_pos hstack, if_pos hrange] at h
  refine ⟨_, h, ?_, (storesWord_writeBytes hwf hrange [.sp] _).setReg List.mem_cons_self _⟩
  have hle : (4 : Word) ≤ s.reg .sp := BitVec.le_def.mpr (show 4 ≤ (s.reg .sp).toNat by omega)
  simpa using BitVec.toNat_sub_of_le hle

theorem takesFault_of_push {i : Instr} (src : Operand) (h : exec i s = push src s)
    (hout : (s.reg .sp).toNat < s.layout.stackStart + 4 ∨
      s.layout.stackStart + s.layout.stackSize < (s.reg .sp).toNat) : TakesFault i s .stackOverflow := by
  have hstack : ¬ s.layout.inStack ((s.reg .sp).toNat - 4) := by
    rw [SegmentLayout.inStack_sub_four_iff]
    omega
  exact h.trans ((push_eq src s).trans (if_neg hstack))

theorem completes_pop (ra : Reg) (hinside : s.layout.stackStart + s.layout.stackSize ≤ s.params.totalSize)
    (hlow : s.layout.stackStart ≤ (s.reg .sp).toNat)
    (hhigh : (s.reg .sp).toNat + 4 ≤ s.layout.stackStart + s.layout.stackSize) :
    Completes (.popReg ra) s (PopsWord ra s) := by
  have hstack := (s.layout.inStack_natCast_iff (s.reg .sp).toNat).mpr ⟨hlow, hhigh⟩
  have hrange := hhigh.trans hinside
  have hread := (State.memRead_some s (s.reg .sp).toNat 4 _).mpr ⟨hrange, rfl⟩
  refine ⟨_, (execPopReg_eq ra s).trans ((if_pos hstack).trans (if_pos hrange)), ?_, fun hra => ?_, ?_⟩
  · rw [State.advance_reg, State.setReg_reg_same]
    exact State.holdsWord_of_memRead hread
  · rw [State.advance_reg, State.setReg_reg_other _ _ _ _ hra.symm, State.setReg_reg_same]
  · exact ((movesOnly_advance [ra, .sp] s).setReg (by simp) _).setReg (by simp) _

theorem takesFault_pop (ra : Reg)
    (hout : (s.reg .sp).toNat < s.layout.stackStart ∨
      s.layout.stackStart + s.layout.stackSize < (s.reg .sp).toNat + 4) :
    TakesFault (.popReg ra) s .stackUnderflow := by
  have hstack : ¬ s.layout.inStack (s.reg .sp).toNat := by
    rw [SegmentLayout.inStack_natCast_iff]
    omega
  exact (execPopReg_eq ra s).trans (if_neg hstack)

end Stack

/-- Settles O37: each source form encodes as its row says and pushes its source. -/
theorem pushResult : Obligations.PushResult :=
  ⟨fun rb => ⟨rfl, fun _ => ⟨completes_of_push (.reg rb) rfl, takesFault_of_push (.reg rb) rfl⟩⟩,
    fun v => ⟨rfl, fun _ => ⟨completes_of_push (.immInt v) rfl, takesFault_of_push (.immInt v) rfl⟩⟩,
    fun v => ⟨rfl, fun _ => ⟨completes_of_push (.immFlt v) rfl, takesFault_of_push (.immFlt v) rfl⟩⟩⟩

/-- Settles O38: POP reads the word at SP, and its own register is written after SP. -/
theorem popResult : Obligations.PopResult :=
  fun ra => ⟨rfl, fun _ => ⟨completes_pop ra, takesFault_pop ra⟩⟩

/-- The stack segment of a machine lies inside Memory (R73). -/
theorem MachineInvariant.stack_inside {s : State} (h : MachineInvariant s) :
    s.layout.stackStart + s.layout.stackSize ≤ s.params.totalSize := by
  obtain ⟨⟨-, -, -, -, hend⟩, -⟩ := h.layout
  exact_mod_cast hend

/-- Four bytes hold one word. -/
theorem HoldsWord.unique {s : State} {a : Nat} {v w : Word} (hrange : a + 4 ≤ s.params.totalSize)
    (hv : HoldsWord s a v) (hw : HoldsWord s a w) : v = w :=
  Option.some.inj ((State.memRead_of_holdsWord hrange hv).symm.trans (State.memRead_of_holdsWord hrange hw))

/-- A PUSH, in any source form, and the POP after it: the POP finds SP in the stack segment again, four below where it was, and
reads the word that the PUSH has stored there. -/
theorem completes_push_then_pop {i : Instr} {s : State} (src : Operand) (h : exec i s = push src s) (r : Reg)
    (hinv : MachineInvariant s) (hlow : s.layout.stackStart + 4 ≤ (s.reg .sp).toNat)
    (hhigh : (s.reg .sp).toNat ≤ s.layout.stackStart + s.layout.stackSize) :
    Completes i s (fun t => Completes (.popReg r) t (fun u =>
      u.reg r = src.value s ∧ (r ≠ .sp → u.reg .sp = s.reg .sp) ∧ KeepsRegistersBut [r, .sp] s u)) := by
  have hinside := hinv.stack_inside
  obtain ⟨t, hpush, hsp, hword, ⟨-, -, hregs, -, -, hparams, hlayout, -⟩, -⟩ :=
    completes_of_push src h hinv.memory hinside hlow hhigh
  rw [← hsp] at hword
  rw [← hlayout, ← hparams] at hinside
  rw [← hlayout] at hlow hhigh
  obtain ⟨u, hpop, hpopped, hback, -, -, hregs', -⟩ := completes_pop (s := t) r hinside (by omega) (by omega)
  refine ⟨t, hpush, u, hpop, ?_, fun hr => ?_, fun q hq => ?_⟩
  · exact hpopped.unique (by omega) hword
  · rw [hback hr]
    bv_omega
  · have hne : q ∉ [Reg.sp] := fun hmem => hq (List.mem_cons_of_mem r hmem)
    exact (hregs' q hq).trans (hregs q hne)

/-- Settles O40: the law for PUSH of any operand, at the three source forms. -/
theorem pushThenPopLaw : Obligations.PushThenPopLaw :=
  ⟨fun rb => ⟨rfl, fun _ => completes_push_then_pop (.reg rb) rfl⟩,
    fun v => ⟨rfl, fun _ => completes_push_then_pop (.immInt v) rfl⟩,
    fun v => ⟨rfl, fun _ => completes_push_then_pop (.immFlt v) rfl⟩⟩

end Sys2Proof.Machine

/-! ## Frames of control flow (R145, R147, R231 to R235) -/

namespace Sys2Proof.Machine

/-- A change of PC, of FLAGS and of the queue entry is the most that the frame with no register allows. -/
theorem keepsAllBut_pc_flags_queue (s : State) (pc fl : Word) (q : Option Word) :
    KeepsAllBut [] s { s with pc := pc, flags := fl, queue := q } :=
  ⟨fun _ _ => rfl, fun _ => rfl, rfl, rfl, rfl, rfl, rfl, rfl⟩

/-- A redirection of PC alone (R145). -/
def RedirectsOnly (a : Word) (s t : State) : Prop := RedirectsPc a t ∧ t.flags = s.flags ∧ KeepsAllBut [] s t

theorem redirectsOnly_redirect (a : Word) (s : State) : RedirectsOnly a s (s.redirect a) :=
  ⟨⟨rfl, rfl⟩, rfl, keepsAllBut_pc_flags_queue s a s.flags none⟩

/-- Settles O42: JMP is a redirection and nothing more. -/
theorem jmpResult : Obligations.JmpResult :=
  fun a => ⟨rfl, fun s => ⟨s.redirect a, rfl, redirectsOnly_redirect a s⟩⟩

end Sys2Proof.Machine

/-! ## Comparison (R231) -/

namespace Sys2Proof.Machine

theorem compareFlags_flagsAre (a b : Word) :
    FlagsAre (floatEq (floatVal a) (floatVal b) = true) (floatLt (floatVal a) (floatVal b) = true)
      (floatVal a = .nan ∨ floatVal b = .nan) (compareFlags a b) := by
  refine ⟨?_, ?_, ?_, flagsWord_reserved ..⟩
  · rw [compareFlags, flagZ_flagsWord]
  · rw [compareFlags, flagS_flagsWord]
  · rw [compareFlags, flagCO_flagsWord, Bool.or_eq_true, isNaN_iff, isNaN_iff]

/-- A completed comparison with the word `b` (R231). -/
def Compares (ra : Reg) (b : Word) (s t : State) : Prop :=
  FlagsAre (floatEq (floatVal (s.reg ra)) (floatVal b) = true) (floatLt (floatVal (s.reg ra)) (floatVal b) = true)
    (floatVal (s.reg ra) = .nan ∨ floatVal b = .nan) t.flags ∧ AdvancesPc s t ∧ KeepsAllBut [] s t

theorem completes_of_cmpw {i : Instr} {s : State} {ra : Reg} (src : Operand) (h : exec i s = cmpw ra src s) :
    Completes i s (Compares ra (src.value s) s) :=
  ⟨_, h, compareFlags_flagsAre .., ⟨rfl, rfl⟩, keepsAllBut_pc_flags_queue s _ _ s.queue⟩

/-- Settles O41: each source form encodes as its row says and compares `ra` with its source. -/
theorem cmpwResult : Obligations.CmpwResult :=
  ⟨fun _ rb => ⟨rfl, fun _ => completes_of_cmpw (.reg rb) rfl⟩,
    fun _ v => ⟨rfl, fun _ => completes_of_cmpw (.immInt v) rfl⟩,
    fun _ v => ⟨rfl, fun _ => completes_of_cmpw (.immFlt v) rfl⟩⟩

end Sys2Proof.Machine

/-! ## Conditional jumps (R235 to R243) -/

namespace Sys2Proof.Machine

theorem condNE_iff (fl : Word) : condNE fl = true ↔ fl.getLsbD 0 = false := by
  rw [condNE, flagZ, Bool.not_eq_true']

theorem condGT_iff (fl : Word) :
    condGT fl = true ↔ fl.getLsbD 0 = false ∧ fl.getLsbD 1 = false ∧ fl.getLsbD 2 = false := by
  simp only [condGT, flagZ, flagS, flagCO, Bool.and_eq_true, Bool.not_eq_true', and_assoc]

theorem condGE_iff (fl : Word) : condGE fl = true ↔ fl.getLsbD 1 = false ∧ fl.getLsbD 2 = false := by
  simp only [condGE, flagS, flagCO, Bool.and_eq_true, Bool.not_eq_true']

theorem condLE_iff (fl : Word) : condLE fl = true ↔ fl.getLsbD 1 = true ∨ fl.getLsbD 0 = true := by
  rw [condLE, flagS, flagZ, Bool.or_eq_true]

/-- `jumpIf` on a condition: a redirection where it holds, the default advance where it does not. -/
theorem jumpsIff_of_jumpIf {i : Instr} {s : State} {a : Word} {c : Word → Bool} {cond : Word → Prop}
    (h : exec i s = jumpIf (c s.flags) a s) (hcond : c s.flags = true ↔ cond s.flags) : JumpsIff cond i s a := by
  cases htaken : c s.flags with
  | true =>
    rw [htaken] at h
    obtain ⟨hpc, hrest⟩ := redirectsOnly_redirect a s
    exact ⟨_, h, fun _ => hpc, fun hnot => absurd (hcond.mp htaken) hnot, hrest⟩
  | false =>
    rw [htaken] at h
    obtain ⟨hflags, hpc, hframe⟩ := movesOnly_advance [] s
    have hnot : ¬ cond s.flags := fun hholds => Bool.false_ne_true (htaken.symm.trans (hcond.mpr hholds))
    exact ⟨_, h, fun hholds => absurd hholds hnot, fun _ => hpc, hflags, hframe⟩

/-- Settles O43: each of the eight encodes as its row says and is `jumpIf` on its condition. -/
theorem conditionalJumpsResult : Obligations.ConditionalJumpsResult :=
  ⟨fun _ => ⟨rfl, fun _ => jumpsIff_of_jumpIf (c := condE) rfl Iff.rfl⟩,
    fun _ => ⟨rfl, fun _ => jumpsIff_of_jumpIf rfl (condNE_iff _)⟩,
    fun _ => ⟨rfl, fun _ => jumpsIff_of_jumpIf rfl (condGT_iff _)⟩,
    fun _ => ⟨rfl, fun _ => jumpsIff_of_jumpIf rfl (condGE_iff _)⟩,
    fun _ => ⟨rfl, fun _ => jumpsIff_of_jumpIf (c := condLT) rfl Iff.rfl⟩,
    fun _ => ⟨rfl, fun _ => jumpsIff_of_jumpIf rfl (condLE_iff _)⟩,
    fun _ => ⟨rfl, fun _ => jumpsIff_of_jumpIf (c := condS) rfl Iff.rfl⟩,
    fun _ => ⟨rfl, fun _ => jumpsIff_of_jumpIf (c := condCO) rfl Iff.rfl⟩⟩

end Sys2Proof.Machine

/-! ## The jump after a comparison (R244) -/

namespace Sys2Proof.Machine

/-! ### The order of the float values (R231) -/

variable {x y : FloatVal}

theorem floatEq_of_unordered (h : x = .nan ∨ y = .nan) : floatEq x y = false := by
  obtain rfl | rfl := h
  · rfl
  · cases x <;> rfl

theorem floatLt_of_unordered (h : x = .nan ∨ y = .nan) : floatLt x y = false := by
  obtain rfl | rfl := h
  · rfl
  · cases x <;> rfl

theorem floatLt_of_floatEq (h : floatEq x y = true) : floatLt x y = false := by
  unfold floatEq at h
  split at h
  next n n' => simp [floatLt, beq_iff_eq.mp h]
  next n u n' u' => simp [floatLt, of_decide_eq_true h]
  next => cases h

/-- Two values of which neither is a NaN are equal, or one of them is the less. -/
theorem floatLt_swap (hordered : ¬ (x = .nan ∨ y = .nan)) : floatLt y x = (!floatEq x y && !floatLt x y) := by
  cases x with
  | nan => simp at hordered
  | inf n =>
    cases y with
    | nan => simp at hordered
    | inf n' => cases n <;> cases n' <;> rfl
    | fin n' u' => rfl
  | fin n u =>
    cases y with
    | nan => simp at hordered
    | inf n' => cases n' <;> rfl
    | fin n' u' =>
      rw [Bool.eq_iff_iff]
      simp only [floatEq, floatLt, Bool.and_eq_true, Bool.not_eq_true', decide_eq_true_eq, decide_eq_false_iff_not]
      omega

/-! ### The conditions on the flags of a comparison -/

section Compared

variable {fl : Word} (hflags : FlagsAre (floatEq x y = true) (floatLt x y = true) (x = .nan ∨ y = .nan) fl)
include hflags

theorem condE_of_compared : condE fl = floatEq x y := by
  obtain ⟨hz, -⟩ := hflags
  exact Bool.eq_iff_iff.mpr hz

theorem condLT_of_compared : condLT fl = floatLt x y := by
  obtain ⟨-, hs, -⟩ := hflags
  exact Bool.eq_iff_iff.mpr hs

theorem condCO_iff_of_compared : condCO fl = true ↔ x = .nan ∨ y = .nan := by
  obtain ⟨-, -, hco, -⟩ := hflags
  exact hco

theorem condLE_of_compared : condLE fl = (floatLt x y || floatEq x y) :=
  congrArg₂ or (condLT_of_compared hflags) (condE_of_compared hflags)

theorem condGT_of_compared : condGT fl = floatLt y x := by
  have hcond : condGT fl = (!condE fl && !condLT fl && !condCO fl) := rfl
  rw [hcond, condE_of_compared hflags, condLT_of_compared hflags]
  by_cases hnan : x = .nan ∨ y = .nan
  · simp [(condCO_iff_of_compared hflags).mpr hnan, floatLt_of_unordered hnan.symm]
  · simp [Bool.eq_false_iff.mpr (mt (condCO_iff_of_compared hflags).mp hnan), floatLt_swap hnan]

/-- JGE does not test Z: without a NaN, a first operand that is not less is greater or equal. -/
theorem condGE_of_compared : condGE fl = (floatLt y x || floatEq x y) := by
  have hcond : condGE fl = (!condLT fl && !condCO fl) := rfl
  rw [hcond, condLT_of_compared hflags]
  by_cases hnan : x = .nan ∨ y = .nan
  · simp [(condCO_iff_of_compared hflags).mpr hnan, floatLt_of_unordered hnan.symm, floatEq_of_unordered hnan]
  · rw [Bool.eq_false_iff.mpr (mt (condCO_iff_of_compared hflags).mp hnan), floatLt_swap hnan]
    cases heq : floatEq x y with
    | true => simp [floatLt_of_floatEq heq]
    | false => simp

end Compared

/-- `jumpIf` on a flag that is known. -/
theorem exec_of_jumpIf {j : Instr} {t : State} {target : Word} {c taken : Bool} (h : exec j t = jumpIf c target t)
    (hc : c = taken) :
    if taken then exec j t = .next { t with pc := target, queue := none } else exec j t = .next { t with pc := t.pc + 4 } := by
  subst hc
  cases c with
  | true => exact h
  | false => exact h

/-- Settles O44: the flags of CMPW give each relational jump its relation, and a NaN operand gives every condition its value. -/
theorem compareThenJumpLaw : Obligations.CompareThenJumpLaw := by
  intro s ra rb target
  obtain ⟨t, hexec, hflags, -⟩ : Completes (.cmpwReg ra rb) s (Compares ra (s.reg rb) s) :=
    completes_of_cmpw (.reg rb) rfl
  refine ⟨t, hexec, exec_of_jumpIf rfl (condGT_of_compared hflags), exec_of_jumpIf rfl (condLT_of_compared hflags),
    exec_of_jumpIf rfl (condE_of_compared hflags), exec_of_jumpIf rfl (condGE_of_compared hflags),
    exec_of_jumpIf rfl (condLE_of_compared hflags), fun hnan => ?_⟩
  have heq : floatEq (floatVal (s.reg ra)) (floatVal (s.reg rb)) = false := floatEq_of_unordered hnan
  have hlt : floatLt (floatVal (s.reg ra)) (floatVal (s.reg rb)) = false := floatLt_of_unordered hnan
  have hgt : floatLt (floatVal (s.reg rb)) (floatVal (s.reg ra)) = false := floatLt_of_unordered hnan.symm
  have hE : condE t.flags = false := (condE_of_compared hflags).trans heq
  have hLT : condLT t.flags = false := (condLT_of_compared hflags).trans hlt
  have hGT : condGT t.flags = false := (condGT_of_compared hflags).trans hgt
  have hGE : condGE t.flags = false := (condGE_of_compared hflags).trans (by rw [hgt, heq]; rfl)
  have hLE : condLE t.flags = false := (condLE_of_compared hflags).trans (by rw [hlt, heq]; rfl)
  have hNE : condNE t.flags = true := congrArg not hE
  have hCO : condCO t.flags = true := (condCO_iff_of_compared hflags).mpr hnan
  exact ⟨exec_of_jumpIf rfl hE, exec_of_jumpIf rfl hGT, exec_of_jumpIf rfl hLT, exec_of_jumpIf rfl hGE,
    exec_of_jumpIf rfl hLE, exec_of_jumpIf rfl (c := condS t.flags) hLT, exec_of_jumpIf rfl hNE, exec_of_jumpIf rfl hCO⟩

end Sys2Proof.Machine

/-! ## CALL and RET (R41, R233, R234) -/

namespace Sys2Proof.Machine

/-- A completed CALL or RET: the Call Stack is `stack`, PC is redirected, and nothing else changes. -/
def Transfers (stack : List Word) (a : Word) (s t : State) : Prop :=
  t.callStack = stack ∧ RedirectsPc a t ∧ t.flags = s.flags ∧ KeepsRegistersBut [] s t ∧ KeepsMemory s t ∧
    t.channel = s.channel ∧ KeepsControl s t

theorem transfers_redirect (stack : List Word) (a : Word) (s : State) :
    Transfers stack a s { s.redirect a with callStack := stack } :=
  ⟨rfl, ⟨rfl, rfl⟩, rfl, fun _ _ => rfl, fun _ => rfl, rfl, rfl, rfl, rfl, rfl⟩

variable {s : State}

theorem completes_call (a : Word) (hroom : ∀ c, s.params.callStackCapacity = some c → s.callStack.length < c) :
    Completes (.callAddr a) s (Transfers ((s.pc + 4) :: s.callStack) a s) := by
  have hnotFull : ¬ s.callStackFull = true := by
    rw [State.callStackFull_iff]
    rintro ⟨c, hcap, hfull⟩
    exact absurd (hroom c hcap) hfull.not_gt
  exact ⟨_, (execCallAddr_eq a s).trans (if_neg hnotFull), transfers_redirect _ a s⟩

theorem takesFault_call (a : Word) (hfull : s.params.callStackCapacity = some s.callStack.length) :
    TakesFault (.callAddr a) s .stackOverflow :=
  (execCallAddr_eq a s).trans (if_pos (s.callStackFull_iff.mpr ⟨_, hfull, le_rfl⟩))

/-- Settles O45: CALL transfers where its address finds room on the Call Stack. -/
theorem callResult : Obligations.CallResult :=
  fun a => ⟨rfl, fun _ => ⟨completes_call a, takesFault_call a⟩⟩

theorem completes_ret {a : Word} {rest : List Word} (hstack : s.callStack = a :: rest) :
    Completes .retNone s (Transfers rest a s) := by
  have hdrop : s.callDrop.redirect a = { s.redirect a with callStack := rest } := by
    rw [State.callDrop, hstack]
    rfl
  exact ⟨_, execRetNone_next a rest s hstack, hdrop ▸ transfers_redirect rest a s⟩

/-- Settles O46: RET transfers to the top of the Call Stack, where there is one. -/
theorem retResult : Obligations.RetResult :=
  ⟨rfl, fun s => ⟨fun _ _ => completes_ret, execRetNone_fault s⟩⟩

/-- Settles O47: the address that CALL has pushed is the top that RET finds. -/
theorem callThenRetLaw : Obligations.CallThenRetLaw := by
  intro s u a hroom
  obtain ⟨t, hcall, hpushed, -⟩ := completes_call a hroom
  refine ⟨t, hcall, congrArg List.length hpushed, fun hsame => ?_⟩
  obtain ⟨v, hret, hpopped, ⟨hpc, hqueue⟩, -⟩ := completes_ret (hsame.trans hpushed)
  exact ⟨v, hret, hpc, hpopped, hqueue⟩

end Sys2Proof.Machine

/-! ## HALT (R260) -/

namespace Sys2Proof.Machine

/-- HALT has no operand, so its mnemonic is carried by one instruction only. -/
theorem eq_haltNone_of_mnemonic_halt {i : Instr} (h : i.mnemonic = .halt) : i = .haltNone := by
  cases i with
  | haltNone => rfl
  | _ => cases h

/-- Of the effects of an instruction only HALT's sets the run state to Halted: a fault sets it to Faulted, and every other
effect keeps it. -/
theorem Effect.halted_before {m : Mnemonic} {s t : State} (heffect : Effect m s t) (hm : m ≠ .halt)
    (hhalted : t.runState = .halted) : s.runState = .halted := by
  cases heffect with
  | halted hhalt => exact absurd hhalt hm
  | faulted | stringFaulted => cases hhalted
  | _ => exact hhalted

/-- Settles O48: HALT's state is `s.halt.advance`, which is terminal, so neither a step nor the loop of `run` leaves it; another
instruction has another mnemonic, whose effects do not halt. -/
theorem haltResult : Obligations.HaltResult := by
  refine ⟨rfl, fun i s t hi hexec hhalted => ?_, fun s => ?_⟩
  · exact (exec_effect hexec).halted_before (mt eq_haltNone_of_mnemonic_halt hi) hhalted
  · have hterminal : s.halt.advance.runState = .halted ∨ s.halt.advance.runState = .faulted := .inl rfl
    have hstep : step s.halt.advance = .next s.halt.advance := step_terminal _ hterminal
    have hrun (cycles : Nat) : hostRun cycles s.halt.advance = .next s.halt.advance :=
      hostRun_terminal cycles _ ((State.terminal_iff _).mpr hterminal)
    exact ⟨s.halt.advance, rfl, rfl, rfl, ⟨rfl, rfl⟩, fun _ _ => rfl, fun _ => rfl, rfl, rfl, rfl, rfl, rfl, hstep, hrun⟩

end Sys2Proof.Machine

/-! ## The channel is used by the I/O instructions alone (R265) -/

namespace Sys2Proof.Machine

/-- Settles O17: setting the channel is independent of every mnemonic but those of the I/O instructions. -/
theorem channelIsPrivateToInputOutput : Obligations.ChannelIsPrivateToInputOutput := by
  intro i s ch hm
  have h : Independent i.mnemonic (fun t => { t with channel := ch }) :=
    { chanHead := fun huser => absurd huser hm
      chanDrop := fun huser => absurd huser hm
      chanWrite := fun huser => absurd huser hm }
  exact exec_independent h s

end Sys2Proof.Machine

/-! ## The frames of I/O instructions (R265, R267, R268, R271) -/

namespace Sys2Proof.Machine

/-- An I/O instruction that stores nothing has completed: the listed registers, PC and the channel may have changed, and nothing
else. -/
def UsesChannel (changed : List Reg) (s t : State) : Prop :=
  t.flags = s.flags ∧ AdvancesPc s t ∧ KeepsRegistersBut changed s t ∧ KeepsMemory s t ∧ t.callStack = s.callStack ∧
    KeepsControl s t

theorem usesChannel_advance (changed : List Reg) (s : State) (ch : Channel) :
    UsesChannel changed s { s.advance with channel := ch } :=
  ⟨rfl, ⟨rfl, rfl⟩, fun _ _ => rfl, fun _ => rfl, rfl, rfl, rfl, rfl, rfl⟩

theorem UsesChannel.setReg {s t : State} {changed : List Reg} {r : Reg} (h : UsesChannel changed s t.advance)
    (hr : r ∈ changed) (v : Word) : UsesChannel changed s (t.setReg r v).advance := by
  obtain ⟨hflags, hpc, hregs, hrest⟩ := h
  exact ⟨hflags, hpc, hregs.setReg hr v, hrest⟩

/-- One write of these bytes to the channel, and nothing else but the default advance. -/
def Sends (bytes : List Byte) (s t : State) : Prop :=
  t.channel.output = s.channel.output ++ [bytes] ∧ t.channel.input = s.channel.input ∧ UsesChannel [] s t

theorem sends_chanWrite (bytes : List Byte) (s : State) : Sends bytes s (s.chanWrite bytes).advance :=
  ⟨rfl, rfl, usesChannel_advance [] s _⟩

end Sys2Proof.Machine

/-! ## Words over the channel (R267, R268) -/

namespace Sys2Proof.Machine

/-- Byte `k` of a little-endian value: beyond the end of the sequence it is 0 (R61, R63). -/
theorem wordOfBytes_byte (bs : List Byte) {k : Nat} (hk : k < 4) :
    (wordOfBytes bs).extractLsb' (8 * k) 8 = bs.getD k 0 := by
  apply BitVec.eq_of_getLsbD_eq
  intro j hj
  have hbit := wordOfBytes_bit bs (8 * k + j) (by omega)
  rw [show (8 * k + j) / 8 = k by omega, show (8 * k + j) % 8 = j by omega] at hbit
  rw [BitVec.getLsbD_extractLsb', hbit, decide_eq_true hj, Bool.true_and]

/-- The bytes beyond the fourth are not among the four of the word. -/
theorem channelWord_byte (bs : List Byte) {k : Nat} (hk : k < 4) :
    (channelWord bs).extractLsb' (8 * k) 8 = bs.getD k 0 := by
  rw [channelWord, wordOfBytes_byte _ hk, List.getD_eq_getElem?_getD, List.getElem?_take_of_lt hk,
    ← List.getD_eq_getElem?_getD]

/-- Settles O49: the register holds the word of the head of the input, and taking that head changes the channel's input alone. -/
theorem inResult : Obligations.InResult := by
  refine fun ra => ⟨rfl, fun s => ⟨_, rfl, fun k hk => ?_, rfl, rfl, ?_⟩⟩
  · rw [State.advance_reg, State.setReg_reg_same]
    exact channelWord_byte s.chanHead hk
  · exact UsesChannel.setReg (t := s.chanDrop) (usesChannel_advance [ra] s _) List.mem_cons_self _

theorem completes_of_out {i : Instr} {s : State} (src : Operand) (h : exec i s = out src s) :
    Completes i s (Sends (bytesOfWord4 (src.value s)) s) :=
  ⟨_, h, bytesOfWord4_eq (src.value s) ▸ sends_chanWrite _ s⟩

/-- Settles O50: each source form encodes as its row says and sends the bytes of its source. -/
theorem outResult : Obligations.OutResult :=
  ⟨fun rb => ⟨rfl, fun _ => completes_of_out (.reg rb) rfl⟩,
    fun v => ⟨rfl, fun _ => completes_of_out (.immInt v) rfl⟩,
    fun v => ⟨rfl, fun _ => completes_of_out (.immFlt v) rfl⟩⟩

end Sys2Proof.Machine

/-! ## Strings from the channel (R269, R270, R274) -/

namespace Sys2Proof.Machine

theorem ne_zero_of_mem_stringPart {bs : List Byte} {b : Byte} (hb : b ∈ stringPart bs) : b ≠ 0 := by
  simpa using List.mem_takeWhile_imp hb

theorem stringPart_cons_zero (bs : List Byte) : stringPart (0 :: bs) = [] := rfl

theorem stringPart_cons_of_ne {b : Byte} (hb : b ≠ 0) (bs : List Byte) :
    stringPart (b :: bs) = b :: stringPart bs :=
  List.takeWhile_cons_of_pos (bne_iff_ne.mpr hb)

theorem stringPart_eq_or_append_zero (bs : List Byte) :
    stringPart bs = bs ∨ ∃ rest, bs = stringPart bs ++ 0 :: rest := by
  induction bs with
  | nil => exact .inl rfl
  | cons b bs ih =>
    by_cases hb : b = 0
    · subst hb
      exact .inr ⟨bs, by rw [stringPart_cons_zero, List.nil_append]⟩
    · rw [stringPart_cons_of_ne hb]
      exact ih.imp (congrArg (b :: ·)) fun ⟨rest, hrest⟩ => ⟨rest, congrArg (b :: ·) hrest⟩

/-- Settles O52: by recursion on the sequence, up to its first 0x00. -/
theorem stringPartIsUpToTheFirstZero : Obligations.StringPartIsUpToTheFirstZero :=
  fun bs => ⟨fun _ => ne_zero_of_mem_stringPart, stringPart_eq_or_append_zero bs⟩

/-- One string taken from the channel and stored at `a` with its terminator, and nothing else but the default advance. -/
def ReceivesString (a : Nat) (bytes : List Byte) (s t : State) : Prop :=
  (∀ k, (h : k < bytes.length) → t.byteAt (a + k) = bytes[k]) ∧ t.byteAt (a + bytes.length) = 0 ∧
    StoresOnly [] a (bytes.length + 1) s t ∧ t.channel.input = s.channel.input.tail ∧
    t.channel.output = s.channel.output

theorem receivesString_chanDrop {s : State} (hwf : Memory.wf s.mem) (a : Nat) (bytes : List Byte) :
    ReceivesString a bytes s (s.chanDrop.setMem (Memory.writeBytes s.mem a (bytes ++ [0]))).advance := by
  have hbyte := fun k => State.byteAt_writeBytes s.chanDrop a (bytes ++ [0]) k hwf
  simp only [List.length_append, List.length_singleton, State.chanDrop_byteAt, State.chanDrop_mem] at hbyte
  refine ⟨fun k hk => ?_, ?_, ⟨rfl, ⟨rfl, rfl⟩, fun _ _ => rfl, fun k hk => ?_, rfl, rfl, rfl, rfl, rfl⟩, rfl, rfl⟩
  · rw [State.advance_byteAt, hbyte, if_pos (by omega), Nat.add_sub_cancel_left,
      List.getD_append _ _ _ _ hk, List.getD_eq_getElem _ _ hk]
  · rw [State.advance_byteAt, hbyte, if_pos (by omega), Nat.add_sub_cancel_left]
    simp
  · rw [State.advance_byteAt, hbyte, if_neg (by omega)]

section StringIn

variable {i : Instr} {s : State} {a : Nat} (h : exec i s = stringIn a s)
include h

theorem completes_of_stringIn (hwf : Memory.wf s.mem)
    (hrange : a + (stringPart s.chanHead).length + 1 ≤ s.params.totalSize) :
    Completes i s (ReceivesString a (stringPart s.chanHead) s) :=
  ⟨_, h.trans ((stringIn_eq a s).trans (if_pos hrange)), receivesString_chanDrop hwf a _⟩

theorem exec_eq_fault_of_stringIn (hout : s.params.totalSize < a + (stringPart s.chanHead).length + 1) :
    exec i s = .next (s.chanDrop.enterFault .addressOutOfBounds) :=
  h.trans ((stringIn_eq a s).trans (if_neg (by omega)))

end StringIn

/-- Settles O51: INSI stores a string at its own address, INSW at the one that `ra` holds. -/
theorem stringInputResult : Obligations.StringInputResult :=
  ⟨fun _ => ⟨rfl, fun _ => ⟨completes_of_stringIn rfl, exec_eq_fault_of_stringIn rfl⟩⟩,
    fun _ => ⟨rfl, fun _ => ⟨completes_of_stringIn rfl, exec_eq_fault_of_stringIn rfl⟩⟩⟩

end Sys2Proof.Machine

/-! ## Strings to the channel (R271, R272) -/

namespace Sys2Proof.Machine

theorem Memory.readBytes_getElem (m : List Host.Cell) (a n k : Nat) (hk : k < (Memory.readBytes m a n).length) :
    (Memory.readBytes m a n)[k] = Memory.read m (a + k) := by
  rw [← List.getD_eq_getElem _ 0 hk, Memory.readBytes_getD, if_pos (by simpa using hk)]

/-- One write of the `n` bytes at `a` to the channel, and nothing else but the default advance. -/
def SendsString (a n : Nat) (s t : State) : Prop :=
  (∃ bytes : List Byte, bytes.length = n ∧ (∀ k, (h : k < bytes.length) → bytes[k] = s.byteAt (a + k)) ∧
      t.channel.output = s.channel.output ++ [bytes]) ∧
    t.channel.input = s.channel.input ∧ UsesChannel [] s t

section StringOut

variable {i : Instr} {s : State} {a : Nat} (h : exec i s = stringOut a s)
include h

theorem completes_of_stringOut (n : Nat) (hrange : a + n < s.params.totalSize) (hzero : s.byteAt (a + n) = 0)
    (hleast : ∀ k < n, s.byteAt (a + k) ≠ 0) :
    Completes i s (SendsString a n s) := by
  obtain ⟨hwritten, hkept⟩ := sends_chanWrite (Memory.readBytes s.mem a n) s
  exact ⟨_, h.trans (stringOut_next a n s hrange hzero hleast),
    ⟨_, Memory.readBytes_length s.mem a n, Memory.readBytes_getElem s.mem a n, hwritten⟩, hkept⟩

theorem takesFault_of_stringOut (hnone : ∀ k, a ≤ k → k < s.params.totalSize → s.byteAt k ≠ 0) :
    TakesFault i s .addressOutOfBounds :=
  h.trans (stringOut_fault a s hnone)

end StringOut

/-- Settles O53: OUTI sends the string at its own address, OUTW the one at the address that `ra` holds. -/
theorem stringOutputResult : Obligations.StringOutputResult :=
  ⟨fun _ => ⟨rfl, fun _ => ⟨completes_of_stringOut rfl, takesFault_of_stringOut rfl⟩⟩,
    fun _ => ⟨rfl, fun _ => ⟨completes_of_stringOut rfl, takesFault_of_stringOut rfl⟩⟩⟩

end Sys2Proof.Machine

/-! ## The worked encodings (30_encoding.md section 8) -/

namespace Sys2Proof.Machine

/-- Settles O4: the decoder evaluates on each of the ten words. -/
theorem sampleWordsDecode : Obligations.SampleWordsDecode := by
  refine ⟨?_, ?_, ?_, ?_, ?_, ?_, ?_, ?_, ?_, ?_⟩
  all_goals decide

end Sys2Proof.Machine

/-! ## Construction (R6, R10, R370) -/

namespace Sys2Proof.Machine

theorem hostNew_of_legal {p : Config.Params} (hsize : 65536 ≤ p.totalSize ∧ p.totalSize ≤ 8388608)
    (hcapacity : p.capacityLegal) : hostNew p = .ok (State.constructed p) :=
  (hostNew_ok_iff p _).mpr ⟨by simpa only [Config.minTotalSize, Config.maxTotalSize], hcapacity, rfl⟩

theorem hostNew_of_size_out_of_range {p : Config.Params} (h : p.totalSize < 65536 ∨ 8388608 < p.totalSize) :
    hostNew p = .error .sizeRange := by
  have hout : ¬ (Config.minTotalSize ≤ p.totalSize ∧ p.totalSize ≤ Config.maxTotalSize) := by
    simp only [Config.minTotalSize, Config.maxTotalSize]
    omega
  rw [hostNew, if_neg hout]

theorem State.constructed_stackStart {p : Config.Params} (hmin : 65536 ≤ p.totalSize) :
    (State.constructed p).layout.stackStart + 4096 = p.totalSize := by
  simp only [State.constructed, SegmentLayout.default, Config.defaultStackSize]
  omega

/-- Settles O55: in range the answer is the constructed state, whose fields R45 lists. -/
theorem constructionRange : Obligations.ConstructionRange := by
  refine fun p => ⟨fun hsize hcapacity => ?_, hostNew_of_size_out_of_range⟩
  exact ⟨_, hostNew_of_legal hsize hcapacity, rfl, RegFile.read_zero, rfl, fun _ => rfl, rfl, rfl, rfl,
    State.constructed_stackStart hsize.1, SegmentLayout.dataStart_eq _, rfl, rfl, rfl, rfl⟩

end Sys2Proof.Machine

/-! ## Reset (R373) -/

namespace Sys2Proof.Machine

/-- No step enters Ready: a terminal state is kept, and in any other run state but Ready no cycle starts. -/
theorem step_keeps_not_ready {s u : State} (hrun : s.runState ≠ .ready) (hstep : step s = .next u) :
    u.runState ≠ .ready := by
  obtain ⟨rfl, -⟩ | ⟨hready, -⟩ | ⟨_, _, hready, -⟩ | ⟨_, _, hready, -⟩ := step_next s u hstep
  · exact hrun
  all_goals exact absurd hready hrun

/-- Settles O56: the fields that `hostReset` writes and those it keeps. -/
theorem resetResult : Obligations.ResetResult :=
  fun _ => ⟨RegFile.read_zero, rfl, rfl, rfl, rfl, rfl, rfl, fun _ => rfl, rfl, rfl, rfl,
    fun _ => step_keeps_not_ready⟩

end Sys2Proof.Machine

/-! ## What `load` leaves (R374) -/

namespace Sys2Proof.Machine

/-- Memory after `load`: the text, and then the data, written into a Memory of zeros. -/
def Image.memory (img : Image) : List Host.Cell :=
  Memory.writeBytes (Memory.writeBytes [] img.textStart img.textBytes) (img.stackStart - img.data.length) img.data

/-- The state that `load` answers for an image that fits. -/
def Image.loadedInto (img : Image) (s : State) : State :=
  hostReset { s with
    mem := img.memory
    layout := { textStart := img.textStart, stackStart := img.stackStart, stackSize := img.stackSize } }

theorem hostLoad_eq_loadedInto {s : State} {img : Image} (hfits : img.fits s.params.totalSize) :
    hostLoad s img = .ok (img.loadedInto s) :=
  hostLoad_of_fits s img hfits

theorem hostLoad_of_not_fits {s : State} {img : Image} (h : ¬ img.fits s.params.totalSize) :
    hostLoad s img = .error .segmentLayout :=
  if_neg h

theorem hostLoad_ok_iff (s t : State) (img : Image) :
    hostLoad s img = .ok t ↔ img.fits s.params.totalSize ∧ t = img.loadedInto s := by
  by_cases hfits : img.fits s.params.totalSize
  · rw [hostLoad_eq_loadedInto hfits, Except.ok.injEq, eq_comm, and_iff_right hfits]
  · rw [hostLoad_of_not_fits hfits]
    exact ⟨nofun, fun h => absurd h.1 hfits⟩

/-- A byte of the loaded Memory. The data is written last; what it leaves is the text, and beyond both Memory is zero. -/
theorem Image.read_memory (img : Image) (a : Nat) :
    Memory.read img.memory a =
      if img.stackStart - img.data.length ≤ a ∧ a < img.stackStart - img.data.length + img.data.length then
        img.data.getD (a - (img.stackStart - img.data.length)) 0
      else if img.textStart ≤ a ∧ a < img.textStart + 4 * img.text.length then
        img.textBytes.getD (a - img.textStart) 0
      else 0 := by
  have hwf : Memory.wf (Memory.writeBytes [] img.textStart img.textBytes) :=
    Memory.writeBytes_wf _ _ _ Memory.wf_nil
  rw [Image.memory, Memory.read_writeBytes _ _ _ _ hwf, Memory.read_writeBytes _ _ _ _ Memory.wf_nil,
    Image.textBytes_length, Memory.read_nil]

/-- The bytes of words in order: byte `j` of word `k` stands at `4 * k + j`. -/
theorem getD_flatMap_bytesOfWord (ws : List Word) (k j : Nat) (hk : k < ws.length) (hj : j < 4) :
    (ws.flatMap (fun w => bytesOfWord w 4)).getD (4 * k + j) 0 = ws[k].extractLsb' (8 * j) 8 := by
  induction ws generalizing k with
  | nil => cases hk
  | cons w ws ih =>
    rw [List.flatMap_cons]
    cases k with
    | zero =>
      rw [List.getD_append _ _ _ _ (by simpa using hj), Nat.mul_zero, Nat.zero_add, ← wordOfBytes_byte _ hj,
        wordOfBytes_bytesOfWord, List.getElem_cons_zero]
    | succ k =>
      rw [List.getD_append_right _ _ _ _ (by simp; omega), bytesOfWord_length,
        show 4 * (k + 1) + j - 4 = 4 * k + j by omega, ih k (by simpa using hk), List.getElem_cons_succ]

/-- In a valid layout the data does not reach into the text, so the text's words stand as written. -/
theorem Image.loadedInto_holdsWord {img : Image} {n : Nat} (hfits : img.fits n) (s : State) (k : Nat)
    (hk : k < img.text.length) : HoldsWord (img.loadedInto s) (img.textStart + 4 * k) img.text[k] := by
  obtain ⟨⟨-, -, hdata, -, -⟩, -, hdisjoint⟩ := hfits
  intro j hj
  have hbyte := img.read_memory (img.textStart + 4 * k + j)
  rw [if_neg (by omega), if_pos (by omega), show img.textStart + 4 * k + j - img.textStart = 4 * k + j by omega] at hbyte
  exact hbyte.trans (getD_flatMap_bytesOfWord img.text k j hk hj)

theorem Image.loadedInto_data (img : Image) (s : State) (k : Nat) (hk : k < img.data.length) :
    (img.loadedInto s).byteAt (img.stackStart - img.data.length + k) = img.data[k] := by
  refine (img.read_memory _).trans ?_
  rw [if_pos (by omega), Nat.add_sub_cancel_left, List.getD_eq_getElem _ _ hk]

theorem Image.loadedInto_elsewhere {img : Image} {n : Nat} (hfits : img.fits n) (s : State) (a : Nat)
    (htext : a < img.textStart ∨ img.textStart + 4 * img.text.length ≤ a)
    (hdata : a < img.stackStart - img.data.length ∨ img.stackStart ≤ a) : (img.loadedInto s).byteAt a = 0 := by
  obtain ⟨⟨-, -, hstart, -, -⟩, -⟩ := hfits
  refine (img.read_memory a).trans ?_
  rw [if_neg (by omega), if_neg (by omega)]

/-- Settles O57: `load` succeeds exactly where the image fits, and its Memory is the image's. -/
theorem loadResult : Obligations.LoadResult :=
  fun s img => ⟨fun hfits => ⟨_, hostLoad_eq_loadedInto hfits, img.loadedInto_holdsWord hfits s, img.loadedInto_data s,
    img.loadedInto_elsewhere hfits s, rfl, rfl, RegFile.read_zero, rfl, rfl, rfl, rfl, rfl, rfl, rfl⟩,
    hostLoad_of_not_fits⟩

end Sys2Proof.Machine

/-! ## The host commands keep the invariant (R370, R373, R374) -/

namespace Sys2Proof.Machine

/-- An image's layout is valid for an empty program too, which asks for less (R73). -/
theorem Image.fits.layoutValid_empty {img : Image} {n : Nat} (hfits : img.fits n) :
    layoutValid n img.textStart 0 img.stackStart img.stackSize 0 := by
  simp only [Image.fits, layoutValid] at hfits ⊢
  omega

/-- The loaded bytes lie in Memory (R73). -/
theorem Image.memory_bound {img : Image} {n : Nat} (hfits : img.fits n) : ∀ c ∈ img.memory, c.1 < n := by
  obtain ⟨⟨-, htext, hdata, -, hstack⟩, -⟩ := hfits
  refine Memory.writeBytes_bound _ _ _ _ (Memory.writeBytes_bound _ _ _ _ nofun ?_) (by omega)
  rw [Image.textBytes_length]
  omega

namespace MachineInvariant

variable {s : State}

theorem hostReset (h : MachineInvariant s) : MachineInvariant (hostReset s) :=
  { h with
    flagsReserved := by simp [Machine.hostReset]
    callDepth := fun _ _ => Nat.zero_le _
    boundary := .inl rfl
    faultCode := by simp [Machine.hostReset] }

/-- The layout check of `load` is the invariant's, and the text and the data lie in Memory. -/
theorem loadedInto (h : MachineInvariant s) {img : Image} (hfits : img.fits s.params.totalSize) :
    MachineInvariant (img.loadedInto s) :=
  hostReset
    { h with
      memory := Memory.writeBytes_wf _ _ _ (Memory.writeBytes_wf _ _ _ Memory.wf_nil)
      memoryBound := Image.memory_bound hfits
      layout := hfits.layoutValid_empty }

end MachineInvariant

/-- Settles O11: construction answers the constructed state, and `load` resets a state that meets the invariant. -/
theorem invariantKeptByHostCommands : Obligations.InvariantKeptByHostCommands := by
  refine ⟨fun p s hnew => ?_, fun s h => h.hostReset, fun s t img h hload => ?_⟩
  · obtain ⟨hsize, hcapacity, rfl⟩ := (hostNew_ok_iff p s).mp hnew
    exact State.constructed_invariant hsize hcapacity
  · obtain ⟨hfits, rfl⟩ := (hostLoad_ok_iff s t img).mp hload
    exact h.loadedInto hfits

end Sys2Proof.Machine

/-! ## Where instructions fault (R341) -/

namespace Sys2Proof.Machine

variable {i : Instr} {s : State} {c : FaultCode} {condition : Prop}

/-- An instruction faults exactly where it enters the fault, if elsewhere it answers a state that is not Faulted. -/
theorem faultsExactly_of_cases (hfault : condition → FaultsWith i s c)
    (hdone : ¬ condition → Completes i s (fun t => t.runState ≠ .faulted)) : FaultsExactly i s c condition := by
  intro c'
  by_cases hcondition : condition
  · obtain ⟨t, hexec, hrun, rfl⟩ := hfault hcondition
    simp [FaultsWith, hexec, hrun, hcondition, eq_comm]
  · obtain ⟨t, hexec, hrun⟩ := hdone hcondition
    simp [FaultsWith, hexec, hrun, hcondition]

/-- An instruction with one guard, which enters the fault where the guard fails and keeps the run state where it holds. -/
theorem faultsExactly_of_guard {guard : Prop} [Decidable guard] {t u : State}
    (hexec : exec i s = if guard then .next t else .next (u.enterFault c)) (hrun : t.runState ≠ .faulted)
    (hcondition : condition ↔ ¬ guard) : FaultsExactly i s c condition := by
  refine faultsExactly_of_cases (fun h => ?_) (fun h => ?_)
  · exact ⟨_, hexec.trans (if_neg (hcondition.mp h)), rfl, rfl⟩
  · exact ⟨_, hexec.trans (if_pos (not_not.mp (mt hcondition.mpr h))), hrun⟩

theorem mem_executeFaulters_of_string {m : Mnemonic} (h : m ∈ [.insi, .insw]) : m ∈ executeFaulters := by
  obtain rfl | rfl : m = .insi ∨ m = .insw := by simpa using h
  all_goals decide

/-- Only the effects of the instructions that R341 lists end in Faulted. -/
theorem Effect.mem_executeFaulters {m : Mnemonic} {t : State} (heffect : Effect m s t) (hrun : s.runState ≠ .faulted)
    (hfaulted : t.runState = .faulted) : m ∈ executeFaulters := by
  cases heffect with
  | faulted hm => exact hm
  | stringFaulted hm => exact mem_executeFaulters_of_string hm
  | halted => cases hfaulted
  | _ => exact absurd hfaulted hrun

theorem not_faultsWith (hrun : s.runState ≠ .faulted) (hm : i.mnemonic ∉ executeFaulters) (c : FaultCode) :
    ¬ FaultsWith i s c := fun ⟨_, hexec, hfaulted, _⟩ =>
  hm ((exec_effect hexec).mem_executeFaulters hrun hfaulted)

/-! ### Memory and the channel -/

theorem faultsExactly_lodw (hrun : s.runState ≠ .faulted) (rg : Reg) (a : Word) :
    FaultsExactly (.lodwRegAddr rg a) s .addressOutOfBounds (s.params.totalSize < a.toNat + 4) :=
  faultsExactly_of_guard (execLodwRegAddr_eq rg a s) hrun Nat.not_le.symm

theorem faultsExactly_of_finishStore (hrun : s.runState ≠ .faulted) {a : Nat} {v : Word}
    (h : exec i s = finishStore a v s) : FaultsExactly i s .addressOutOfBounds (s.params.totalSize < a + 4) :=
  faultsExactly_of_guard (h.trans (finishStore_eq a v s)) hrun Nat.not_le.symm

theorem faultsExactly_of_stringIn (hrun : s.runState ≠ .faulted) {a : Nat} (h : exec i s = stringIn a s) :
    FaultsExactly i s .addressOutOfBounds (s.params.totalSize < a + (stringPart s.chanHead).length + 1) :=
  faultsExactly_of_guard (h.trans (stringIn_eq a s)) hrun Nat.not_le.symm

/-- Where a terminator stands at or after `a`, the scan finds the least one. -/
theorem State.least_terminator {a : Nat}
    (h : ¬ ∀ k, a ≤ k → k < s.params.totalSize → s.byteAt k ≠ 0) :
    ∃ n, a + n < s.params.totalSize ∧ s.byteAt (a + n) = 0 ∧ ∀ k < n, s.byteAt (a + k) ≠ 0 := by
  cases hlength : Memory.stringLength s.mem a (s.params.totalSize - a) with
  | none =>
    refine absurd (fun k hle hlt => ?_) h
    have hbyte := (Memory.stringLength_none _ _ _).mp hlength (k - a) (by omega)
    rwa [show a + (k - a) = k by omega] at hbyte
  | some n =>
    obtain ⟨hlt, hzero, hleast⟩ := (Memory.stringLength_some _ _ _ n).mp hlength
    exact ⟨n, by omega, hzero, hleast⟩

theorem faultsExactly_of_stringOut (hrun : s.runState ≠ .faulted) {a : Nat} (h : exec i s = stringOut a s) :
    FaultsExactly i s .addressOutOfBounds (∀ k, a ≤ k → k < s.params.totalSize → s.byteAt k ≠ 0) := by
  refine faultsExactly_of_cases (fun hnone => ⟨_, takesFault_of_stringOut h hnone, rfl, rfl⟩) (fun hsome => ?_)
  obtain ⟨n, hrange, hzero, hleast⟩ := State.least_terminator hsome
  exact ⟨_, h.trans (stringOut_next a n s hrange hzero hleast), hrun⟩

/-! ### The memory stack and the Call Stack -/

/-- With the stack segment inside Memory the access of a POP has no fault of its own (R208). -/
theorem faultsExactly_pop (hrun : s.runState ≠ .faulted)
    (hinside : s.layout.stackStart + s.layout.stackSize ≤ s.params.totalSize) (ra : Reg) :
    FaultsExactly (.popReg ra) s .stackUnderflow
      (¬ (s.layout.stackStart ≤ (s.reg .sp).toNat ∧
        (s.reg .sp).toNat + 4 ≤ s.layout.stackStart + s.layout.stackSize)) := by
  refine faultsExactly_of_cases (fun hout => ⟨_, takesFault_pop ra (by omega), rfl, rfl⟩) (fun hin => ?_)
  obtain ⟨hlow, hhigh⟩ := not_not.mp hin
  have hstack := (s.layout.inStack_natCast_iff _).mpr ⟨hlow, hhigh⟩
  exact ⟨_, (execPopReg_eq ra s).trans ((if_pos hstack).trans (if_pos (hhigh.trans hinside))), hrun⟩

theorem exists_push_of_mnemonic_push (h : i.mnemonic = .push) : ∃ src, ∀ s, exec i s = push src s := by
  cases i with
  | pushReg rb => exact ⟨.reg rb, fun _ => rfl⟩
  | pushImmInt v => exact ⟨.immInt v, fun _ => rfl⟩
  | pushImmFlt v => exact ⟨.immFlt v, fun _ => rfl⟩
  | _ => cases h

/-- With the stack segment inside Memory the access of a PUSH has no fault of its own (R207). -/
theorem faultsExactly_push (hrun : s.runState ≠ .faulted)
    (hinside : s.layout.stackStart + s.layout.stackSize ≤ s.params.totalSize) (hm : i.mnemonic = .push) :
    FaultsExactly i s .stackOverflow
      (¬ (s.layout.stackStart + 4 ≤ (s.reg .sp).toNat ∧
        (s.reg .sp).toNat ≤ s.layout.stackStart + s.layout.stackSize)) := by
  obtain ⟨src, hpush⟩ := exists_push_of_mnemonic_push hm
  refine faultsExactly_of_cases (fun hout => ⟨_, takesFault_of_push src (hpush s) (by omega), rfl, rfl⟩) (fun hin => ?_)
  obtain ⟨hlow, hhigh⟩ := not_not.mp hin
  have hstack := (s.layout.inStack_sub_four_iff _).mpr ⟨hlow, hhigh⟩
  have hrange : (s.reg .sp).toNat - 4 + 4 ≤ s.params.totalSize := by omega
  exact ⟨_, (hpush s).trans ((push_eq src s).trans ((if_pos hstack).trans (if_pos hrange))), hrun⟩

theorem faultsExactly_ret (hrun : s.runState ≠ .faulted) :
    FaultsExactly .retNone s .stackUnderflow (s.callStack = []) := by
  refine faultsExactly_of_cases (fun hempty => ⟨_, execRetNone_fault s hempty, rfl, rfl⟩) (fun hstack => ?_)
  obtain ⟨a, rest, hcons⟩ := List.exists_cons_of_ne_nil hstack
  exact ⟨_, execRetNone_next a rest s hcons, hrun⟩

/-- In a state whose Call Stack is within its capacity a CALL faults only at the capacity (log 9). -/
theorem faultsExactly_call (hrun : s.runState ≠ .faulted)
    (hdepth : ∀ c, s.params.callStackCapacity = some c → s.callStack.length ≤ c) (a : Word) :
    FaultsExactly (.callAddr a) s .stackOverflow (s.params.callStackCapacity = some s.callStack.length) := by
  refine faultsExactly_of_cases (fun hfull => ⟨_, takesFault_call a hfull, rfl, rfl⟩) (fun hroom => ?_)
  have hnotFull : ¬ s.callStackFull = true := by
    rw [State.callStackFull_iff]
    rintro ⟨c, hcap, hle⟩
    exact hroom (hle.antisymm (hdepth c hcap) ▸ hcap)
  exact ⟨_, (execCallAddr_eq a s).trans (if_neg hnotFull), hrun⟩

/-- Settles O13: the instructions that R341 lists, by the shared operation of each, and all others by their effects. -/
theorem executeFaultsHaveExactlyTheirCauses : Obligations.ExecuteFaultsHaveExactlyTheirCauses := by
  intro s h hready
  have hrun : s.runState ≠ .faulted := by simp [hready]
  refine ⟨faultsExactly_lodw hrun, fun a rg => ?strw, fun ra v => ⟨?strInt, ?strFlt⟩, fun a => ?insi, fun ra => ?insw,
    fun a => ?outi, fun ra => ?outw, faultsExactly_pop hrun h.stack_inside, faultsExactly_ret hrun,
    fun i hm => faultsExactly_push hrun h.stack_inside hm, faultsExactly_call hrun h.callDepth,
    fun i hm => not_faultsWith hrun hm⟩
  case strw | strInt | strFlt => exact faultsExactly_of_finishStore hrun rfl
  case insi | insw => exact faultsExactly_of_stringIn hrun rfl
  case outi | outw => exact faultsExactly_of_stringOut hrun rfl

end Sys2Proof.Machine

/-! ## Resolved operands are those a word can carry (R112, R114, R304 to R307) -/

namespace Sys2Proof.Machine

/-- A resolved operand of this class is one that R114 lets an instruction carry. -/
def OperandClass.Admits (c : OperandClass) : Operand → Prop
  | .reg r => c = .greg → r.isGeneral = true
  | .immInt v => immIntRepresentable v = true
  | .immFlt v => immFltRepresentable v = true
  | .addr a => addrFits a = true

theorem addrFits_ofNat {n : Nat} (h : n < 2 ^ 23) : addrFits (BitVec.ofNat 32 n) = true := by
  have hzero : (BitVec.ofNat 32 n).extractLsb' 23 9 = 0 := by
    apply BitVec.eq_of_toNat_eq
    simp only [BitVec.extractLsb'_toNat, BitVec.toNat_ofNat, Nat.shiftRight_eq_div_pow, BitVec.ofNat_eq_ofNat]
    omega
  simp [addrFits, hzero]

variable {c : OperandClass} {x : Operand}

theorem admits_of_resolveAddress {a : Int} (h : resolveAddress a = some x) : c.Admits x := by
  unfold resolveAddress at h
  split at h
  · next hrange =>
    obtain ⟨n, rfl⟩ := Int.eq_ofNat_of_zero_le hrange.1
    obtain rfl := Option.some.inj h
    rw [BitVec.ofInt_natCast]
    exact addrFits_ofNat (by omega)
  · cases h

theorem admits_of_resolveInt {n : Int} (h : resolveInt n = some x) : c.Admits x := by
  unfold resolveInt at h
  split at h
  · next hfits =>
    obtain rfl := Option.some.inj h
    exact hfits
  · cases h

theorem admits_of_resolveFloat {p : Word} (h : resolveFloat p = some x) : c.Admits x := by
  unfold resolveFloat at h
  split at h
  · next hfits =>
    obtain rfl := Option.some.inj h
    exact hfits
  · cases h

theorem admits_of_resolveLabelValue {a : Nat} (h : resolveLabelValue a = some x) : c.Admits x := by
  unfold resolveLabelValue at h
  split at h
  · exact admits_of_resolveInt h
  · cases h

/-- What a class accepts as an operand's shape and the resolver answers, the class admits. The shape decides for a register,
the resolver's own range check for the rest. -/
theorem admits_of_resolveOperand {symbols : SymbolTable} {o : OperandShape} (haccepts : c.accepts o = true)
    (h : resolveOperand symbols c o = some x) : c.Admits x := by
  cases o <;> dsimp only [resolveOperand] at h
  case reg r =>
    obtain rfl := Option.some.inj h
    rintro rfl
    exact haccepts
  case int => exact admits_of_resolveInt h
  case flt => exact admits_of_resolveFloat h
  case bracketNum => exact admits_of_resolveAddress h
  case bracketLabel l =>
    split at h
    · cases h
    · exact admits_of_resolveAddress h
  case bareLabel l =>
    split at h
    · cases h
    · split at h
      · exact admits_of_resolveAddress h
      · exact admits_of_resolveLabelValue h

/-- The operands of a line that matches its signature, class by class. -/
theorem admits_of_resolveOperands {symbols : SymbolTable} {cs : List OperandClass} {os : List OperandShape}
    {xs : List Operand} (hmatches : matchesSignature cs os = true) (h : resolveOperands symbols cs os = some xs) :
    List.Forall₂ OperandClass.Admits cs xs := by
  induction cs generalizing os xs with
  | nil =>
    obtain rfl : [] = xs := by simpa [resolveOperands] using h
    exact .nil
  | cons c cs ih =>
    cases os with
    | nil => cases hmatches
    | cons o os =>
      obtain ⟨haccepts, hrest⟩ := Bool.and_eq_true_iff.mp hmatches
      unfold resolveOperands at h
      split at h
      · next x xs hx hxs =>
        obtain rfl := Option.some.inj h
        exact .cons (admits_of_resolveOperand haccepts hx) (ih hrest hxs)
      · cases h

end Sys2Proof.Machine

/-! ## The instruction of admitted operands is well-formed (R104, R111, R114)

One lemma per operand list: the instructions its form answers, each with the condition that R114 has for its row. -/

namespace Sys2Proof.Machine

/-- From operands of these classes the form makes well-formed instructions only. -/
def FormWellFormed (cs : List OperandClass) (form : List Operand → Option Instr) : Prop :=
  ∀ ops i, List.Forall₂ OperandClass.Admits cs ops → form ops = some i → i.wf = true

variable {c c' : OperandClass}

theorem admits_of_forall₂_singleton {x : Operand} (h : List.Forall₂ OperandClass.Admits [c] [x]) : c.Admits x :=
  (List.forall₂_cons.mp h).1

theorem admits_of_forall₂_pair {x y : Operand} (h : List.Forall₂ OperandClass.Admits [c, c'] [x, y]) :
    c.Admits x ∧ c'.Admits y :=
  (List.forall₂_cons.mp h).imp_right admits_of_forall₂_singleton

theorem regSourceForms_wellFormed {onReg : Reg → Reg → Instr} {onInt onFlt : Reg → Word → Instr}
    (hreg : ∀ ra rb, (onReg ra rb).wf = true) (hint : ∀ ra v, (onInt ra v).wf = immIntRepresentable v)
    (hflt : ∀ ra v, (onFlt ra v).wf = immFltRepresentable v) :
    FormWellFormed [c, c'] (regSourceForms onReg onInt onFlt) := by
  intro ops i hops h
  unfold regSourceForms at h
  split at h <;> cases h
  · exact hreg ..
  · exact (hint ..).trans (admits_of_forall₂_pair hops).2
  · exact (hflt ..).trans (admits_of_forall₂_pair hops).2

theorem regImmediateForms_wellFormed {onInt onFlt : Reg → Word → Instr}
    (hint : ∀ ra v, (onInt ra v).wf = immIntRepresentable v)
    (hflt : ∀ ra v, (onFlt ra v).wf = immFltRepresentable v) :
    FormWellFormed [c, c'] (regImmediateForms onInt onFlt) := by
  intro ops i hops h
  unfold regImmediateForms at h
  split at h <;> cases h
  · exact (hint ..).trans (admits_of_forall₂_pair hops).2
  · exact (hflt ..).trans (admits_of_forall₂_pair hops).2

theorem regRegForm_wellFormed {mk : Reg → Reg → Instr} (hmk : ∀ ra rb, (mk ra rb).wf = true) :
    FormWellFormed [c, c'] (regRegForm mk) := by
  intro ops i _ h
  unfold regRegForm at h
  split at h <;> cases h
  exact hmk ..

theorem sourceForms_wellFormed {onReg : Reg → Instr} {onInt onFlt : Word → Instr}
    (hreg : ∀ rb, (onReg rb).wf = true) (hint : ∀ v, (onInt v).wf = immIntRepresentable v)
    (hflt : ∀ v, (onFlt v).wf = immFltRepresentable v) : FormWellFormed [c] (sourceForms onReg onInt onFlt) := by
  intro ops i hops h
  unfold sourceForms at h
  split at h <;> cases h
  · exact hreg _
  · exact (hint _).trans (admits_of_forall₂_singleton hops)
  · exact (hflt _).trans (admits_of_forall₂_singleton hops)

theorem regForm_wellFormed {mk : Reg → Instr} (hmk : ∀ ra, (mk ra).wf = true) : FormWellFormed [c] (regForm mk) := by
  intro ops i _ h
  unfold regForm at h
  split at h <;> cases h
  exact hmk _

theorem addrForm_wellFormed {mk : Word → Instr} (hmk : ∀ a, (mk a).wf = addrFits a) :
    FormWellFormed [c] (addrForm mk) := by
  intro ops i hops h
  unfold addrForm at h
  split at h <;> cases h
  exact (hmk _).trans (admits_of_forall₂_singleton hops)

/-- Format RA: the class `greg` admits the registers AX to HX alone. -/
theorem regAddrForm_wellFormed {mk : Reg → Word → Instr} (hmk : ∀ rg a, (mk rg a).wf = (rg.isGeneral && addrFits a)) :
    FormWellFormed [.greg, c] (regAddrForm mk) := by
  intro ops i hops h
  unfold regAddrForm at h
  split at h <;> cases h
  obtain ⟨hgeneral, hfits⟩ := admits_of_forall₂_pair hops
  exact (hmk ..).trans (Bool.and_eq_true_iff.mpr ⟨hgeneral rfl, hfits⟩)

theorem addrRegForm_wellFormed {mk : Word → Reg → Instr} (hmk : ∀ a rg, (mk a rg).wf = (rg.isGeneral && addrFits a)) :
    FormWellFormed [c, .greg] (addrRegForm mk) := by
  intro ops i hops h
  unfold addrRegForm at h
  split at h <;> cases h
  obtain ⟨hfits, hgeneral⟩ := admits_of_forall₂_pair hops
  exact (hmk ..).trans (Bool.and_eq_true_iff.mpr ⟨hgeneral rfl, hfits⟩)

theorem noOperandForm_wellFormed {j : Instr} (hj : j.wf = true) : FormWellFormed [] (noOperandForm j) := by
  intro ops i _ h
  unfold noOperandForm at h
  split at h <;> cases h
  exact hj

/-- Operands that a mnemonic's signature admits make a well-formed instruction. -/
theorem instrOfOperands_wellFormed (m : Mnemonic) : FormWellFormed (signatureOf m) (instrOfOperands m) := by
  cases m <;> dsimp only [signatureOf, instrOfOperands]
  case addw | subw | mul | and | or | xor | shl | shr | cmpw =>
    exact regSourceForms_wellFormed (fun _ _ => rfl) (fun _ _ => rfl) (fun _ _ => rfl)
  case movi | lodi | stri => exact regImmediateForms_wellFormed (fun _ _ => rfl) (fun _ _ => rfl)
  case movw | xcgh => exact regRegForm_wellFormed fun _ _ => rfl
  case inc | dec | neg | not | pop | inn | insw | outw => exact regForm_wellFormed fun _ => rfl
  case push | out => exact sourceForms_wellFormed (fun _ => rfl) (fun _ => rfl) (fun _ => rfl)
  case jmp | call | je | jne | jgt | jge | jlt | jle | js | jco | insi | outi => exact addrForm_wellFormed fun _ => rfl
  case lodw => exact regAddrForm_wellFormed fun _ _ => rfl
  case strw => exact addrRegForm_wellFormed fun _ _ => rfl
  case ret | halt => exact noOperandForm_wellFormed rfl

end Sys2Proof.Machine

/-! ## The words of an assembled image (R319, R322) -/

namespace Sys2Proof.Machine

/-- Everything an instruction that Pass 2 answers comes from: shapes that match the signature, and the operands resolved from
them (R319). -/
theorem resolveInstr_ok {symbols : SymbolTable} {m : Mnemonic} {operands : List Text} {i : Instr}
    (h : resolveInstr symbols m operands = .ok i) :
    ∃ shapes ops, matchesSignature (signatureOf m) shapes = true ∧
      resolveOperands symbols (signatureOf m) shapes = some ops ∧ instrOfOperands m ops = some i := by
  unfold resolveInstr at h
  split at h
  · cases h
  · next shapes _ =>
    split at h
    · cases h
    · next hmatches =>
      split at h
      · cases h
      · split at h
        · cases h
        · next ops hops =>
          split at h <;> cases h
          exact ⟨shapes, ops, by simpa using hmatches, hops, ‹_›⟩

/-- An instruction line that Pass 2 accepts is well-formed. -/
theorem wf_of_resolveInstr {symbols : SymbolTable} {m : Mnemonic} {operands : List Text} {i : Instr}
    (h : resolveInstr symbols m operands = .ok i) : i.wf = true := by
  obtain ⟨shapes, ops, hmatches, hops, hinstr⟩ := resolveInstr_ok h
  exact instrOfOperands_wellFormed m ops i (admits_of_resolveOperands hmatches hops) hinstr

/-- Every word of Pass 2 is the encoding of a well-formed instruction. -/
theorem encodesTo_of_pass2Lines {symbols : SymbolTable} {code : List AsmCode} {ws : List Word}
    (h : pass2Lines symbols code = .ok ws) : ∀ w ∈ ws, ∃ i : Instr, i.EncodesTo w := by
  induction code generalizing ws with
  | nil =>
    obtain rfl : [] = ws := by simpa [pass2Lines] using h
    exact nofun
  | cons c cs ih =>
    unfold pass2Lines at h
    split at h
    · cases h
    · next i hi =>
      split at h
      · cases h
      · next rest hrest =>
        obtain rfl := Except.ok.inj h
        exact List.forall_mem_cons.mpr ⟨⟨i, wf_of_resolveInstr hi, rfl⟩, ih hrest⟩

/-- Settles O58: the words are those of Pass 2, and the decoder reads back what a well-formed instruction encodes to. -/
theorem assembledWordsAreLegal : Obligations.AssembledWordsAreLegal := by
  intro source totalSize img h w hw
  obtain ⟨p, ws, -, hwords, rfl⟩ := assemble_ok h
  obtain ⟨i, hwf, rfl⟩ := encodesTo_of_pass2Lines hwords w hw
  exact ⟨i, hwf, rfl, decodeWord_encode i hwf⟩

end Sys2Proof.Machine
